-- ==== Sys2Proof/Word.lean ====
section
/-! DEFINITION. The word types of the decoder: the 8-bit byte (00_scope R7) and the 16-bit word (R5), and text. -/

namespace Sys2Proof

/-- A byte of the stream: 8 bits, bit 7 the most significant (R7). -/
abbrev Byte := BitVec 8

/-- A 16-bit field of an instruction (R5, R33). -/
abbrev Word := BitVec 16

/-- A piece of output text: its characters in order. Every character a line can hold is an ASCII one (R163), one
output byte each (log entry 11). -/
abbrev Text := List Char

end Sys2Proof
end

