-- ==== Sys2Proof/Types.lean ====
section
/-! DEFINITION. The data types of the spec (00_scope R9, 30_encoding R51), and the operand fields of an encoded
instruction, from which `Instr` of Syntax.lean is built. -/

namespace Sys2Proof

/-- `Width := byte | word` (R9). -/
inductive Width where
  | byte
  | word
deriving DecidableEq, Repr

/-- `Mnemonic` (R9): the operation of a decoded instruction. A jump's `code` is `op[3:0]`, a loop's `op[1:0]`
(R57). -/
inductive Mnemonic where
  | mov
  | add
  | sub
  | cmp
  | conditionalJump (code : BitVec 4)
  | loopVariant (code : BitVec 2)
deriving DecidableEq, Repr

/-- `Operand` (R9): a designator, or an immediate value. No operand is ever read or written by the block (R12, R24).
`memoryIndexed.base` is the `rm` value that indexes EA_NAME; its displacement is absent only for `mod = 00` (R72). -/
inductive Operand where
  | register (width : Width) (index : BitVec 3)
  | memoryDirect (address : Word)
  | memoryIndexed (base : BitVec 3) (displacement : Option Int)
  | immediate (value : Int) (declaredWidth : Width)
deriving DecidableEq, Repr

/-- `Instruction` (R9): what the decoder builds and emits, destination operand first (log entry 19). Not to be mixed
up with `Instr` of Syntax.lean, which is the ENCODED instruction, field by field. -/
structure Instruction where
  mnemonic : Mnemonic
  operands : List Operand
deriving DecidableEq, Repr

/-- The three operations that have immediate forms (R51, R110). -/
inductive AluOp where
  | add
  | sub
  | cmp
deriving DecidableEq, Repr

/-- The nine forms of R51, as the latch `form` holds them (10_state R18). -/
inductive Form where
  | addRm
  | subRm
  | cmpRm
  | movRm
  | aluImmRm
  | aluImmAcc
  | movImmReg
  | jcc
  | loop
deriving DecidableEq, Repr

/-- The answer of `Classify` (R52): a form with the field bits of the opcode byte. -/
inductive OpClass where
  | addRm (d w : Bool)
  | subRm (d w : Bool)
  | cmpRm (d w : Bool)
  | movRm (d w : Bool)
  | aluImmRm (s w : Bool)
  | aluImmAcc (op : AluOp) (w : Bool)
  | movImmReg (w : Bool) (oreg : BitVec 3)
  | jcc (code : BitVec 4)
  | loop (code : BitVec 2)
deriving DecidableEq, Repr

/-- The `mod` and `rm` fields of an addressing byte with the bytes they call for (R66 to R72): `mod = 11`;
`mod = 00, rm = 110`; `mod = 00` otherwise (`rm` is then not 110, WellFormed.lean); `mod = 01`; `mod = 10`. -/
inductive Rm where
  | reg (rm : BitVec 3)
  | direct (address : Word)
  | noDisp (rm : BitVec 3)
  | disp8 (rm : BitVec 3) (disp : Byte)
  | disp16 (rm : BitVec 3) (disp : Word)
deriving DecidableEq, Repr

/-- The immediate bytes of an instruction as they stand in the stream: one, or two (R60, R75 to R77). -/
inductive Imm where
  | imm8 (b : Byte)
  | imm16 (v : Word)
deriving DecidableEq, Repr

end Sys2Proof
end

