-- ==== Sys2Proof/Config.lean ====
section
/-! DEFINITION. The tables that the spec makes configuration (00_scope R5, 10_state R20), as plain data and an argument
of the whole machine: the state carries them as it carries STREAM (log entry 22). Their defaults stand in
Machine/Tables.lean. The spec leaves no value free (20_memory R43), so there is no opaque constant here. -/

namespace Sys2Proof

/-- LOOP_OPCODE (R5, 30_encoding R57): the opcode byte of each loop-family instruction. -/
structure LoopOpcodes where
  loopnz : Byte
  loopz : Byte
  loop : Byte
  jcxz : Byte
deriving DecidableEq, Repr

/-- ALU_SUBOP (R5, 41_add_sub_cmp R110): the sub-opcode of each operation in the `100000sw` form. The sub-opcodes of no
operation are unsupported (R109). -/
structure AluSubops where
  add : BitVec 3
  sub : BitVec 3
  cmp : BitVec 3
deriving DecidableEq, Repr

/-- The tables of R5. Another spelling is another table and no other formatter (42_jumps_loops R120). -/
structure Tables where
  /-- REG8_NAME -/
  reg8Name : Vector Text 8
  /-- REG16_NAME -/
  reg16Name : Vector Text 8
  /-- EA_NAME -/
  eaName : Vector Text 8
  /-- CC_NAME -/
  ccName : Vector Text 16
  /-- The names of the loop codes 0 to 3 (48_text_format R151) -/
  loopName : Vector Text 4
  /-- LOOP_OPCODE -/
  loopOpcode : LoopOpcodes
  /-- ALU_SUBOP -/
  aluSubop : AluSubops
  /-- NEWLINE -/
  newline : Byte
deriving DecidableEq, Repr

end Sys2Proof
end

