-- ==== Sys2Proof/Machine/Tables.lean ====
section
/-! DEFINITION. The tables of 00_scope R5: reading an entry, and the defaults that the spec shows (log entries 9 and
10). They are decided by 92_eei_decisions D8 to D13, mostly from general knowledge of the 8086
(93_implementation_defined G1 to G5). -/

namespace Sys2Proof.Machine

/-! ## Reading an entry -/

/-- REG8_NAME[k]. -/
def reg8Text (t : Tables) (k : BitVec 3) : Text := t.reg8Name[k.toNat]'k.isLt

/-- REG16_NAME[k]. -/
def reg16Text (t : Tables) (k : BitVec 3) : Text := t.reg16Name[k.toNat]'k.isLt

/-- EA_NAME[rm]. -/
def eaText (t : Tables) (rm : BitVec 3) : Text := t.eaName[rm.toNat]'rm.isLt

/-- CC_NAME[code]. -/
def ccText (t : Tables) (code : BitVec 4) : Text := t.ccName[code.toNat]'code.isLt

/-- The name of a loop code. -/
def loopText (t : Tables) (code : BitVec 2) : Text := t.loopName[code.toNat]'code.isLt

/-- LOOP_OPCODE[code] (30_encoding R51, R57). -/
def loopOpcode (t : Tables) (code : BitVec 2) : Byte :=
  if code = 0 then t.loopOpcode.loopnz
  else if code = 1 then t.loopOpcode.loopz
  else if code = 2 then t.loopOpcode.loop
  else t.loopOpcode.jcxz

/-- The sub-opcode of an operation. -/
def aluSubop (t : Tables) : AluOp → BitVec 3
  | .add => t.aluSubop.add
  | .sub => t.aluSubop.sub
  | .cmp => t.aluSubop.cmp

/-! ## The defaults -/

/-- The defaults of R5: REG8_NAME and REG16_NAME (10_state R13), EA_NAME (30_encoding R68), CC_NAME (42_jumps_loops
R120), the loop names (48_text_format R151), LOOP_OPCODE (30_encoding R57), ALU_SUBOP (41_add_sub_cmp R110), and
NEWLINE (48_text_format R161). -/
def defaultTables : Tables where
  reg8Name := #v["al".toList, "cl".toList, "dl".toList, "bl".toList, "ah".toList, "ch".toList, "dh".toList, "bh".toList]
  reg16Name := #v["ax".toList, "cx".toList, "dx".toList, "bx".toList, "sp".toList, "bp".toList, "si".toList, "di".toList]
  eaName := #v["bx + si".toList, "bx + di".toList, "bp + si".toList, "bp + di".toList, "si".toList, "di".toList,
    "bp".toList, "bx".toList]
  ccName := #v["jo".toList, "jno".toList, "jb".toList, "jnb".toList, "je".toList, "jne".toList, "jbe".toList,
    "jnbe".toList, "js".toList, "jns".toList, "jp".toList, "jnp".toList, "jl".toList, "jnl".toList, "jle".toList,
    "jnle".toList]
  loopName := #v["loopnz".toList, "loopz".toList, "loop".toList, "jcxz".toList]
  loopOpcode := { loopnz := 0xE0, loopz := 0xE1, loop := 0xE2, jcxz := 0xE3 }
  aluSubop := { add := 0b000, sub := 0b101, cmp := 0b111 }
  newline := 0x0A

end Sys2Proof.Machine
end

