-- ==== Sys2Proof/Syntax.lean ====
section
/-! DEFINITION. The encoded instructions: one constructor per row of spec/opcode_table.json, in the table's order,
with every field that the encoding leaves free. -/

namespace Sys2Proof

/-- An encoded instruction. `d`, `w`, `s` are the bits of R53 to R55, `reg` the ModRM field of R65, `oreg` the
register field of R56, `rm` the `mod`/`rm` fields with their bytes, `imm` the immediate bytes, `off` the jump offset
byte of R81. -/
inductive Instr where
  | movRm (d w : Bool) (reg : BitVec 3) (rm : Rm)       -- R90
  | movImm (w : Bool) (oreg : BitVec 3) (imm : Imm)     -- R91
  | addRm (d w : Bool) (reg : BitVec 3) (rm : Rm)       -- R100
  | subRm (d w : Bool) (reg : BitVec 3) (rm : Rm)       -- R101
  | cmpRm (d w : Bool) (reg : BitVec 3) (rm : Rm)       -- R102
  | addImm (s w : Bool) (rm : Rm) (imm : Imm)           -- R103
  | subImm (s w : Bool) (rm : Rm) (imm : Imm)           -- R104
  | cmpImm (s w : Bool) (rm : Rm) (imm : Imm)           -- R105
  | addAcc (w : Bool) (imm : Imm)                       -- R106
  | subAcc (w : Bool) (imm : Imm)                       -- R107
  | cmpAcc (w : Bool) (imm : Imm)                       -- R108
  | jo (off : Byte)                                     -- R121
  | jno (off : Byte)                                    -- R122
  | jb (off : Byte)                                     -- R123
  | jnb (off : Byte)                                    -- R124
  | je (off : Byte)                                     -- R125
  | jne (off : Byte)                                    -- R126
  | jbe (off : Byte)                                    -- R127
  | jnbe (off : Byte)                                   -- R128
  | js (off : Byte)                                     -- R129
  | jns (off : Byte)                                    -- R130
  | jp (off : Byte)                                     -- R131
  | jnp (off : Byte)                                    -- R132
  | jl (off : Byte)                                     -- R133
  | jnl (off : Byte)                                    -- R134
  | jle (off : Byte)                                    -- R135
  | jnle (off : Byte)                                   -- R136
  | loopnz (off : Byte)                                 -- R137
  | loopz (off : Byte)                                  -- R138
  | loop (off : Byte)                                   -- R139
  | jcxz (off : Byte)                                   -- R140
deriving DecidableEq, Repr

end Sys2Proof
end

