-- ==== Sys2Proof/WellFormed.lean ====
section
/-! DEFINITION. Which encoded instructions exist: the two checks that the types of Syntax.lean leave open. -/

namespace Sys2Proof

/-- `mod = 00` with `rm = 110` is the direct address, so no operand without displacement has `rm = 110` (R69, R72). -/
def Rm.wellFormed : Rm → Bool
  | .noDisp rm => rm != 0b110#3
  | .reg _ | .direct _ | .disp8 _ _ | .disp16 _ _ => true

/-- The number of immediate bytes is the one `w` and `s` call for (R60 `ImmLen`): one if `w = 0` or `s = 1`, else
two. -/
def Imm.wellFormed (s w : Bool) : Imm → Bool
  | .imm8 _ => !w || s
  | .imm16 _ => w && !s

/-- The well-formed encoded instructions: those that stand for some bytes. -/
def Instr.wellFormed : Instr → Bool
  | .movRm _ _ _ rm | .addRm _ _ _ rm | .subRm _ _ _ rm | .cmpRm _ _ _ rm => rm.wellFormed
  | .movImm w _ imm | .addAcc w imm | .subAcc w imm | .cmpAcc w imm => imm.wellFormed false w
  | .addImm s w rm imm | .subImm s w rm imm | .cmpImm s w rm imm => rm.wellFormed && imm.wellFormed s w
  | .jo _ | .jno _ | .jb _ | .jnb _ | .je _ | .jne _ | .jbe _ | .jnbe _ => true
  | .js _ | .jns _ | .jp _ | .jnp _ | .jl _ | .jnl _ | .jle _ | .jnle _ => true
  | .loopnz _ | .loopz _ | .loop _ | .jcxz _ => true

end Sys2Proof
end

