-- ==== Sys2Proof/Decode.lean ====
section
/-! DEFINITION. The instruction decoder on a list of bytes (30_encoding), total and rejecting by name, and after it
the encoder, written from the same layouts (R59). Nothing here touches the machine's state; the cursor-level reading
of the same bytes is Machine/Operands.lean. `t` is the configuration, LOOP_OPCODE and ALU_SUBOP among it (00_scope
R5). -/

namespace Sys2Proof

open Sys2Proof.Machine

/-! ## Fields and integers (R7, R33, R80) -/

/-- The `mod` field of an addressing byte, bits 7:6 (R58). -/
def modField (m : Byte) : BitVec 2 := m.extractLsb' 6 2

/-- The `reg` field (in `100000sw`: the sub-opcode) of an addressing byte, bits 5:3 (R58). -/
def regField (m : Byte) : BitVec 3 := m.extractLsb' 3 3

/-- The `rm` field of an addressing byte, bits 2:0 (R58). -/
def rmField (m : Byte) : BitVec 3 := m.extractLsb' 0 3

/-- A 16-bit value from its two bytes: the byte read first is the less significant one (R33). -/
def word16 (lo hi : Byte) : Word := hi ++ lo

/-- The byte of a 16-bit field that stands first in the stream (R33). -/
def loByte (v : Word) : Byte := v.extractLsb' 0 8

/-- The byte of a 16-bit field that stands second in the stream (R33). -/
def hiByte (v : Word) : Byte := v.extractLsb' 8 8

/-- `signed8` (R7): the byte read as two's complement. -/
def signed8 (b : Byte) : Int := if b.toNat < 128 then b.toNat else (b.toNat : Int) - 256

/-- `signed16` (R7): the 16-bit value read as two's complement. -/
def signed16 (v : Word) : Int := if v.toNat < 32768 then v.toNat else (v.toNat : Int) - 65536

/-! ## LOOP_OPCODE and ALU_SUBOP, read from the byte or the field (00_scope R5) -/

/-- The code of a loop-family opcode byte (R57). -/
def loopCode? (t : Tables) (op : Byte) : Option (BitVec 2) :=
  if op = loopOpcode t 0 then some 0
  else if op = loopOpcode t 1 then some 1
  else if op = loopOpcode t 2 then some 2
  else if op = loopOpcode t 3 then some 3
  else none

/-- The operation of a sub-opcode (41_add_sub_cmp R110), none for an unsupported one (R109). -/
def aluOp? (t : Tables) (sub : BitVec 3) : Option AluOp :=
  if sub = aluSubop t .add then some .add
  else if sub = aluSubop t .sub then some .sub
  else if sub = aluSubop t .cmp then some .cmp
  else none

/-! ## The classifier (R51, R52) -/

/-- The patterns of R51 whose opcode bytes no table gives: the form and the field bits. -/
def classifyFixed (op : Byte) : Option OpClass :=
  if op &&& 0xFC = 0x00 then some (.addRm (op.getLsbD 1) (op.getLsbD 0))
  else if op &&& 0xFC = 0x28 then some (.subRm (op.getLsbD 1) (op.getLsbD 0))
  else if op &&& 0xFC = 0x38 then some (.cmpRm (op.getLsbD 1) (op.getLsbD 0))
  else if op &&& 0xFC = 0x88 then some (.movRm (op.getLsbD 1) (op.getLsbD 0))
  else if op &&& 0xFC = 0x80 then some (.aluImmRm (op.getLsbD 1) (op.getLsbD 0))
  else if op &&& 0xFE = 0x04 then some (.aluImmAcc .add (op.getLsbD 0))
  else if op &&& 0xFE = 0x2C then some (.aluImmAcc .sub (op.getLsbD 0))
  else if op &&& 0xFE = 0x3C then some (.aluImmAcc .cmp (op.getLsbD 0))
  else if op &&& 0xF0 = 0xB0 then some (.movImmReg (op.getLsbD 3) (op.extractLsb' 0 3))
  else if op &&& 0xF0 = 0x70 then some (.jcc (op.extractLsb' 0 4))
  else none

/-- `Classify(op)` of R52: the form and the field bits of an opcode byte, `none` for an unsupported opcode (R62). -/
def classify (t : Tables) (op : Byte) : Option OpClass :=
  match classifyFixed op with
  | some c => some c
  | none => (loopCode? t op).map .loop

/-- The tables under which no byte has two readings, as R52 says of the opcode patterns: the four loop opcode bytes
are apart from each other and from the other patterns, and the three sub-opcodes are apart from each other (log entry
22). -/
def unambiguous (t : Tables) : Bool :=
  [0#2, 1#2, 2#2, 3#2].all (fun code =>
    classifyFixed (loopOpcode t code) == none && loopCode? t (loopOpcode t code) == some code) &&
  [AluOp.add, .sub, .cmp].all fun op => aluOp? t (aluSubop t op) == some op

/-! ## The decoder -/

/-- Why some bytes are no instruction. `endOfStream`: there is no opcode byte (R186). `truncated`: a byte after the
opcode byte is missing (R187). `unsupportedOpcode`: R62. `unsupportedSubop`: R109, with the addressing byte. -/
inductive DecodeError where
  | endOfStream
  | truncated
  | unsupportedOpcode (op : Byte)
  | unsupportedSubop (m : Byte)
deriving DecidableEq, Repr

/-- Some value and the bytes left over, or the reason for there being none. -/
abbrev Parsed (α : Type) := Except DecodeError (α × List Byte)

/-- One byte after the opcode byte (R79). -/
def takeByte : List Byte → Parsed Byte
  | [] => .error .truncated
  | b :: bs => .ok (b, bs)

/-- Two bytes, low byte first (R33). -/
def takeWord : List Byte → Parsed Word
  | lo :: hi :: bs => .ok (word16 lo hi, bs)
  | _ => .error .truncated

/-- The bytes that `mod` and `rm` call for (R66 to R72). -/
def takeRm (mod : BitVec 2) (rm : BitVec 3) (bs : List Byte) : Parsed Rm :=
  if mod = 0b11 then .ok (.reg rm, bs)
  else if mod = 0b00 ∧ rm = 0b110 then (takeWord bs).map fun p => (.direct p.1, p.2)
  else if mod = 0b00 then .ok (.noDisp rm, bs)
  else if mod = 0b01 then (takeByte bs).map fun p => (.disp8 rm p.1, p.2)
  else (takeWord bs).map fun p => (.disp16 rm p.1, p.2)

/-- The immediate bytes that `s` and `w` call for (R75 to R78). With `w = 0`, `s` is ignored (log entry 12). -/
def takeImm (sx w : Bool) (bs : List Byte) : Parsed Imm :=
  if w = false ∨ sx = true then (takeByte bs).map fun p => (.imm8 p.1, p.2)
  else (takeWord bs).map fun p => (.imm16 p.1, p.2)

/-- The conditional jump of a code (R57, R121 to R136). -/
def jccInstr (code : BitVec 4) (off : Byte) : Instr :=
  match code with
  | 0x0 => .jo off
  | 0x1 => .jno off
  | 0x2 => .jb off
  | 0x3 => .jnb off
  | 0x4 => .je off
  | 0x5 => .jne off
  | 0x6 => .jbe off
  | 0x7 => .jnbe off
  | 0x8 => .js off
  | 0x9 => .jns off
  | 0xA => .jp off
  | 0xB => .jnp off
  | 0xC => .jl off
  | 0xD => .jnl off
  | 0xE => .jle off
  | _ => .jnle off   -- 0xF, the one code left

/-- The loop-family instruction of a code (R57, R137 to R140). -/
def loopInstr (code : BitVec 2) (off : Byte) : Instr :=
  match code with
  | 0 => .loopnz off
  | 1 => .loopz off
  | 2 => .loop off
  | _ => .jcxz off   -- 3, the one code left

/-- The immediate-to-register/memory instruction of an operation (R103 to R105). -/
def aluImmInstr (op : AluOp) (sx w : Bool) (rm : Rm) (imm : Imm) : Instr :=
  match op with
  | .add => .addImm sx w rm imm
  | .sub => .subImm sx w rm imm
  | .cmp => .cmpImm sx w rm imm

/-- The immediate-to-accumulator instruction of an operation (R106 to R108). -/
def aluAccInstr (op : AluOp) (w : Bool) (imm : Imm) : Instr :=
  match op with
  | .add => .addAcc w imm
  | .sub => .subAcc w imm
  | .cmp => .cmpAcc w imm

/-- The rest of a register/memory form: the addressing byte, then what it calls for (R74). -/
def takeRmForm (mk : BitVec 3 → Rm → Instr) (bs : List Byte) : Parsed Instr :=
  match takeByte bs with
  | .error e => .error e
  | .ok (m, bs) => (takeRm (modField m) (rmField m) bs).map fun p => (mk (regField m) p.1, p.2)

/-- The rest of an immediate-to-register/memory form. The sub-opcode is tested before any further byte is read
(R110, R192; log entry 13). -/
def takeAluImm (t : Tables) (sx w : Bool) (bs : List Byte) : Parsed Instr :=
  match takeByte bs with
  | .error e => .error e
  | .ok (m, bs) =>
    match aluOp? t (regField m) with
    | none => .error (.unsupportedSubop m)
    | some op =>
      match takeRm (modField m) (rmField m) bs with
      | .error e => .error e
      | .ok (rm, bs) => (takeImm sx w bs).map fun p => (aluImmInstr op sx w rm p.1, p.2)

/-- The bytes after the opcode byte, by form (R59, R82). -/
def takeForm (t : Tables) (c : OpClass) (bs : List Byte) : Parsed Instr :=
  match c with
  | .movRm d w => takeRmForm (.movRm d w) bs
  | .addRm d w => takeRmForm (.addRm d w) bs
  | .subRm d w => takeRmForm (.subRm d w) bs
  | .cmpRm d w => takeRmForm (.cmpRm d w) bs
  | .aluImmRm sx w => takeAluImm t sx w bs
  | .aluImmAcc op w => (takeImm false w bs).map fun p => (aluAccInstr op w p.1, p.2)
  | .movImmReg w oreg => (takeImm false w bs).map fun p => (.movImm w oreg p.1, p.2)
  | .jcc code => (takeByte bs).map fun p => (jccInstr code p.1, p.2)
  | .loop code => (takeByte bs).map fun p => (loopInstr code p.1, p.2)

/-- The decoder: the instruction at the head of a list of bytes and the bytes after it, or the reason for there being
none. Total on any bytes. -/
def decode (t : Tables) (bytes : List Byte) : Parsed Instr :=
  match bytes with
  | [] => .error .endOfStream
  | op :: bs =>
    match classify t op with
    | none => .error (.unsupportedOpcode op)
    | some c => takeForm t c bs

/-! ## The encoder (R59) -/

/-- Byte 0 of format RM and IRM: six operation bits, then `d` (or `s`), then `w`. -/
def opByte6 (op : BitVec 6) (bit1 bit0 : Bool) : Byte := op ++ BitVec.ofBool bit1 ++ BitVec.ofBool bit0

/-- Byte 0 of format IA: seven operation bits, then `w`. -/
def opByte7 (op : BitVec 7) (w : Bool) : Byte := op ++ BitVec.ofBool w

/-- The opcode byte of a form with its field bits (R59): formats RM and IRM; IA; IR, which is `1011`, `w`, `oreg`; J,
which is `0111` and the code; L, by LOOP_OPCODE. -/
def opByte (t : Tables) : OpClass → Byte
  | .addRm d w => opByte6 0b000000 d w
  | .subRm d w => opByte6 0b001010 d w
  | .cmpRm d w => opByte6 0b001110 d w
  | .movRm d w => opByte6 0b100010 d w
  | .aluImmRm sx w => opByte6 0b100000 sx w
  | .aluImmAcc .add w => opByte7 0b0000010 w
  | .aluImmAcc .sub w => opByte7 0b0010110 w
  | .aluImmAcc .cmp w => opByte7 0b0011110 w
  | .movImmReg w oreg => 0b1011#4 ++ BitVec.ofBool w ++ oreg
  | .jcc code => 0b0111#4 ++ code
  | .loop code => loopOpcode t code

/-- The addressing byte: `mod`, `reg`, `rm` (R58). -/
def modrmByte (mod : BitVec 2) (reg rm : BitVec 3) : Byte := mod ++ reg ++ rm

/-- The `mod` field of an r/m operand (R66). -/
def Rm.modBits : Rm → BitVec 2
  | .reg _ => 0b11
  | .direct _ => 0b00
  | .noDisp _ => 0b00
  | .disp8 _ _ => 0b01
  | .disp16 _ _ => 0b10

/-- The `rm` field of an r/m operand (R66, R69). -/
def Rm.rmBits : Rm → BitVec 3
  | .reg rm => rm
  | .direct _ => 0b110
  | .noDisp rm => rm
  | .disp8 rm _ => rm
  | .disp16 rm _ => rm

/-- A 16-bit field in the stream: low byte first (R33). -/
def wordBytes (v : Word) : List Byte := [loByte v, hiByte v]

/-- The displacement or direct-address bytes of an r/m operand (R59). -/
def Rm.bytes : Rm → List Byte
  | .reg _ => []
  | .direct a => wordBytes a
  | .noDisp _ => []
  | .disp8 _ d => [d]
  | .disp16 _ d => wordBytes d

/-- The immediate bytes (R59). -/
def Imm.bytes : Imm → List Byte
  | .imm8 b => [b]
  | .imm16 v => wordBytes v

/-- `DispLen(mod, rm)` of R60. -/
def dispLen (mod : BitVec 2) (rm : BitVec 3) : Nat :=
  if mod = 0b00 ∧ rm = 0b110 then 2
  else if mod = 0b00 then 0
  else if mod = 0b01 then 1
  else if mod = 0b10 then 2
  else 0

/-- `ImmLen(w, s)` of R60. -/
def immLen (w s : Bool) : Nat := if w = false ∨ s = true then 1 else 2

/-- Format RM. -/
def encodeRm (t : Tables) (c : OpClass) (reg : BitVec 3) (rm : Rm) : List Byte :=
  opByte t c :: modrmByte rm.modBits reg rm.rmBits :: rm.bytes

/-- Format IRM. -/
def encodeAluImm (t : Tables) (op : AluOp) (sx w : Bool) (rm : Rm) (imm : Imm) : List Byte :=
  opByte t (.aluImmRm sx w) :: modrmByte rm.modBits (aluSubop t op) rm.rmBits :: (rm.bytes ++ imm.bytes)

/-- Formats IA and IR. -/
def encodeImm (t : Tables) (c : OpClass) (imm : Imm) : List Byte := opByte t c :: imm.bytes

/-- Formats J and L. -/
def encodeJump (t : Tables) (c : OpClass) (off : Byte) : List Byte := [opByte t c, off]

/-- The bytes of an encoded instruction, in stream order (R50, R59). The block itself never encodes (R4): this is the
model's inverse of `decode`, for statements and for placing an instruction in a stream (log entry 20). -/
def encode (t : Tables) : Instr → List Byte
  | .movRm d w reg rm => encodeRm t (.movRm d w) reg rm
  | .movImm w oreg imm => encodeImm t (.movImmReg w oreg) imm
  | .addRm d w reg rm => encodeRm t (.addRm d w) reg rm
  | .subRm d w reg rm => encodeRm t (.subRm d w) reg rm
  | .cmpRm d w reg rm => encodeRm t (.cmpRm d w) reg rm
  | .addImm sx w rm imm => encodeAluImm t .add sx w rm imm
  | .subImm sx w rm imm => encodeAluImm t .sub sx w rm imm
  | .cmpImm sx w rm imm => encodeAluImm t .cmp sx w rm imm
  | .addAcc w imm => encodeImm t (.aluImmAcc .add w) imm
  | .subAcc w imm => encodeImm t (.aluImmAcc .sub w) imm
  | .cmpAcc w imm => encodeImm t (.aluImmAcc .cmp w) imm
  | .jo off => encodeJump t (.jcc 0x0) off
  | .jno off => encodeJump t (.jcc 0x1) off
  | .jb off => encodeJump t (.jcc 0x2) off
  | .jnb off => encodeJump t (.jcc 0x3) off
  | .je off => encodeJump t (.jcc 0x4) off
  | .jne off => encodeJump t (.jcc 0x5) off
  | .jbe off => encodeJump t (.jcc 0x6) off
  | .jnbe off => encodeJump t (.jcc 0x7) off
  | .js off => encodeJump t (.jcc 0x8) off
  | .jns off => encodeJump t (.jcc 0x9) off
  | .jp off => encodeJump t (.jcc 0xA) off
  | .jnp off => encodeJump t (.jcc 0xB) off
  | .jl off => encodeJump t (.jcc 0xC) off
  | .jnl off => encodeJump t (.jcc 0xD) off
  | .jle off => encodeJump t (.jcc 0xE) off
  | .jnle off => encodeJump t (.jcc 0xF) off
  | .loopnz off => encodeJump t (.loop 0) off
  | .loopz off => encodeJump t (.loop 1) off
  | .loop off => encodeJump t (.loop 2) off
  | .jcxz off => encodeJump t (.loop 3) off

/-- The length of an instruction in bytes (R60): no table changes it. -/
def Instr.length : Instr → Nat
  | .movRm _ _ _ rm | .addRm _ _ _ rm | .subRm _ _ _ rm | .cmpRm _ _ _ rm => 2 + rm.bytes.length
  | .addImm _ _ rm imm | .subImm _ _ rm imm | .cmpImm _ _ rm imm => 2 + rm.bytes.length + imm.bytes.length
  | .movImm _ _ imm | .addAcc _ imm | .subAcc _ imm | .cmpAcc _ imm => 1 + imm.bytes.length
  | .jo _ | .jno _ | .jb _ | .jnb _ | .je _ | .jne _ | .jbe _ | .jnbe _ => 2
  | .js _ | .jns _ | .jp _ | .jnp _ | .jl _ | .jnl _ | .jle _ | .jnle _ => 2
  | .loopnz _ | .loopz _ | .loop _ | .jcxz _ => 2

/-- The longest instruction, in bytes (R60). -/
def maxLength : Nat := 6

/-! ## The opcode table's words -/

/-- The bytes of a table word: `n` bytes, the first one the least significant. -/
def bytesOfNat : Nat → Nat → List Byte
  | 0, _ => []
  | n + 1, w => BitVec.ofNat 8 w :: bytesOfNat n (w / 256)

/-- The bytes of an instruction whose table bits are `w`: `nbits` bits, and zeros above them up to the longest
instruction. -/
def tableBytes (nbits w : Nat) : List Byte := bytesOfNat (max maxLength ((nbits + 7) / 8)) (w % 2 ^ nbits)

/-- What the decoder reads from an instruction whose bits are `w`, numbered as spec/opcode_table.json numbers them, under the
default tables. -/
def decodeTableWord (nbits w : Nat) : Option Instr :=
  match decode defaultTables (tableBytes nbits w) with
  | .ok (i, _) => some i
  | .error _ => none

end Sys2Proof
end

