-- ==== Sys2Proof/Machine/Format.lean ====
section
/-! DEFINITION. The TextFormatter (48_text_format): a pure function of a decoded instruction, over any tables. -/

namespace Sys2Proof.Machine

/-- The character of a decimal digit. -/
def digitChar (n : Nat) : Char := Char.ofNat (48 + n)

/-- The decimal digits of `n` in front of `acc`, most significant first, at most `fuel` of them. -/
def decDigits : Nat → Nat → Text → Text
  | 0, _, acc => acc
  | fuel + 1, n, acc =>
    if n < 10 then digitChar n :: acc else decDigits fuel (n / 10) (digitChar (n % 10) :: acc)

/-- `Dec(n)` (R162): the shortest decimal string of `n`. -/
def dec (n : Nat) : Text := decDigits (n + 1) n []

/-- `SDec(v)` (R162): `-` and the digits for a negative value, the digits alone otherwise, never a `+`. -/
def sdec (v : Int) : Text := if 0 ≤ v then dec v.natAbs else '-' :: dec v.natAbs

/-- `MnemonicText` (R151). -/
def mnemonicText (t : Tables) : Mnemonic → Text
  | .mov => "mov".toList
  | .add => "add".toList
  | .sub => "sub".toList
  | .cmp => "cmp".toList
  | .conditionalJump code => ccText t code
  | .loopVariant code => loopText t code

/-- `WidthText` (R158): the size keyword. -/
def widthText : Width → Text
  | .byte => "byte".toList
  | .word => "word".toList

/-- A register operand (R152). -/
def registerText (t : Tables) : Width → BitVec 3 → Text
  | .byte, k => reg8Text t k
  | .word, k => reg16Text t k

/-- `MemText(MemoryDirect(a))` (R153): the bare unsigned decimal address in brackets. -/
def directText (a : Word) : Text := '[' :: (dec a.toNat ++ [']'])

/-- The displacement part of `MemText(MemoryIndexed(..))` (R154 to R156): nothing when absent, otherwise always a sign,
zero included. -/
def displacementText : Option Int → Text
  | none => []
  | some d => if 0 ≤ d then " + ".toList ++ dec d.natAbs else " - ".toList ++ dec d.natAbs

/-- `MemText(MemoryIndexed(base, d))` (R154). -/
def indexedText (t : Tables) (base : BitVec 3) (disp : Option Int) : Text :=
  '[' :: (eaText t base ++ displacementText disp ++ [']'])

/-- The size keyword and its space (R158): only when the operands are a memory operand and then an immediate, with the
immediate's declared width. -/
def sizeKeyword (i : Instruction) : Text :=
  match i.operands with
  | [.memoryDirect _, .immediate _ width] => widthText width ++ [' ']
  | [.memoryIndexed _ _, .immediate _ width] => widthText width ++ [' ']
  | _ => []

/-- `OperandText` (R152 to R158): an operand of the instruction `i`. -/
def operandText (t : Tables) (i : Instruction) : Operand → Text
  | .register width k => registerText t width k
  | .memoryDirect a => sizeKeyword i ++ directText a
  | .memoryIndexed base disp => sizeKeyword i ++ indexedText t base disp
  | .immediate v _ => sdec v

/-- The operands in list order, separated by a comma and a space (R150, R160). -/
def operandsText (t : Tables) (i : Instruction) : List Operand → Text
  | [] => []
  | [o] => operandText t i o
  | o :: os => operandText t i o ++ ", ".toList ++ operandsText t i os

/-- `Format` (R150): the line of an instruction, without its newline. An instruction with no operand, which never
arises, is its mnemonic alone (92_eei_decisions D13; log entry 16). -/
def format (t : Tables) (i : Instruction) : Text :=
  match i.operands with
  | [] => mnemonicText t i.mnemonic
  | o :: os => mnemonicText t i.mnemonic ++ [' '] ++ operandsText t i (o :: os)

/-- The output byte of a character (log entry 11). -/
def charByte (c : Char) : Byte := BitVec.ofNat 8 c.toNat

/-- The text output of emitted instructions: each line followed by NEWLINE (R161, 49_decode_loop R180). -/
def outputBytes (t : Tables) (out : List (Instruction × Text)) : List Byte :=
  out.flatMap fun e => e.2.map charByte ++ [t.newline]

end Sys2Proof.Machine
end

