-- ==== Sys2Proof/Machine/State.lean ====
section
/-! DEFINITION. The state of the decoder (10_state R11, R18), the stream it reads (R20, R24), the reasons a step can
stop, and the state right after reset (70_reset_and_hazards R210). Plain data throughout. -/

namespace Sys2Proof.Machine

/-- The states of the decode loop (10_state R16). -/
inductive Phase where
  | readOpcode
  | classify
  | resolveOperands
  | readImmediate
  | emit
  | done
  | failed
deriving DecidableEq, Repr

/-- The kinds of the fatal errors (60_exceptions R185). -/
inductive ErrorKind where
  | truncatedInstruction
  | unsupportedOpcode
deriving DecidableEq, Repr

/-- What was not recognised (10_state R17): the opcode byte, the sub-opcode, or, for a truncation, nothing. -/
inductive Cause where
  | none
  | opcode
  | aluSubop
deriving DecidableEq, Repr

/-- The diagnostic record (60_exceptions R189; log entry 14). -/
structure Diagnostic where
  kind : ErrorKind
  cause : Cause
  byte : Option Byte
  offset : Nat
  start : Nat
deriving DecidableEq, Repr

/-- The instruction latches `cur` (10_state R18), and the model's own latch `mn` for the mnemonic that Classify
(30_encoding R52) or the sub-opcode (41_add_sub_cmp R110) gives (log entry 5). `code` holds a loop's two-bit code in
its low bits. -/
structure Latches where
  op : Byte
  form : Form
  d : Bool
  w : Bool
  s : Bool
  oreg : BitVec 3
  code : BitVec 4
  modrm : Byte
  mod : BitVec 2
  reg : BitVec 3
  rm : BitVec 3
  rmop : Operand
  imm : Int
  mn : Mnemonic
deriving DecidableEq, Repr

/-- The state of the block. `stream` and `len` are STREAM and LEN, the run's input, and `tables` its
configuration: parameters that no step writes (R20, R41; log entries 2 and 22). The other fields are the state of
R11. -/
structure State where
  /-- STREAM: the bytes at offsets below `len`, as cells in canonical form (log entry 3). -/
  stream : List Host.Cell
  /-- LEN: the length of STREAM in bytes. -/
  len : Nat
  /-- The tables the run is configured with (00_scope R5, R20). -/
  tables : Tables
  /-- The cursor position, the block's program counter (R14; log entry 21). -/
  pos : Nat
  /-- The state of the decode loop (R16). -/
  phase : Phase
  /-- Everything emitted so far, in order (R19). -/
  out : List (Instruction × Text)
  /-- Why the run failed (R17). -/
  err : Option Diagnostic
  /-- The position of the opcode byte of the instruction being decoded (R11). -/
  start : Nat
  /-- The fields of the instruction being decoded (R18). -/
  cur : Latches
deriving DecidableEq, Repr

/-- Why the machine stops. -/
inductive Fault where
  /-- Raised by `step`, and by every meaning through `complete`, when `phase` is Done or Failed: the run is over and no
  step is defined (49_decode_loop R170, 93_implementation_defined U10). Safe: the model stops where the spec has no
  step (log entry 6). -/
  | runOver
  /-- Raised by a meaning, through `complete`, when it is asked to begin an instruction while `phase` is Classify,
  ResolveOperands, ReadImmediate or Emit, that is in the middle of another one: an instruction begins in ReadOpcode
  only (49_decode_loop R172, R179). `step` never raises it. Safe: the model stops (log entry 7). -/
  | midInstruction
deriving DecidableEq, Repr

/-- Why an instruction is refused. -/
inductive Refusal where
  /-- Raised by `exec` for an instruction that has no meaning yet. Every instruction has one, so nothing raises it.
  Safe: the model stops. -/
  | notModelled (mnemonic : String)
deriving DecidableEq, Repr

/-- The latches right after reset. The spec gives them no value ("unspecified: hold no value", R210): these are the
model's own (DESIGN CHOICE, log entries 4 and 5). -/
def Latches.reset : Latches where
  op := 0x00
  form := .addRm
  d := false
  w := false
  s := false
  oreg := 0
  code := 0
  modrm := 0x00
  mod := 0
  reg := 0
  rm := 0
  rmop := .register .byte 0
  imm := 0
  mn := .mov

/-- The machine right after reset (R210): cursor 0, ReadOpcode, nothing emitted, no error. `start` and the latches are
the model's (log entry 4); STREAM and LEN, which the spec leaves OPEN (00_scope R5), are the empty stream (log entry
2): `State.startRun` of Ops.lean is the reset that begins a run on a given stream. The tables are the defaults. -/
def State.reset : State where
  stream := []
  len := 0
  tables := defaultTables
  pos := 0
  phase := .readOpcode
  out := []
  err := none
  start := 0
  cur := Latches.reset

end Sys2Proof.Machine
end

