-- ==== Sys2Proof/Machine/Ops.lean ====
section
/-! DEFINITION. The named operations over the stream and the state: reading one byte, emitting, ending a run, failing
(the block's only exception entry), reset (the only way back), and completing a whole instruction. -/

namespace Sys2Proof.Machine

/-! ## The stream as memory (20_memory R30, R38) -/

/-- What an offset with no cell reads as (log entry 3). -/
def unlisted : Byte := 0x00

/-- The byte held at an offset. -/
def memRead : List Host.Cell → Nat → Byte
  | [], _ => unlisted
  | (x, v) :: cells, a => if a = x then v else memRead cells a

/-- The cell list with a byte at an offset that lies below all of `cells`: no cell for the value an unlisted offset
reads as. -/
def memCons (a : Nat) (b : Byte) (cells : List Host.Cell) : List Host.Cell :=
  if b = unlisted then cells else (a, b) :: cells

/-- The cell list with one byte written. Only the host's loading of a stream uses it: no step writes STREAM
(R36). -/
def memWrite : List Host.Cell → Nat → Byte → List Host.Cell
  | [], a, b => memCons a b []
  | (x, v) :: cells, a, b =>
    if a < x then memCons a b ((x, v) :: cells)
    else if a = x then memCons a b cells
    else (x, v) :: memWrite cells a b

/-- The canonical form: offsets strictly rising from `lo` on, and no cell that reads as an unlisted offset does. -/
def memWfFrom : Nat → List Host.Cell → Bool
  | _, [] => true
  | lo, (x, v) :: cells => decide (lo ≤ x) && v != unlisted && memWfFrom (x + 1) cells

/-- The canonical form of a cell list. -/
def Memory.wf (cells : List Host.Cell) : Bool := memWfFrom 0 cells

/-- The cell list with a run of bytes written from an offset on. -/
def memWriteBytes : List Host.Cell → Nat → List Byte → List Host.Cell
  | cells, _, [] => cells
  | cells, a, b :: bs => memWriteBytes (memWrite cells a b) (a + 1) bs

/-- STREAM[a], for an offset of the stream; there is no byte at or past LEN (R31, R38). -/
def State.byteAt? (s : State) (a : Nat) : Option Byte := if a < s.len then some (memRead s.stream a) else none

/-- The stream bytes from offset `a` on, at most `n` of them. -/
def State.bytesFrom (s : State) (a : Nat) : Nat → List Byte
  | 0 => []
  | n + 1 =>
    match s.byteAt? a with
    | none => []
    | some b => b :: s.bytesFrom (a + 1) n

/-! ## The cursor (20_memory R31) -/

/-- `NextByte()`: the byte at the cursor and the state with the cursor moved past it, or EndOfStream (`none`) with
nothing changed. -/
def nextByte (s : State) : Option (Byte × State) :=
  if s.pos < s.len then some (memRead s.stream s.pos, { s with pos := s.pos + 1 }) else none

/-! ## The ends of a run, and its beginning -/

/-- EndOfStreamAtBoundary (60_exceptions R186): the normal end. -/
def endRun (s : State) : State := { s with phase := .done }

/-- `raise` (60_exceptions R190), the entry of every fatal error: the record is written with `start`, the phase is
Failed, and nothing else changes. There is no return from it (R193). -/
def raise (kind : ErrorKind) (cause : Cause) (byte : Option Byte) (offset : Nat) (s : State) : State :=
  { s with err := some ⟨kind, cause, byte, offset, s.start⟩, phase := .failed }

/-- `raise TruncatedInstruction` (60_exceptions R185, R187): the offset is LEN, where a byte was needed and absent. -/
def raiseTruncated (s : State) : State := raise .truncatedInstruction .none none s.len s

/-- `raise UnsupportedOpcode(cause = opcode)` (60_exceptions R188): the opcode byte, at `start`. -/
def raiseOpcode (op : Byte) (s : State) : State := raise .unsupportedOpcode .opcode (some op) s.start s

/-- `raise UnsupportedOpcode(cause = alu_subop)` (41_add_sub_cmp R109): the addressing byte and its offset. -/
def raiseSubop (m : Byte) (moff : Nat) (s : State) : State := raise .unsupportedOpcode .aluSubop (some m) moff s

/-- The number of an end condition (60_exceptions R185): what the host can tell of a run that is over. -/
def endCode (s : State) : Option Nat :=
  match s.phase, s.err with
  | .done, _ => some 0
  | .failed, some e =>
    match e.kind, e.cause with
    | .truncatedInstruction, _ => some 1
    | .unsupportedOpcode, .aluSubop => some 3
    | .unsupportedOpcode, _ => some 2
  | _, _ => none

/-- A reset that starts a run on a stream (70_reset_and_hazards R210 to R212): nothing of the state before survives.
The tables are no state (10_state R20): they stay the machine's own.
The host's only move; no step makes it (log entry 17). -/
def State.startRun (bytes : List Byte) (before : State) : State :=
  { State.reset with stream := memWriteBytes [] 0 bytes, len := bytes.length, tables := before.tables }

/-! ## Emitting, and a whole instruction -/

/-- `Emit(i)` (00_scope R8, 49_decode_loop R176): append the instruction and its line; the decode loop goes back to
ReadOpcode. -/
def emit (i : Instruction) (s : State) : State :=
  { s with out := s.out ++ [(i, format s.tables i)], phase := .readOpcode }

/-- The decode of one whole instruction of `n` bytes from an instruction boundary (49_decode_loop R179, R180): with all
its bytes there, the cursor moves past them, `start` and the latches hold what they held on the way, and the
instruction is emitted; with the opcode byte there but not all of them, TruncatedInstruction, the bytes that are there
consumed (60_exceptions R187; the latches on this path: log entry 8); with no byte at all, the normal end (R186).
Stops when the run is over, or in the middle of an instruction. -/
def complete (n : Nat) (latch : Latches → Latches) (i : Instruction) (s : State) :
    Host.Outcome State Fault Refusal :=
  match s.phase with
  | .readOpcode =>
    if s.len ≤ s.pos then .next (endRun s)
    else if s.pos + n ≤ s.len then .next (emit i { s with pos := s.pos + n, start := s.pos, cur := latch s.cur })
    else .next (raiseTruncated { s with pos := s.len, start := s.pos })
  | .done | .failed => .fault .runOver
  | .classify | .resolveOperands | .readImmediate | .emit => .fault .midInstruction

end Sys2Proof.Machine
end

