-- ==== Sys2Proof/Machine/Operands.lean ====
section
/-! DEFINITION. The operand forms: what the fields of an encoded instruction stand for (30_encoding R65 to R83), the
latches they leave (10_state R18), and the OperandResolver and ImmediateReader on the cursor (R73, R78). -/

namespace Sys2Proof.Machine

/-! ## What the fields stand for -/

/-- `W(w)` (R54). -/
def widthOf (w : Bool) : Width := if w then .word else .byte

/-- The operand that `mod` and `rm` select (R67 to R72, R83). `w` matters for a register only. -/
def rmOperand (w : Bool) : Rm → Operand
  | .reg rm => .register (widthOf w) rm
  | .direct a => .memoryDirect a
  | .noDisp rm => .memoryIndexed rm none
  | .disp8 rm d => .memoryIndexed rm (some (signed8 d))
  | .disp16 rm d => .memoryIndexed rm (some (signed16 d))

/-- The value of the immediate bytes (R75 to R77): signed. -/
def immValue : Imm → Int
  | .imm8 b => signed8 b
  | .imm16 v => signed16 v

/-- The immediate operand: its declared width is the operand width (R78). -/
def immOperand (w : Bool) (value : Int) : Operand := .immediate value (widthOf w)

/-- The two operands of a register/memory form, destination first: `d = 1` makes the `reg` register the destination
(R53, R74). -/
def rmRegOperands (d : Bool) (regop rmop : Operand) : List Operand := if d then [regop, rmop] else [rmop, regop]

/-- The operands of a jump or loop instruction (R81, 42_jumps_loops R120): the raw signed offset. -/
def jumpOperands (off : Int) : List Operand := [.immediate off .byte]

/-- The `Mnemonic` of an operation. -/
def aluMnemonic : AluOp → Mnemonic
  | .add => .add
  | .sub => .sub
  | .cmp => .cmp

/-! ## The latches (10_state R18; log entry 15) -/

/-- ReadOpcode latches the opcode byte. -/
def latchOp (op : Byte) (l : Latches) : Latches := { l with op := op }

/-- Classify latches the form and the field bits the form has (49_decode_loop R173), and the mnemonic where the opcode
byte decides it (log entry 5). -/
def latchClass (c : OpClass) (l : Latches) : Latches :=
  match c with
  | .addRm d w => { l with form := .addRm, d := d, w := w, mn := .add }
  | .subRm d w => { l with form := .subRm, d := d, w := w, mn := .sub }
  | .cmpRm d w => { l with form := .cmpRm, d := d, w := w, mn := .cmp }
  | .movRm d w => { l with form := .movRm, d := d, w := w, mn := .mov }
  | .aluImmRm s w => { l with form := .aluImmRm, s := s, w := w }
  | .aluImmAcc op w => { l with form := .aluImmAcc, w := w, mn := aluMnemonic op }
  | .movImmReg w oreg => { l with form := .movImmReg, w := w, oreg := oreg, mn := .mov }
  | .jcc code => { l with form := .jcc, code := code, mn := .conditionalJump code }
  | .loop code => { l with form := .loop, code := code.setWidth 4, mn := .loopVariant code }

/-- What ReadOpcode and Classify latch, for an opcode byte of a form. -/
def latchHead (t : Tables) (c : OpClass) (l : Latches) : Latches := latchClass c (latchOp (opByte t c) l)

/-- ResolveOperands latches the addressing byte and its fields. -/
def latchModrm (m : Byte) (l : Latches) : Latches :=
  { l with modrm := m, mod := modField m, reg := regField m, rm := rmField m }

/-- ResolveOperands latches the operand that `mod` and `rm` select. -/
def latchRmop (o : Operand) (l : Latches) : Latches := { l with rmop := o }

/-- The sub-opcode test latches the operation of an immediate form (41_add_sub_cmp R110). -/
def latchMn (mn : Mnemonic) (l : Latches) : Latches := { l with mn := mn }

/-- ReadImmediate latches the immediate or the offset. -/
def latchImm (v : Int) (l : Latches) : Latches := { l with imm := v }

/-! ## Need, ResolveRM and ReadImm on the cursor

Each answers a value and the state with the cursor past the bytes read, or (`error`) the state in which the run has
failed. -/

/-- `Need()` (00_scope R8, 20_memory R32): NextByte, with EndOfStream read as a truncated instruction. -/
def need (s : State) : Except State (Byte × State) :=
  match nextByte s with
  | some p => .ok p
  | none => .error (raiseTruncated s)

/-- `Need16()` (20_memory R33): two reads, not atomic (R37). -/
def need16 (s : State) : Except State (Word × State) :=
  match need s with
  | .error e => .error e
  | .ok (lo, s) =>
    match need s with
    | .error e => .error e
    | .ok (hi, s) => .ok (word16 lo hi, s)

/-- `ResolveRM(mod, rm, w)` (R73). -/
def resolveRm (mod : BitVec 2) (rm : BitVec 3) (w : Bool) (s : State) : Except State (Operand × State) :=
  if mod = 0b11 then .ok (.register (widthOf w) rm, s)
  else if mod = 0b00 ∧ rm = 0b110 then (need16 s).map fun p => (.memoryDirect p.1, p.2)
  else if mod = 0b00 then .ok (.memoryIndexed rm none, s)
  else if mod = 0b01 then (need s).map fun p => (.memoryIndexed rm (some (signed8 p.1)), p.2)
  else (need16 s).map fun p => (.memoryIndexed rm (some (signed16 p.1)), p.2)

/-- `ReadImm(w, s)` (R78): the value; its declared width is `W(w)`. With `w = 0`, `s` is ignored (log entry 12). -/
def readImm (w sx : Bool) (s : State) : Except State (Int × State) :=
  if w = false then (need s).map fun p => (signed8 p.1, p.2)
  else if sx = true then (need s).map fun p => (signed8 p.1, p.2)
  else (need16 s).map fun p => (signed16 p.1, p.2)

end Sys2Proof.Machine
end

