-- ==== Sys2Proof/Machine/Forms.lean ====
section
/-! DEFINITION. The shared decode of each form (30_encoding R74, 41_add_sub_cmp R110 and R111, 40_mov R91,
42_jumps_loops R120), on the fields of an encoded instruction: one whole instruction completes. -/

namespace Sys2Proof.Machine

/-- `Emit(DecodeRmReg(mn, d, w))` (R74), for the form and field bits `c`. -/
def runRmReg (c : OpClass) (mn : Mnemonic) (d w : Bool) (reg : BitVec 3) (rm : Rm) (s : State) :
    Host.Outcome State Fault Refusal :=
  complete (2 + rm.bytes.length)
    (fun l => latchRmop (rmOperand w rm) (latchModrm (modrmByte rm.modBits reg rm.rmBits) (latchHead s.tables c l)))
    ⟨mn, rmRegOperands d (.register (widthOf w) reg) (rmOperand w rm)⟩ s

/-- `Emit(DecodeAluImm(s, w))` for a supported sub-opcode (R110): the `mod`/`rm` operand is the destination. -/
def runAluImm (op : AluOp) (sx w : Bool) (rm : Rm) (imm : Imm) (s : State) : Host.Outcome State Fault Refusal :=
  complete (2 + rm.bytes.length + imm.bytes.length)
    (fun l => latchImm (immValue imm) (latchRmop (rmOperand w rm) (latchMn (aluMnemonic op)
      (latchModrm (modrmByte rm.modBits (aluSubop s.tables op) rm.rmBits) (latchHead s.tables (.aluImmRm sx w) l)))))
    ⟨aluMnemonic op, [rmOperand w rm, immOperand w (immValue imm)]⟩ s

/-- A form whose opcode byte alone gives the destination, followed by an immediate: R91, and `Emit(DecodeAccImm(mn, w))`
of R111. -/
def runImm (c : OpClass) (mn : Mnemonic) (w : Bool) (dst : BitVec 3) (imm : Imm) (s : State) :
    Host.Outcome State Fault Refusal :=
  complete (1 + imm.bytes.length) (fun l => latchImm (immValue imm) (latchHead s.tables c l))
    ⟨mn, [.register (widthOf w) dst, immOperand w (immValue imm)]⟩ s

/-- `Emit(DecodeJump(mn))` (R120): the jump is never taken and no target is computed. -/
def runJump (c : OpClass) (mn : Mnemonic) (off : Byte) (s : State) : Host.Outcome State Fault Refusal :=
  complete 2 (fun l => latchImm (signed8 off) (latchHead s.tables c l)) ⟨mn, jumpOperands (signed8 off)⟩ s

/-- A conditional jump (R57). -/
def runJcc (code : BitVec 4) (off : Byte) (s : State) : Host.Outcome State Fault Refusal :=
  runJump (.jcc code) (.conditionalJump code) off s

/-- A loop-family instruction (R57). -/
def runLoop (code : BitVec 2) (off : Byte) (s : State) : Host.Outcome State Fault Refusal :=
  runJump (.loop code) (.loopVariant code) off s

end Sys2Proof.Machine
end

