-- ==== Sys2Proof/Machine/Arith.lean ====
section
/-! DEFINITION. The meanings of the nine ADD, SUB and CMP forms (41_add_sub_cmp). -/

namespace Sys2Proof.Machine

/-- ADD register with register/memory (R100). -/
def execAddRm (d w : Bool) (reg : BitVec 3) (rm : Rm) (s : State) : Host.Outcome State Fault Refusal :=
  runRmReg (.addRm d w) .add d w reg rm s

/-- SUB register with register/memory (R101). -/
def execSubRm (d w : Bool) (reg : BitVec 3) (rm : Rm) (s : State) : Host.Outcome State Fault Refusal :=
  runRmReg (.subRm d w) .sub d w reg rm s

/-- CMP register with register/memory (R102). -/
def execCmpRm (d w : Bool) (reg : BitVec 3) (rm : Rm) (s : State) : Host.Outcome State Fault Refusal :=
  runRmReg (.cmpRm d w) .cmp d w reg rm s

/-- ADD immediate to register/memory (R103). -/
def execAddImm (sx w : Bool) (rm : Rm) (imm : Imm) (s : State) : Host.Outcome State Fault Refusal :=
  runAluImm .add sx w rm imm s

/-- SUB immediate to register/memory (R104). -/
def execSubImm (sx w : Bool) (rm : Rm) (imm : Imm) (s : State) : Host.Outcome State Fault Refusal :=
  runAluImm .sub sx w rm imm s

/-- CMP immediate to register/memory (R105). -/
def execCmpImm (sx w : Bool) (rm : Rm) (imm : Imm) (s : State) : Host.Outcome State Fault Refusal :=
  runAluImm .cmp sx w rm imm s

/-- ADD immediate to accumulator (R106). -/
def execAddAcc (w : Bool) (imm : Imm) (s : State) : Host.Outcome State Fault Refusal :=
  runImm (.aluImmAcc .add w) .add w 0 imm s

/-- SUB immediate to accumulator (R107). -/
def execSubAcc (w : Bool) (imm : Imm) (s : State) : Host.Outcome State Fault Refusal :=
  runImm (.aluImmAcc .sub w) .sub w 0 imm s

/-- CMP immediate to accumulator (R108). -/
def execCmpAcc (w : Bool) (imm : Imm) (s : State) : Host.Outcome State Fault Refusal :=
  runImm (.aluImmAcc .cmp w) .cmp w 0 imm s

end Sys2Proof.Machine
end

