-- ==== Sys2Proof/Machine/Jumps.lean ====
section
/-! DEFINITION. The meanings of the sixteen conditional jumps and the loop family (42_jumps_loops): each is decoded and emitted, never taken. -/

namespace Sys2Proof.Machine

/-- `jo`: opcode 0x70 (R121). -/
def execJo (off : Byte) (s : State) : Host.Outcome State Fault Refusal := runJcc 0x0 off s

/-- `jno`: opcode 0x71 (R122). -/
def execJno (off : Byte) (s : State) : Host.Outcome State Fault Refusal := runJcc 0x1 off s

/-- `jb`: opcode 0x72 (R123). -/
def execJb (off : Byte) (s : State) : Host.Outcome State Fault Refusal := runJcc 0x2 off s

/-- `jnb`: opcode 0x73 (R124). -/
def execJnb (off : Byte) (s : State) : Host.Outcome State Fault Refusal := runJcc 0x3 off s

/-- `je`: opcode 0x74 (R125). -/
def execJe (off : Byte) (s : State) : Host.Outcome State Fault Refusal := runJcc 0x4 off s

/-- `jne`: opcode 0x75 (R126). -/
def execJne (off : Byte) (s : State) : Host.Outcome State Fault Refusal := runJcc 0x5 off s

/-- `jbe`: opcode 0x76 (R127). -/
def execJbe (off : Byte) (s : State) : Host.Outcome State Fault Refusal := runJcc 0x6 off s

/-- `jnbe`: opcode 0x77 (R128). -/
def execJnbe (off : Byte) (s : State) : Host.Outcome State Fault Refusal := runJcc 0x7 off s

/-- `js`: opcode 0x78 (R129). -/
def execJs (off : Byte) (s : State) : Host.Outcome State Fault Refusal := runJcc 0x8 off s

/-- `jns`: opcode 0x79 (R130). -/
def execJns (off : Byte) (s : State) : Host.Outcome State Fault Refusal := runJcc 0x9 off s

/-- `jp`: opcode 0x7A (R131). -/
def execJp (off : Byte) (s : State) : Host.Outcome State Fault Refusal := runJcc 0xA off s

/-- `jnp`: opcode 0x7B (R132). -/
def execJnp (off : Byte) (s : State) : Host.Outcome State Fault Refusal := runJcc 0xB off s

/-- `jl`: opcode 0x7C (R133). -/
def execJl (off : Byte) (s : State) : Host.Outcome State Fault Refusal := runJcc 0xC off s

/-- `jnl`: opcode 0x7D (R134). -/
def execJnl (off : Byte) (s : State) : Host.Outcome State Fault Refusal := runJcc 0xD off s

/-- `jle`: opcode 0x7E (R135). -/
def execJle (off : Byte) (s : State) : Host.Outcome State Fault Refusal := runJcc 0xE off s

/-- `jnle`: opcode 0x7F (R136). -/
def execJnle (off : Byte) (s : State) : Host.Outcome State Fault Refusal := runJcc 0xF off s

/-- `loopnz`: opcode 0xE0 (R137). -/
def execLoopnz (off : Byte) (s : State) : Host.Outcome State Fault Refusal := runLoop 0 off s

/-- `loopz`: opcode 0xE1 (R138). -/
def execLoopz (off : Byte) (s : State) : Host.Outcome State Fault Refusal := runLoop 1 off s

/-- `loop`: opcode 0xE2 (R139). -/
def execLoop (off : Byte) (s : State) : Host.Outcome State Fault Refusal := runLoop 2 off s

/-- `jcxz`: opcode 0xE3 (R140). -/
def execJcxz (off : Byte) (s : State) : Host.Outcome State Fault Refusal := runLoop 3 off s

end Sys2Proof.Machine
end

