-- ==== Sys2Proof/Machine/Mov.lean ====
section
/-! DEFINITION. The meanings of the two MOV forms (40_mov). -/

namespace Sys2Proof.Machine

/-- MOV register with register/memory (R90). -/
def execMovRm (d w : Bool) (reg : BitVec 3) (rm : Rm) (s : State) : Host.Outcome State Fault Refusal :=
  runRmReg (.movRm d w) .mov d w reg rm s

/-- MOV immediate to register (R91). -/
def execMovImm (w : Bool) (oreg : BitVec 3) (imm : Imm) (s : State) : Host.Outcome State Fault Refusal :=
  runImm (.movImmReg w oreg) .mov w oreg imm s

end Sys2Proof.Machine
end

