-- ==== Sys2Proof/Machine/Dispatch.lean ====
section
/-! DEFINITION. The dispatch: one arm per instruction, each one direct call of its meaning. -/

namespace Sys2Proof.Machine

/-- What the decoder does with an instruction that stands at the cursor (log entry 18). -/
def exec (i : Instr) (s : State) : Host.Outcome State Fault Refusal :=
  match i with
  | .movRm d w reg rm => Sys2Proof.Machine.execMovRm d w reg rm s
  | .movImm w oreg imm => Sys2Proof.Machine.execMovImm w oreg imm s
  | .addRm d w reg rm => Sys2Proof.Machine.execAddRm d w reg rm s
  | .subRm d w reg rm => Sys2Proof.Machine.execSubRm d w reg rm s
  | .cmpRm d w reg rm => Sys2Proof.Machine.execCmpRm d w reg rm s
  | .addImm sx w rm imm => Sys2Proof.Machine.execAddImm sx w rm imm s
  | .subImm sx w rm imm => Sys2Proof.Machine.execSubImm sx w rm imm s
  | .cmpImm sx w rm imm => Sys2Proof.Machine.execCmpImm sx w rm imm s
  | .addAcc w imm => Sys2Proof.Machine.execAddAcc w imm s
  | .subAcc w imm => Sys2Proof.Machine.execSubAcc w imm s
  | .cmpAcc w imm => Sys2Proof.Machine.execCmpAcc w imm s
  | .jo off => Sys2Proof.Machine.execJo off s
  | .jno off => Sys2Proof.Machine.execJno off s
  | .jb off => Sys2Proof.Machine.execJb off s
  | .jnb off => Sys2Proof.Machine.execJnb off s
  | .je off => Sys2Proof.Machine.execJe off s
  | .jne off => Sys2Proof.Machine.execJne off s
  | .jbe off => Sys2Proof.Machine.execJbe off s
  | .jnbe off => Sys2Proof.Machine.execJnbe off s
  | .js off => Sys2Proof.Machine.execJs off s
  | .jns off => Sys2Proof.Machine.execJns off s
  | .jp off => Sys2Proof.Machine.execJp off s
  | .jnp off => Sys2Proof.Machine.execJnp off s
  | .jl off => Sys2Proof.Machine.execJl off s
  | .jnl off => Sys2Proof.Machine.execJnl off s
  | .jle off => Sys2Proof.Machine.execJle off s
  | .jnle off => Sys2Proof.Machine.execJnle off s
  | .loopnz off => Sys2Proof.Machine.execLoopnz off s
  | .loopz off => Sys2Proof.Machine.execLoopz off s
  | .loop off => Sys2Proof.Machine.execLoop off s
  | .jcxz off => Sys2Proof.Machine.execJcxz off s

end Sys2Proof.Machine
end

