-- ==== Sys2Proof/Machine/Fetch.lean ====
section
/-! DEFINITION. Fetching the instruction at the cursor, and placing one there. -/

namespace Sys2Proof.Machine

/-- What stands at the cursor: the decoder's reading of the bytes there, at most as many as the longest instruction
has. -/
def fetch (s : State) : Parsed Instr := decode s.tables (s.bytesFrom s.pos maxLength)

/-- The state with bytes placed at the cursor, LEN grown to hold them, and the decode loop at an instruction boundary
(log entry 2). -/
def placeAtCursor (bytes : List Byte) (s : State) : State :=
  { s with
    stream := memWriteBytes s.stream s.pos bytes
    len := max s.len (s.pos + bytes.length)
    phase := .readOpcode }

end Sys2Proof.Machine
end

