-- ==== Sys2Proof/Machine/Phases.lean ====
section
/-! DEFINITION. The decode loop at the grain of its seven states (49_decode_loop R171 to R178), on the cursor and the
latches, and `finish`: the instruction in progress carried on to its end. -/

namespace Sys2Proof.Machine

/-- A phase that may fail: the state it leads to either way. -/
def settle : Except State State → State
  | .ok s => s
  | .error s => s

/-- `ReadOpcode` (R172). -/
def doReadOpcode (s : State) : State :=
  match nextByte s with
  | none => endRun s
  | some (b, s) => { s with start := s.pos - 1, cur := latchOp b s.cur, phase := .classify }

/-- `Classify` (R173): reads no byte. -/
def doClassify (s : State) : State :=
  match classify s.tables s.cur.op with
  | none => raiseOpcode s.cur.op s
  | some c => { s with cur := latchClass c s.cur, phase := .resolveOperands }

/-- The addressing byte read and latched. -/
def readModrm (s : State) : Except State State :=
  (need s).map fun p => { p.2 with cur := latchModrm p.1 p.2.cur }

/-- The operand that the latched addressing byte selects, latched; the loop goes to `next`. -/
def resolveLatched (next : Phase) (s : State) : Except State State :=
  (resolveRm s.cur.mod s.cur.rm s.cur.w s).map fun p => { p.2 with cur := latchRmop p.1 p.2.cur, phase := next }

/-- `ResolveOperands` (R174). In `100000sw` the sub-opcode is tested straight after the addressing byte, whose offset is
the cursor before it is read (41_add_sub_cmp R109, R110). -/
def resolveOperands (s : State) : Except State State :=
  match s.cur.form with
  | .addRm | .subRm | .cmpRm | .movRm =>
    match readModrm s with
    | .error e => .error e
    | .ok s' => resolveLatched .emit s'
  | .aluImmRm =>
    match readModrm s with
    | .error e => .error e
    | .ok s' =>
      match aluOp? s'.tables s'.cur.reg with
      | none => .error (raiseSubop s'.cur.modrm s.pos s')
      | some op => resolveLatched .readImmediate { s' with cur := latchMn (aluMnemonic op) s'.cur }
  | .aluImmAcc | .movImmReg | .jcc | .loop => .ok { s with phase := .readImmediate }

/-- `ReadImmediate` (R175). The forms without an immediate never enter it; for them it goes on to Emit. -/
def readImmediate (s : State) : Except State State :=
  match s.cur.form with
  | .aluImmRm => (readImm s.cur.w s.cur.s s).map fun p => { p.2 with cur := latchImm p.1 p.2.cur, phase := .emit }
  | .aluImmAcc | .movImmReg =>
    (readImm s.cur.w false s).map fun p => { p.2 with cur := latchImm p.1 p.2.cur, phase := .emit }
  | .jcc | .loop => (need s).map fun p => { p.2 with cur := latchImm (signed8 p.1) p.2.cur, phase := .emit }
  | .addRm | .subRm | .cmpRm | .movRm => .ok { s with phase := .emit }

/-- The `Instruction` that the latches describe (R176), by form. -/
def latchedInstruction (l : Latches) : Instruction :=
  match l.form with
  | .addRm | .subRm | .cmpRm | .movRm => ⟨l.mn, rmRegOperands l.d (.register (widthOf l.w) l.reg) l.rmop⟩
  | .aluImmRm => ⟨l.mn, [l.rmop, immOperand l.w l.imm]⟩
  | .aluImmAcc => ⟨l.mn, [.register (widthOf l.w) 0, immOperand l.w l.imm]⟩
  | .movImmReg => ⟨l.mn, [.register (widthOf l.w) l.oreg, immOperand l.w l.imm]⟩
  | .jcc | .loop => ⟨l.mn, jumpOperands l.imm⟩

/-- One transition of the table of R171. From Done and Failed there is none: the state stays. -/
def phaseStep (s : State) : State :=
  match s.phase with
  | .readOpcode => doReadOpcode s
  | .classify => doClassify s
  | .resolveOperands => settle (resolveOperands s)
  | .readImmediate => settle (readImmediate s)
  | .emit => emit (latchedInstruction s.cur) s
  | .done => s
  | .failed => s

/-- The states between which one instruction runs: an instruction boundary, and the two terminal states. -/
def Phase.atRest : Phase → Bool
  | .readOpcode | .done | .failed => true
  | .classify | .resolveOperands | .readImmediate | .emit => false

/-- At least one transition, and more until the loop is at rest, at most `fuel` in all. -/
def finishWithin : Nat → State → State
  | 0, s => s
  | fuel + 1, s => if (phaseStep s).phase.atRest then phaseStep s else finishWithin fuel (phaseStep s)

/-- The decode of the instruction in progress, or of the next one, carried to its end phase by phase: five transitions
are the longest way round. -/
def finish (s : State) : State := finishWithin 5 s

end Sys2Proof.Machine
end

