-- ==== Sys2Proof/Machine/Step.lean ====
section
/-! DEFINITION. One step of the machine: the decode of one instruction (49_decode_loop R179, R180; log entry 1). -/

namespace Sys2Proof.Machine

/-- One step. At an instruction boundary: the instruction that stands at the cursor, or, where there is none (the
stream ends, or its bytes are not supported), the end of the run as the phases give it. In the middle of an instruction
(which no run of steps from a boundary ever is): the rest of it, phase by phase. After the end of the run there is no
step (R170). -/
def step (s : State) : Host.Outcome State Fault Refusal :=
  match s.phase with
  | .readOpcode =>
    match fetch s with
    | .ok (i, _) => exec i s
    | .error _ => .next (finish s)
  | .classify | .resolveOperands | .readImmediate | .emit => .next (finish s)
  | .done | .failed => .fault .runOver

/-- The state with the instruction whose table bits are `w` placed where `step` reads its next one, the bytes above
`nbits` zero, up to the longest instruction. -/
def State.withFetchWord (s : State) (nbits w : Nat) : State := placeAtCursor (tableBytes nbits w) s

end Sys2Proof.Machine
end

