-- ==== Sys2Proof/Safety.lean ====
section
/-! DEFINITION. The terms that statements about the machine use: runs, terminal states, what a step from an
instruction boundary can do, the invariants of a run, and the tables of the spec that a step is compared with. -/

namespace Sys2Proof.Machine

/-! ## Runs -/

/-- Done and Failed (49_decode_loop R170). -/
def Phase.terminal : Phase → Bool
  | .done | .failed => true
  | .readOpcode | .classify | .resolveOperands | .readImmediate | .emit => false

/-- `n` transitions of the seven-state machine (49_decode_loop R171). -/
def phaseRun : Nat → State → State
  | 0, s => s
  | n + 1, s => phaseRun n (phaseStep s)

/-- What the host can see of a state (49_decode_loop R170): the output, the phase, the diagnostic, the cursor. -/
def State.result (s : State) : List (Instruction × Text) × Phase × Option Diagnostic × Nat :=
  (s.out, s.phase, s.err, s.pos)

/-! ## What one step does -/

/-- One step emits `i`, read from `n` bytes: the cursor moves past them, `start` is where they began, and nothing else
changes but the latches. -/
def DecodesTo (s : State) (n : Nat) (i : Instruction) : Prop :=
  ∃ l, step s = .next { s with
    pos := s.pos + n, start := s.pos, cur := l, out := s.out ++ [(i, format s.tables i)] }

/-- One step ends in Failed with the record of kind, cause, byte and offset, the cursor at `pos`: nothing is emitted
and nothing else changes but `start` and the latches (60_exceptions R190). -/
def FailsWith (s : State) (pos : Nat) (kind : ErrorKind) (cause : Cause) (byte : Option Byte) (offset : Nat) : Prop :=
  ∃ l, step s = .next { s with
    pos := pos, start := s.pos, cur := l, phase := .failed, err := some ⟨kind, cause, byte, offset, s.pos⟩ }

/-- One step ends in Failed with TruncatedInstruction, every byte of the stream consumed (60_exceptions R187). -/
def Truncates (s : State) : Prop := FailsWith s s.len .truncatedInstruction .none none s.len

/-! ## The spec's tables -/

/-- The operand of an addressing byte `m` with the two bytes after it (30_encoding R83, row by row). -/
def operandTable (m : Byte) (w : Bool) (b0 b1 : Byte) : Operand :=
  if modField m = 0b11 then .register (if w then .word else .byte) (rmField m)
  else if modField m = 0b00 ∧ rmField m ≠ 0b110 then .memoryIndexed (rmField m) none
  else if modField m = 0b00 then .memoryDirect (BitVec.ofNat 16 (b0.toNat + 256 * b1.toNat))
  else if modField m = 0b01 then .memoryIndexed (rmField m) (some b0.toInt)
  else .memoryIndexed (rmField m) (some (BitVec.ofNat 16 (b0.toNat + 256 * b1.toNat)).toInt)

/-- The immediate operand of `w` and `s` with the two bytes that begin it (30_encoding R55, row by row). -/
def immediateTable (w sx : Bool) (b0 b1 : Byte) : Operand :=
  match sx, w with
  | false, false => .immediate b0.toInt .byte
  | false, true => .immediate (BitVec.ofNat 16 (b0.toNat + 256 * b1.toNat)).toInt .word
  | true, false => .immediate b0.toInt .byte
  | true, true => .immediate b0.toInt .word

/-- The first bytes that the opcode map supports (30_encoding R61, row by row; the last row is LOOP_OPCODE). -/
def supportedOpcodes (t : Tables) : List Nat :=
  List.range' 0x00 6 ++ List.range' 0x28 6 ++ List.range' 0x38 6 ++ List.range' 0x70 16 ++ List.range' 0x80 4 ++
    List.range' 0x88 4 ++ List.range' 0xB0 16 ++ [t.loopOpcode.loopnz.toNat, t.loopOpcode.loopz.toNat, t.loopOpcode.loop.toNat,
      t.loopOpcode.jcxz.toNat]

/-- The sub-opcodes that have an operation (41_add_sub_cmp R110): the values of ALU_SUBOP. -/
def supportedSubops (t : Tables) : List (BitVec 3) := [t.aluSubop.add, t.aluSubop.sub, t.aluSubop.cmp]

/-- The text of an operand, a size keyword apart (48_text_format R152 to R157, row by row). -/
def plainText (t : Tables) : Operand → Text
  | .register .byte k => reg8Text t k
  | .register .word k => reg16Text t k
  | .memoryDirect a => "[".toList ++ dec a.toNat ++ "]".toList
  | .memoryIndexed base none => "[".toList ++ eaText t base ++ "]".toList
  | .memoryIndexed base (some d) =>
    if 0 ≤ d then "[".toList ++ eaText t base ++ " + ".toList ++ dec d.natAbs ++ "]".toList
    else "[".toList ++ eaText t base ++ " - ".toList ++ dec d.natAbs ++ "]".toList
  | .immediate v _ => sdec v

/-! ## What each form does with the bytes at the cursor -/

/-- A register/memory form: opcode bytes `base` to `base + 3`, printed as `name` (40_mov R90, 41_add_sub_cmp R100 to
R102). -/
def RmFormFromBytes (base : Byte) (mn : Mnemonic) (name : Text) : Prop :=
  ∀ s op, s.phase = .readOpcode → s.byteAt? s.pos = some op → op &&& 0xFC = base →
    (s.len = s.pos + 1 → Truncates s) ∧
    ∀ m, s.byteAt? (s.pos + 1) = some m →
      (s.len < s.pos + 2 + dispLen (modField m) (rmField m) → Truncates s) ∧
      (s.pos + 2 + dispLen (modField m) (rmField m) ≤ s.len →
        let r : Operand := .register (if op.getLsbD 0 then .word else .byte) (regField m)
        let o := operandTable m (op.getLsbD 0) (memRead s.stream (s.pos + 2)) (memRead s.stream (s.pos + 3))
        let dst := if op.getLsbD 1 then r else o
        let src := if op.getLsbD 1 then o else r
        DecodesTo s (2 + dispLen (modField m) (rmField m)) ⟨mn, [dst, src]⟩ ∧
        format s.tables ⟨mn, [dst, src]⟩ =
          name ++ " ".toList ++ plainText s.tables dst ++ ", ".toList ++ plainText s.tables src)

/-- An immediate-to-register/memory form: opcode bytes 0x80 to 0x83 with the sub-opcode of `aluOp` (41_add_sub_cmp
R103 to R105), printed as `name`. -/
def AluImmFormFromBytes (aluOp : AluOp) (mn : Mnemonic) (name : Text) : Prop :=
  ∀ s op m, s.phase = .readOpcode → s.byteAt? s.pos = some op → op &&& 0xFC = 0x80 →
    s.byteAt? (s.pos + 1) = some m → regField m = aluSubop s.tables aluOp → unambiguous s.tables = true →
    let a := s.pos + 2 + dispLen (modField m) (rmField m)
    let n := immLen (op.getLsbD 0) (op.getLsbD 1)
    (s.len < a + n → Truncates s) ∧
    (a + n ≤ s.len →
      let dst := operandTable m (op.getLsbD 0) (memRead s.stream (s.pos + 2)) (memRead s.stream (s.pos + 3))
      let src := immediateTable (op.getLsbD 0) (op.getLsbD 1) (memRead s.stream a) (memRead s.stream (a + 1))
      let keyword := if modField m = 0b11 then [] else if op.getLsbD 0 then "word ".toList else "byte ".toList
      DecodesTo s (2 + dispLen (modField m) (rmField m) + n) ⟨mn, [dst, src]⟩ ∧
      format s.tables ⟨mn, [dst, src]⟩ =
        name ++ " ".toList ++ keyword ++ plainText s.tables dst ++ ", ".toList ++ plainText s.tables src)

/-- A form of an opcode byte `op` that is followed by an immediate only, with the width bit `w`: the destination is the
register `k` of that width, and it is printed as `name` (40_mov R91, 41_add_sub_cmp R106 to R108). -/
def ImmFormFromBytes (op : Byte) (w : Bool) (mn : Mnemonic) (name : Text) (k : BitVec 3) : Prop :=
  ∀ s, s.phase = .readOpcode → s.byteAt? s.pos = some op →
    (s.len < s.pos + 1 + immLen w false → Truncates s) ∧
    (s.pos + 1 + immLen w false ≤ s.len →
      let dst : Operand := .register (if w then .word else .byte) k
      let src := immediateTable w false (memRead s.stream (s.pos + 1)) (memRead s.stream (s.pos + 2))
      DecodesTo s (1 + immLen w false) ⟨mn, [dst, src]⟩ ∧
      format s.tables ⟨mn, [dst, src]⟩ =
        name ++ " ".toList ++ plainText s.tables dst ++ ", ".toList ++ plainText s.tables src)

/-- From the opcode byte of a jump or loop instruction on (42_jumps_loops R120): mnemonic `mn`, printed as the table
has it, which is `name` in the default tables. -/
def JumpRow (s : State) (mn : Mnemonic) (name : Text) : Prop :=
  (s.len = s.pos + 1 → Truncates s) ∧
  ∀ off, s.byteAt? (s.pos + 1) = some off →
    let i : Instruction := ⟨mn, [.immediate off.toInt .byte]⟩
    DecodesTo s 2 i ∧ format s.tables i = mnemonicText s.tables mn ++ ' ' :: sdec off.toInt ∧
    (s.tables = defaultTables → format s.tables i = name ++ ' ' :: sdec off.toInt)

/-- A conditional jump: opcode byte `op`. -/
def JumpFromBytes (op : Byte) (mn : Mnemonic) (name : Text) : Prop :=
  ∀ s, s.phase = .readOpcode → s.byteAt? s.pos = some op → JumpRow s mn name

/-- A loop-family instruction: the opcode byte of `code` in LOOP_OPCODE, which is `op` in the default tables. -/
def LoopFromBytes (op : Byte) (code : BitVec 2) (name : Text) : Prop :=
  (∀ s, s.phase = .readOpcode → s.byteAt? s.pos = some (loopOpcode s.tables code) → unambiguous s.tables = true →
    JumpRow s (.loopVariant code) name) ∧
  loopOpcode defaultTables code = op

/-! ## Invariants -/

/-- STREAM as the model holds it: cells in canonical form, all of them below LEN. -/
def StreamOk (s : State) : Prop := Memory.wf s.stream = true ∧ ∀ c ∈ s.stream, c.1 < s.len

/-- What a diagnostic record says of the state it is in (60_exceptions R185, R187, R188, R195). -/
def DiagnosticOk (s : State) (e : Diagnostic) : Prop :=
  e.start = s.start ∧
  match e.kind, e.cause with
  | .truncatedInstruction, .none =>
    e.byte = none ∧ e.offset = s.len ∧ s.pos = s.len ∧ s.start < s.pos ∧ s.pos ≤ s.start + 5
  | .unsupportedOpcode, .opcode =>
    e.byte.isSome = true ∧ e.byte = s.byteAt? s.start ∧ e.offset = s.start ∧ s.pos = s.start + 1
  | .unsupportedOpcode, .aluSubop =>
    e.byte.isSome = true ∧ e.byte = s.byteAt? (s.start + 1) ∧ e.offset = s.start + 1 ∧ s.pos = s.start + 2
  | _, _ => False

/-- The cursor and the diagnostic, phase by phase (10_state R14, R17; 49_decode_loop R177, R178). -/
def PhaseOk (s : State) : Prop :=
  match s.phase with
  | .readOpcode => s.err = none
  | .classify => s.err = none ∧ s.pos = s.start + 1 ∧ s.byteAt? s.start = some s.cur.op
  | .resolveOperands => s.err = none ∧ s.pos = s.start + 1
  | .readImmediate => s.err = none ∧ s.start < s.pos ∧ s.pos ≤ s.start + 4
  | .emit => s.err = none ∧ s.start < s.pos ∧ s.pos ≤ s.start + 6
  | .done => s.err = none ∧ s.pos = s.len
  | .failed => ∃ e, s.err = some e ∧ DiagnosticOk s e

/-- The invariant of the input side: the stream, the cursor, the phase and the diagnostic fit together. -/
def CursorInv (s : State) : Prop := StreamOk s ∧ s.pos ≤ s.len ∧ PhaseOk s

/-- The values of a width (30_encoding R75, R76). -/
def inRange : Width → Int → Bool
  | .byte, v => decide (-128 ≤ v) && decide (v ≤ 127)
  | .word, v => decide (-32768 ≤ v) && decide (v ≤ 32767)

/-- A memory operand that an addressing byte can give: a displacement in range, absent only where `mod = 00` and
`rm ≠ 110` (00_scope R9, 30_encoding R70 to R72). -/
def memoryOk : Operand → Bool
  | .memoryDirect _ => true
  | .memoryIndexed base none => base != 0b110#3
  | .memoryIndexed _ (some d) => inRange .word d
  | .register _ _ | .immediate _ _ => false

/-- MOV, ADD, SUB or CMP. -/
def isAlu : Mnemonic → Bool
  | .mov | .add | .sub | .cmp => true
  | .conditionalJump _ | .loopVariant _ => false

/-- The instructions that the decoder can build (00_scope R9, 40_mov R90 to R92, 41_add_sub_cmp, 42_jumps_loops):
registers of one width, at most one memory operand, an immediate only as the source and of the operands' width, never
MOV of an immediate to memory; for a jump or loop, one byte offset. -/
def shapeOk (i : Instruction) : Bool :=
  match i.mnemonic, i.operands with
  | .conditionalJump _, [.immediate v .byte] => inRange .byte v
  | .loopVariant _, [.immediate v .byte] => inRange .byte v
  | mn, [.register w _, .register w' _] => isAlu mn && w == w'
  | mn, [.register w _, .immediate v w'] => isAlu mn && w == w' && inRange w v
  | mn, [.register _ _, m] => isAlu mn && memoryOk m
  | mn, [m, .register _ _] => isAlu mn && memoryOk m
  | mn, [m, .immediate v w] => isAlu mn && mn != .mov && memoryOk m && inRange w v
  | _, _ => false

/-- The latches fit the form they were set for: what Classify leaves. -/
def formOk (l : Latches) : Bool :=
  match l.form with
  | .movRm | .movImmReg => l.mn == .mov
  | .addRm => l.mn == .add
  | .subRm => l.mn == .sub
  | .cmpRm => l.mn == .cmp
  | .aluImmRm => true
  | .aluImmAcc => l.mn == .add || l.mn == .sub || l.mn == .cmp
  | .jcc => match l.mn with
    | .conditionalJump _ => true
    | _ => false
  | .loop => match l.mn with
    | .loopVariant _ => true
    | _ => false

/-- The operand latch fits: a register of the operand width, or a memory operand. -/
def rmopOk (l : Latches) : Bool :=
  match l.rmop with
  | .register w _ => w == widthOf l.w
  | .memoryDirect a => memoryOk (.memoryDirect a)
  | .memoryIndexed base d => memoryOk (.memoryIndexed base d)
  | .immediate _ _ => false

/-- The latches phase by phase: every latch that a later phase reads has been set to a value that fits. -/
def LatchesOk (s : State) : Prop :=
  match s.phase with
  | .readOpcode | .classify | .done | .failed => True
  | .resolveOperands => formOk s.cur = true
  | .readImmediate => formOk s.cur = true ∧
    (s.cur.form = .aluImmRm → rmopOk s.cur = true ∧ (s.cur.mn = .add ∨ s.cur.mn = .sub ∨ s.cur.mn = .cmp)) ∧
    s.cur.form ≠ .movRm ∧ s.cur.form ≠ .addRm ∧ s.cur.form ≠ .subRm ∧ s.cur.form ≠ .cmpRm
  | .emit => shapeOk (latchedInstruction s.cur) = true

/-- The invariant of the output side: every emitted instruction is one the decoder can build, and its line is its
rendering; and the latches lead to such an instruction. -/
def OutputInv (s : State) : Prop :=
  (∀ e ∈ s.out, shapeOk e.1 = true ∧ e.2 = format s.tables e.1) ∧ LatchesOk s

/-! ## Text -/

/-- The characters a line can hold (48_text_format R163). -/
def lineChar (c : Char) : Bool :=
  ('a' ≤ c && c ≤ 'z') || ('0' ≤ c && c ≤ '9') || c == ' ' || c == ',' || c == '[' || c == ']' || c == '+' || c == '-'

/-- The number that a string of decimal digits stands for, `acc` being the number read so far. -/
def readDec (acc : Nat) : Text → Nat
  | [] => acc
  | c :: cs => readDec (10 * acc + (c.toNat - 48)) cs

/-- The integer that a text without a plus sign stands for. -/
def readSDec : Text → Int
  | '-' :: cs => -(readDec 0 cs : Int)
  | cs => readDec 0 cs

end Sys2Proof.Machine
end

