-- ==== Sys2Proof/Certificates/Slice0/Obligations.lean ====
section
/-! DEFINITION. The statements for the provers, from the numbered rules of spec/. -/

open Sys2Proof Sys2Proof.Machine

/-! ## Decoding and encoding -/

/-- R179: when the bytes at the cursor decode to an instruction, a step at an instruction boundary is `exec` of it, and
nothing is added around it. -/
def Obligations.StepRunsTheDecodedInstruction : Prop :=
  ∀ s i rest, s.phase = .readOpcode → decode s.tables (s.bytesFrom s.pos maxLength) = .ok (i, rest) → step s = exec i s

/-- The source's examples E1 to E3 and words of the other families, written out from R59, decode under the default tables to
the instructions they stand for. -/
def Obligations.SampleWordsDecode : Prop :=
  decode defaultTables [0xB8, 0x05, 0x00] = .ok (.movImm true 0 (.imm16 5), []) ∧
  decode defaultTables [0x89, 0xD8] = .ok (.movRm false true 3 (.reg 0), []) ∧
  decode defaultTables [0x83, 0x3E, 0x00, 0x00, 0x05] = .ok (.cmpImm true true (.direct 0) (.imm8 5), []) ∧
  decode defaultTables [0x29, 0x57, 0xFE] = .ok (.subRm false true 2 (.disp8 7 0xFE), []) ∧
  decode defaultTables [0x81, 0x82, 0xFE, 0xFF, 0x00, 0x80] = .ok (.addImm false true (.disp16 2 0xFFFE) (.imm16 0x8000), []) ∧
  decode defaultTables [0x2D, 0x34, 0x12] = .ok (.subAcc true (.imm16 0x1234), []) ∧
  decode defaultTables [0x75, 0xF8] = .ok (.jne 0xF8, []) ∧
  decode defaultTables [0xE3, 0xFC] = .ok (.jcxz 0xFC, [])

/-- R59: under any tables that give no byte two readings (R52), decoding the bytes of any well-formed instruction,
whatever bytes follow, gives that instruction, field by field, and the bytes that follow. -/
def Obligations.DecodeOfEncodeIsTheInstruction : Prop :=
  ∀ (t : Tables) (i : Instr) (rest : List Byte), unambiguous t = true → i.wellFormed = true →
    decode t (encode t i ++ rest) = .ok (i, rest)

/-- R59, R64: what the decoder reads is a well-formed instruction and exactly its own bytes: no two byte sequences
decode to one encoded instruction, and no bit is dropped. -/
def Obligations.EncodeOfDecodeIsTheBytes : Prop :=
  ∀ (t : Tables) (bytes rest : List Byte) (i : Instr), decode t bytes = .ok (i, rest) →
    i.wellFormed = true ∧ bytes = encode t i ++ rest

/-- R60: the length of an instruction is decided by its first byte and, where there is one, its ModRM byte, format by
format, and is 2 to 6 bytes. -/
def Obligations.LengthIsDecidedByTheFirstBytes : Prop :=
  ∀ (t : Tables) (bytes rest : List Byte) (i : Instr), decode t bytes = .ok (i, rest) →
    ∃ op m tail, bytes = op :: m :: tail ∧ 2 ≤ i.length ∧ i.length ≤ 6 ∧ bytes.length = i.length + rest.length ∧
      i.length =
        if op &&& 0xFC = 0x00 ∨ op &&& 0xFC = 0x28 ∨ op &&& 0xFC = 0x38 ∨ op &&& 0xFC = 0x88
        then 2 + dispLen (modField m) (rmField m)
        else if op &&& 0xFC = 0x80
        then 2 + dispLen (modField m) (rmField m) + immLen (op.getLsbD 0) (op.getLsbD 1)
        else if op &&& 0xFE = 0x04 ∨ op &&& 0xFE = 0x2C ∨ op &&& 0xFE = 0x3C then 1 + immLen (op.getLsbD 0) false
        else if op &&& 0xF0 = 0xB0 then 1 + immLen (op.getLsbD 3) false
        else 2

/-- R52: the nine patterns (R51) select, under the default tables, disjoint sets of byte values, 62 in all: no first byte
matches two. -/
def Obligations.OpcodePatternsAreDisjoint : Prop :=
  (∀ op : Byte,
    (([op &&& 0xFC = 0x00, op &&& 0xFC = 0x28, op &&& 0xFC = 0x38, op &&& 0xFC = 0x88, op &&& 0xFC = 0x80,
      op &&& 0xFE = 0x04 ∨ op &&& 0xFE = 0x2C ∨ op &&& 0xFE = 0x3C, op &&& 0xF0 = 0xB0, op &&& 0xF0 = 0x70,
      op &&& 0xFC = 0xE0] : List Bool).count true) = if classify defaultTables op = none then 0 else 1) ∧
  ((List.range 256).filter fun n => (classify defaultTables (BitVec.ofNat 8 n)).isSome).length = 62

/-- R61: the opcode map. Under any tables a first byte is rejected as an unsupported opcode exactly when the map has no
entry for it, whatever bytes follow; and the loop rows of the default map are 0xE0 to 0xE3. -/
def Obligations.OpcodeMapDecidesTheFirstByte : Prop :=
  supportedOpcodes defaultTables = List.range' 0x00 6 ++ List.range' 0x28 6 ++ List.range' 0x38 6 ++
    List.range' 0x70 16 ++ List.range' 0x80 4 ++ List.range' 0x88 4 ++ List.range' 0xB0 16 ++ List.range' 0xE0 4 ∧
  (supportedOpcodes defaultTables).length = 62 ∧
  ∀ (t : Tables) (op : Byte) (tail : List Byte),
    decode t (op :: tail) = .error (.unsupportedOpcode op) ↔ op.toNat ∉ supportedOpcodes t

/-! ## What a step does with the bytes at the cursor -/

/-- R90: MOV register/memory with register, from the opcode byte on, and the line of what is emitted. -/
def Obligations.MovRmFromBytes : Prop := RmFormFromBytes 0x88 .mov "mov".toList

/-- R91: MOV immediate to register, for every width and register, and the line of what is emitted. -/
def Obligations.MovImmFromBytes : Prop :=
  ∀ (w : Bool) (r : BitVec 3),
    ImmFormFromBytes (BitVec.ofNat 8 (0xB0 + 8 * w.toNat + r.toNat)) w .mov "mov".toList r

/-- R100 to R102: ADD, SUB and CMP register with register/memory, and the line of what is emitted. -/
def Obligations.AluRmFromBytes : Prop :=
  RmFormFromBytes 0x00 .add "add".toList ∧ RmFormFromBytes 0x28 .sub "sub".toList ∧
  RmFormFromBytes 0x38 .cmp "cmp".toList

/-- R103 to R105: ADD, SUB and CMP immediate to register/memory, by sub-opcode (000, 101 and 111 by default: log entry
10; the tables unambiguous: log entry 22), with the immediate of R55; the line of what is emitted, with the size keyword
where the destination is memory; and the truncation before the addressing byte. -/
def Obligations.AluImmFromBytes : Prop :=
  AluImmFormFromBytes .add .add "add".toList ∧ AluImmFormFromBytes .sub .sub "sub".toList ∧
  AluImmFormFromBytes .cmp .cmp "cmp".toList ∧
  (aluSubop defaultTables .add = 0b000 ∧ aluSubop defaultTables .sub = 0b101 ∧ aluSubop defaultTables .cmp = 0b111) ∧
  ∀ s op, s.phase = .readOpcode → s.byteAt? s.pos = some op → op &&& 0xFC = 0x80 → s.len = s.pos + 1 → Truncates s

/-- R106 to R108, R111: ADD, SUB and CMP immediate to accumulator, and the line of what is emitted. -/
def Obligations.AluAccFromBytes : Prop :=
  ImmFormFromBytes 0x04 false .add "add".toList 0 ∧ ImmFormFromBytes 0x05 true .add "add".toList 0 ∧
  ImmFormFromBytes 0x2C false .sub "sub".toList 0 ∧ ImmFormFromBytes 0x2D true .sub "sub".toList 0 ∧
  ImmFormFromBytes 0x3C false .cmp "cmp".toList 0 ∧ ImmFormFromBytes 0x3D true .cmp "cmp".toList 0

/-- R120, R121 to R128: the conditional jumps of codes 0 to 7: decoded, printed, never taken. -/
def Obligations.JumpsLowFromBytes : Prop :=
  JumpFromBytes 0x70 (.conditionalJump 0) "jo".toList ∧ JumpFromBytes 0x71 (.conditionalJump 1) "jno".toList ∧
  JumpFromBytes 0x72 (.conditionalJump 2) "jb".toList ∧ JumpFromBytes 0x73 (.conditionalJump 3) "jnb".toList ∧
  JumpFromBytes 0x74 (.conditionalJump 4) "je".toList ∧ JumpFromBytes 0x75 (.conditionalJump 5) "jne".toList ∧
  JumpFromBytes 0x76 (.conditionalJump 6) "jbe".toList ∧ JumpFromBytes 0x77 (.conditionalJump 7) "jnbe".toList

/-- R129 to R136: the conditional jumps of codes 8 to 15. -/
def Obligations.JumpsHighFromBytes : Prop :=
  JumpFromBytes 0x78 (.conditionalJump 8) "js".toList ∧ JumpFromBytes 0x79 (.conditionalJump 9) "jns".toList ∧
  JumpFromBytes 0x7A (.conditionalJump 10) "jp".toList ∧ JumpFromBytes 0x7B (.conditionalJump 11) "jnp".toList ∧
  JumpFromBytes 0x7C (.conditionalJump 12) "jl".toList ∧ JumpFromBytes 0x7D (.conditionalJump 13) "jnl".toList ∧
  JumpFromBytes 0x7E (.conditionalJump 14) "jle".toList ∧ JumpFromBytes 0x7F (.conditionalJump 15) "jnle".toList

/-- R137 to R140: the loop family, by its opcode bytes (0xE0 to 0xE3 by default: log entry 10; the tables unambiguous:
log entry 22). -/
def Obligations.LoopsFromBytes : Prop :=
  LoopFromBytes 0xE0 0 "loopnz".toList ∧ LoopFromBytes 0xE1 1 "loopz".toList ∧
  LoopFromBytes 0xE2 2 "loop".toList ∧ LoopFromBytes 0xE3 3 "jcxz".toList

/-! ## The ends of a run -/

/-- R62: an opcode byte outside the map fails the run at once: `pos` is one past it, nothing is emitted, and the bytes
after it do not matter. -/
def Obligations.UnsupportedOpcodeFailsTheRun : Prop :=
  ∀ s op, s.phase = .readOpcode → s.byteAt? s.pos = some op → op.toNat ∉ supportedOpcodes s.tables →
    FailsWith s (s.pos + 1) .unsupportedOpcode .opcode (some op) s.pos

/-- R109: an unsupported sub-opcode fails the run straight after the addressing byte: `pos` is one past it, whether or
not more bytes follow; and with no addressing byte the failure is a truncation. -/
def Obligations.UnsupportedSubopFailsTheRun : Prop :=
  (∀ r, r ∉ supportedSubops defaultTables ↔ r ∈ [1#3, 2#3, 3#3, 4#3, 6#3]) ∧
  ∀ s op, s.phase = .readOpcode → s.byteAt? s.pos = some op → 0x80 ≤ op.toNat → op.toNat ≤ 0x83 →
    (s.byteAt? (s.pos + 1) = none → Truncates s) ∧
    ∀ m, s.byteAt? (s.pos + 1) = some m → regField m ∉ supportedSubops s.tables →
      FailsWith s (s.pos + 2) .unsupportedOpcode .aluSubop (some m) (s.pos + 1)

/-- R186: exhaustion where the next opcode byte would begin is the normal end: the phase is Done and nothing else
changes; and a step ends in Done in no other way. -/
def Obligations.EndOfStreamAtBoundaryEndsTheRun : Prop :=
  (∀ s, s.phase = .readOpcode → s.byteAt? s.pos = none → step s = .next { s with phase := .done }) ∧
  ∀ s t, step s = .next t → t.phase = .done →
    s.phase = .readOpcode ∧ s.byteAt? s.pos = none ∧ t.err = s.err ∧ t.out = s.out

/-- R191, R195: a step that fails from an instruction boundary emits nothing and leaves a record that names the boundary
it began at, with the cursor 1 to 5 bytes after it. -/
def Obligations.FailureIsPrecise : Prop :=
  ∀ s t, s.phase = .readOpcode → step s = .next t → t.phase = .failed →
    t.out = s.out ∧ s.pos + 1 ≤ t.pos ∧ t.pos ≤ s.pos + 5 ∧ ∃ e, t.err = some e ∧ e.start = s.pos

/-- R170: no step is defined from Done and Failed, for `step` and for every instruction; and from every other state
there is one: nothing else stops the machine. -/
def Obligations.OnlyTheEndOfARunStopsIt : Prop :=
  (∀ s, s.phase.terminal = true → step s = .fault .runOver ∧ ∀ i, exec i s = .fault .runOver) ∧
  ∀ s, s.phase.terminal = false → ∃ t, step s = .next t

/-- R182: a step from an instruction boundary decodes one instruction and moves the cursor 2 to 6 bytes on, or ends the
run. -/
def Obligations.StepAdvancesOrEnds : Prop :=
  ∀ s t, s.phase = .readOpcode → step s = .next t →
    (t.phase = .readOpcode ∧ s.pos + 2 ≤ t.pos ∧ t.pos ≤ s.pos + 6 ∧ t.pos ≤ s.len ∧
      t.out.length = s.out.length + 1 ∧ t.err = s.err) ∨
    (t.phase.terminal = true ∧ t.out = s.out ∧ s.pos ≤ t.pos)

/-- R182: every run ends. From any instruction boundary inside the stream, at most half as many steps as bytes are left,
and one more, reach Done or Failed, with at most half as many emissions as bytes are left. -/
def Obligations.EveryRunEnds : Prop :=
  ∀ s, s.phase = .readOpcode → s.pos ≤ s.len →
    ∃ k t, k ≤ (s.len - s.pos) / 2 + 1 ∧ Host.Core.run core k s = .next t ∧ t.phase.terminal = true ∧
      t.out.length ≤ s.out.length + (s.len - s.pos) / 2

/-! ## The completion of each instruction -/

/-- The register/memory forms MOV, ADD, SUB, CMP complete at an instruction boundary whenever their bytes are in the
stream (R74): cursor, `start`, the latches and the output; nothing else changes. Of the latches, `mn` and the
untouched ones are the model's choice (log entries 5 and 15), and so is that no byte of the stream is compared with the
instruction (log entry 18), so that fields which stand for no bytes are covered as well. -/
def Obligations.RmFormsComplete : Prop :=
  ∀ (d w : Bool) (reg : BitVec 3) (rm : Rm) (s : State),
    s.phase = .readOpcode → s.pos + 2 + rm.bytes.length ≤ s.len →
    ∀ p ∈ [(Instr.movRm d w reg rm, Mnemonic.mov, Form.movRm, 0x88), (.addRm d w reg rm, .add, .addRm, 0x00),
        (.subRm d w reg rm, .sub, .subRm, 0x28), (.cmpRm d w reg rm, .cmp, .cmpRm, 0x38)],
      exec p.1 s = .next { s with
        pos := s.pos + 2 + rm.bytes.length
        start := s.pos
        cur := { s.cur with
          op := BitVec.ofNat 8 (p.2.2.2 + 2 * d.toNat + w.toNat), form := p.2.2.1, d := d, w := w, mn := p.2.1
          modrm := modrmByte rm.modBits reg rm.rmBits, mod := rm.modBits, reg := reg, rm := rm.rmBits
          rmop := rmOperand w rm }
        out := s.out ++ [
          let i : Instruction := ⟨p.2.1, if d then [.register (widthOf w) reg, rmOperand w rm]
            else [rmOperand w rm, .register (widthOf w) reg]⟩
          (i, format s.tables i)] }

/-- The immediate-to-register/memory forms ADD, SUB, CMP complete at an instruction boundary whenever their bytes are
in the stream (R110). Of the latches, `mn` and the untouched ones are the model's choice (log entries 5 and 15), and so
is that no byte of the stream is compared with the instruction (log entry 18), so that immediates of the wrong size for
`w` and `s` are covered as well. -/
def Obligations.AluImmFormsComplete : Prop :=
  ∀ (sx w : Bool) (rm : Rm) (imm : Imm) (s : State),
    s.phase = .readOpcode → s.pos + 2 + rm.bytes.length + imm.bytes.length ≤ s.len →
    ∀ p ∈ [(Instr.addImm sx w rm imm, Mnemonic.add, AluOp.add), (.subImm sx w rm imm, .sub, .sub),
        (.cmpImm sx w rm imm, .cmp, .cmp)],
      exec p.1 s = .next { s with
        pos := s.pos + 2 + rm.bytes.length + imm.bytes.length
        start := s.pos
        cur := { s.cur with
          op := BitVec.ofNat 8 (0x80 + 2 * sx.toNat + w.toNat), form := .aluImmRm, s := sx, w := w, mn := p.2.1
          modrm := modrmByte rm.modBits (aluSubop s.tables p.2.2) rm.rmBits
          mod := rm.modBits, reg := aluSubop s.tables p.2.2, rm := rm.rmBits
          rmop := rmOperand w rm, imm := immValue imm }
        out := s.out ++ [
          let i : Instruction := ⟨p.2.1, [rmOperand w rm, .immediate (immValue imm) (widthOf w)]⟩
          (i, format s.tables i)] }

/-- MOV immediate to register and the immediate-to-accumulator forms ADD, SUB, CMP complete at an instruction boundary
whenever their bytes are in the stream (R91, R111). Of the latches, `mn` and the untouched ones are the model's choice
(log entries 5 and 15), and so is that no byte of the stream is compared with the instruction (log entry 18), so that a
one-byte immediate with `w = 1` is covered as well. -/
def Obligations.ImmFormsComplete : Prop :=
  ∀ (w : Bool) (oreg : BitVec 3) (imm : Imm) (s : State),
    s.phase = .readOpcode → s.pos + 1 + imm.bytes.length ≤ s.len →
    (exec (.movImm w oreg imm) s = .next { s with
        pos := s.pos + 1 + imm.bytes.length
        start := s.pos
        cur := { s.cur with
          op := BitVec.ofNat 8 (0xB0 + 8 * w.toNat + oreg.toNat), form := .movImmReg, w := w, oreg := oreg
          mn := .mov, imm := immValue imm }
        out := s.out ++ [
          let i : Instruction := ⟨.mov, [.register (widthOf w) oreg, .immediate (immValue imm) (widthOf w)]⟩
          (i, format s.tables i)] }) ∧
    ∀ p ∈ [(Instr.addAcc w imm, Mnemonic.add, 0x04), (.subAcc w imm, .sub, 0x2C), (.cmpAcc w imm, .cmp, 0x3C)],
      exec p.1 s = .next { s with
        pos := s.pos + 1 + imm.bytes.length
        start := s.pos
        cur := { s.cur with
          op := BitVec.ofNat 8 (p.2.2 + w.toNat), form := .aluImmAcc, w := w, mn := p.2.1, imm := immValue imm }
        out := s.out ++ [
          let i : Instruction := ⟨p.2.1, [.register (widthOf w) 0, .immediate (immValue imm) (widthOf w)]⟩
          (i, format s.tables i)] }

/-- The sixteen conditional jumps complete at an instruction boundary whenever both their bytes are in the stream: the
cursor moves two bytes on, whatever the offset (R120). Of the latches, `mn` and the untouched ones are the model's choice
(log entries 5 and 15), and so is that no byte of the stream is compared with the instruction (log entry 18). -/
def Obligations.ConditionalJumpsComplete : Prop :=
  ∀ (off : Byte) (s : State), s.phase = .readOpcode → s.pos + 2 ≤ s.len →
    ∀ p ∈ [(Instr.jo off, 0x0#4), (.jno off, 0x1#4), (.jb off, 0x2#4), (.jnb off, 0x3#4), (.je off, 0x4#4),
        (.jne off, 0x5#4), (.jbe off, 0x6#4), (.jnbe off, 0x7#4), (.js off, 0x8#4), (.jns off, 0x9#4),
        (.jp off, 0xA#4), (.jnp off, 0xB#4), (.jl off, 0xC#4), (.jnl off, 0xD#4), (.jle off, 0xE#4),
        (.jnle off, 0xF#4)],
      exec p.1 s = .next { s with
        pos := s.pos + 2
        start := s.pos
        cur := { s.cur with
          op := BitVec.ofNat 8 (0x70 + p.2.toNat), form := .jcc, code := p.2, mn := .conditionalJump p.2
          imm := off.toInt }
        out := s.out ++ [
          let i : Instruction := ⟨.conditionalJump p.2, [.immediate off.toInt .byte]⟩
          (i, format s.tables i)] }

/-- The loop family completes at an instruction boundary whenever both its bytes are in the stream (R120). Of the
latches, `mn` and the untouched ones are the model's choice (log entries 5 and 15), and so is that no byte of the stream
is compared with the instruction (log entry 18). -/
def Obligations.LoopFamilyCompletes : Prop :=
  ∀ (off : Byte) (s : State), s.phase = .readOpcode → s.pos + 2 ≤ s.len →
    ∀ p ∈ [(Instr.loopnz off, 0#2), (.loopz off, 1#2), (.loop off, 2#2), (.jcxz off, 3#2)],
      exec p.1 s = .next { s with
        pos := s.pos + 2
        start := s.pos
        cur := { s.cur with
          op := loopOpcode s.tables p.2, form := .loop, code := p.2.setWidth 4, mn := .loopVariant p.2
          imm := off.toInt }
        out := s.out ++ [
          let i : Instruction := ⟨.loopVariant p.2, [.immediate off.toInt .byte]⟩
          (i, format s.tables i)] }

/-- R187: every instruction of the block fails as truncated when its opcode byte is in the stream and its last byte is
not. -/
def Obligations.EveryInstructionCanTruncate : Prop :=
  ∀ (i : Instr) (s : State), s.phase = .readOpcode → s.pos < s.len → s.len < s.pos + i.length →
    ∃ l, exec i s = .next { s with
      pos := s.len, start := s.pos, cur := l, phase := .failed
      err := some ⟨.truncatedInstruction, .none, none, s.len, s.pos⟩ }

/-- The frame of every instruction: STREAM, LEN and the tables are unchanged, every offset reads as before, what was
emitted stays, at most one entry is added, and the diagnostic changes only on a failure (R19, R36, R190). -/
def Obligations.ExecFrame : Prop :=
  ∀ (i : Instr) (s t : State), exec i s = .next t →
    t.stream = s.stream ∧ t.len = s.len ∧ t.tables = s.tables ∧ (∀ a, t.byteAt? a = s.byteAt? a) ∧
    (t.out = s.out ∨ ∃ e, t.out = s.out ++ [e]) ∧ (t.phase ≠ .failed → t.err = s.err)

/-! ## The seven-state machine -/

/-- R171: the transition table, row by row; where a byte is missing, every byte is consumed (R187). Three things in it
are the model's choice: that Done and Failed, from which R171 has no step, keep their state under `phaseStep` (log
entry 6); that the row without an addressing byte latches nothing, the register operand being built from the latches in
Emit (log entry 15); and that the sub-opcodes are those of an ALU_SUBOP in the state (log entry 22). -/
def Obligations.TransitionTable : Prop :=
  ∀ s : State,
    (s.phase = .readOpcode → s.byteAt? s.pos = none → phaseStep s = { s with phase := .done }) ∧
    (s.phase = .readOpcode → ∀ b, s.byteAt? s.pos = some b →
      phaseStep s = { s with pos := s.pos + 1, start := s.pos, cur := { s.cur with op := b }, phase := .classify }) ∧
    (s.phase = .classify → s.cur.op.toNat ∈ supportedOpcodes s.tables → (phaseStep s).phase = .resolveOperands ∧
      (phaseStep s).pos = s.pos ∧ (phaseStep s).cur.op = s.cur.op) ∧
    (s.phase = .classify → s.cur.op.toNat ∉ supportedOpcodes s.tables → phaseStep s = { s with
      phase := .failed, err := some ⟨.unsupportedOpcode, .opcode, some s.cur.op, s.start, s.start⟩ }) ∧
    (s.phase = .resolveOperands → s.cur.form ∈ [.addRm, .subRm, .cmpRm, .movRm] →
      ∀ m, s.byteAt? s.pos = some m → s.pos + 1 + dispLen (modField m) (rmField m) ≤ s.len →
      (phaseStep s).phase = .emit ∧ (phaseStep s).pos = s.pos + 1 + dispLen (modField m) (rmField m) ∧
      (phaseStep s).cur.rmop =
        operandTable m s.cur.w (memRead s.stream (s.pos + 1)) (memRead s.stream (s.pos + 2))) ∧
    (s.phase = .resolveOperands → s.cur.form = .aluImmRm →
      ∀ m, s.byteAt? s.pos = some m → regField m ∈ supportedSubops s.tables →
      s.pos + 1 + dispLen (modField m) (rmField m) ≤ s.len →
      (phaseStep s).phase = .readImmediate ∧ (phaseStep s).pos = s.pos + 1 + dispLen (modField m) (rmField m) ∧
      (phaseStep s).cur.rmop =
        operandTable m s.cur.w (memRead s.stream (s.pos + 1)) (memRead s.stream (s.pos + 2))) ∧
    (s.phase = .resolveOperands → s.cur.form ∈ [.aluImmAcc, .movImmReg, .jcc, .loop] →
      phaseStep s = { s with phase := .readImmediate }) ∧
    (s.phase = .resolveOperands → s.cur.form ∈ [.addRm, .subRm, .cmpRm, .movRm, .aluImmRm] →
      (s.byteAt? s.pos = none ∨ ∃ m, s.byteAt? s.pos = some m ∧
        (s.cur.form = .aluImmRm → regField m ∈ supportedSubops s.tables) ∧
        s.len < s.pos + 1 + dispLen (modField m) (rmField m)) →
      (phaseStep s).phase = .failed ∧ (phaseStep s).out = s.out ∧ (s.pos ≤ s.len → (phaseStep s).pos = s.len) ∧
      (phaseStep s).err = some ⟨.truncatedInstruction, .none, none, s.len, s.start⟩) ∧
    (s.phase = .resolveOperands → s.cur.form = .aluImmRm →
      ∀ m, s.byteAt? s.pos = some m → regField m ∉ supportedSubops s.tables →
      (phaseStep s).phase = .failed ∧ (phaseStep s).out = s.out ∧ (phaseStep s).pos = s.pos + 1 ∧
      (phaseStep s).err = some ⟨.unsupportedOpcode, .aluSubop, some m, s.pos, s.start⟩) ∧
    (s.phase = .readImmediate → s.cur.form ∈ [.aluImmRm, .aluImmAcc, .movImmReg, .jcc, .loop] →
      ∃ n, n = (if s.cur.form ∈ [.jcc, .loop] then 1 else immLen s.cur.w (s.cur.form == .aluImmRm && s.cur.s)) ∧
      (s.pos + n ≤ s.len → (phaseStep s).phase = .emit ∧ (phaseStep s).pos = s.pos + n ∧
        (n = 1 → (phaseStep s).cur.imm = (memRead s.stream s.pos).toInt) ∧
        (n = 2 → (phaseStep s).cur.imm =
          (memRead s.stream (s.pos + 1) ++ memRead s.stream s.pos : Word).toInt)) ∧
      (s.len < s.pos + n → (phaseStep s).phase = .failed ∧ (phaseStep s).out = s.out ∧
        (s.pos ≤ s.len → (phaseStep s).pos = s.len) ∧
        (phaseStep s).err = some ⟨.truncatedInstruction, .none, none, s.len, s.start⟩)) ∧
    (s.phase = .emit → phaseStep s = { s with
      phase := .readOpcode
      out := s.out ++ [(latchedInstruction s.cur, format s.tables (latchedInstruction s.cur))] }) ∧
    (s.phase.terminal = true → phaseStep s = s)

/-- R173: Classify, opcode pattern by opcode pattern (R51): on a match the form and its field bits are latched and the
loop goes to ResolveOperands, no byte being read; on no match the unsupported opcode is raised. What Classify leaves in
the model's own latch `mn` (log entry 5) is not stated here. That the latches a pattern lacks keep their old values is
the model's choice (log entry 15), and so is the premise on the tables (log entry 22). -/
def Obligations.ClassifyLatchesTheFields : Prop :=
  ∀ s : State, s.phase = .classify →
    let op := s.cur.op
    let goesOn (l : Latches) : Prop := ∃ mn, phaseStep s = { s with cur := { l with mn := mn }, phase := .resolveOperands }
    (op &&& 0xFC = 0x00 → goesOn { s.cur with form := .addRm, d := op.getLsbD 1, w := op.getLsbD 0 }) ∧
    (op &&& 0xFC = 0x28 → goesOn { s.cur with form := .subRm, d := op.getLsbD 1, w := op.getLsbD 0 }) ∧
    (op &&& 0xFC = 0x38 → goesOn { s.cur with form := .cmpRm, d := op.getLsbD 1, w := op.getLsbD 0 }) ∧
    (op &&& 0xFC = 0x88 → goesOn { s.cur with form := .movRm, d := op.getLsbD 1, w := op.getLsbD 0 }) ∧
    (op &&& 0xFC = 0x80 → goesOn { s.cur with form := .aluImmRm, s := op.getLsbD 1, w := op.getLsbD 0 }) ∧
    (op &&& 0xFE = 0x04 ∨ op &&& 0xFE = 0x2C ∨ op &&& 0xFE = 0x3C →
      goesOn { s.cur with form := .aluImmAcc, w := op.getLsbD 0 }) ∧
    (op &&& 0xF0 = 0xB0 → goesOn { s.cur with form := .movImmReg, w := op.getLsbD 3, oreg := op.extractLsb' 0 3 }) ∧
    (op &&& 0xF0 = 0x70 → goesOn { s.cur with form := .jcc, code := op.extractLsb' 0 4 }) ∧
    (∀ code, op = loopOpcode s.tables code → unambiguous s.tables = true →
      goesOn { s.cur with form := .loop, code := code.setWidth 4 }) ∧
    (op.toNat ∉ supportedOpcodes s.tables → phaseStep s = { s with
      phase := .failed, err := some ⟨.unsupportedOpcode, .opcode, some op, s.start, s.start⟩ })

/-- R181, R179, one step: from every state that is not terminal, a step of the machine and the seven-state machine
carried to its next instruction boundary or terminal state give the same state, latches included. That a step from the middle of an instruction is the rest of it, and what the latches then hold, are the model's choice
(log entries 1, 5 and 15): R181 speaks of a step from a boundary and of output, terminal state, diagnostic and cursor. -/
def Obligations.StepAgreesWithThePhases : Prop :=
  ∀ s : State, s.phase.terminal = false →
    ∃ n, 1 ≤ n ∧ n ≤ 5 ∧ step s = .next (phaseRun n s) ∧ (phaseRun n s).phase.atRest = true ∧
      ∀ m, 1 ≤ m → m < n → (phaseRun m s).phase.atRest = false

/-- R181: the two grains agree. From any state, the seven-state machine run to a terminal state and the steps of the
machine run to a terminal state end in the same state: same output, terminal state, diagnostic and cursor. From
the middle of an instruction, where R180 and R181 say nothing, the step is the model's choice (log entry 1). -/
def Obligations.TheTwoGrainsAgree : Prop :=
  ∀ s t : State, t.phase.terminal = true →
    ((∃ k, Host.Core.run core k s = .next t) ↔ ∃ n, phaseRun n s = t)

/-! ## The cursor, the resolver and the immediate reader -/

/-- R31: NextByte gives the byte at the cursor and moves it by one, or reports the end and changes nothing. -/
def Obligations.NextByteReadsAndAdvances : Prop :=
  ∀ s : State,
    (∀ b, s.byteAt? s.pos = some b → nextByte s = some (b, { s with pos := s.pos + 1 })) ∧
    (s.byteAt? s.pos = none → nextByte s = none) ∧ (s.pos = s.len → s.byteAt? s.pos = none)

/-- R33: a 16-bit field is read low byte first. R37, R187: in two reads; when the second byte is missing the first is
consumed all the same (R37 is an inference that the spec marks as its own). -/
def Obligations.Need16IsLittleEndian : Prop :=
  ∀ s : State,
    (s.pos + 2 ≤ s.len → ∃ v : Word, need16 s = .ok (v, { s with pos := s.pos + 2 }) ∧
      v.toNat = (memRead s.stream s.pos).toNat + 256 * (memRead s.stream (s.pos + 1)).toNat) ∧
    (s.pos + 1 = s.len → need16 s = .error { s with
      pos := s.len, phase := .failed, err := some ⟨.truncatedInstruction, .none, none, s.len, s.start⟩ })

/-- R83: the operand resolver gives, for every `mod` and `rm`, the operand of the table and consumes the bytes of the
table; with too few bytes left it fails, all of them consumed. -/
def Obligations.ResolverFollowsTheModeTable : Prop :=
  ∀ (m : Byte) (w : Bool) (s : State), s.pos ≤ s.len →
    (s.pos + dispLen (modField m) (rmField m) ≤ s.len →
      resolveRm (modField m) (rmField m) w s = .ok
        (operandTable m w (memRead s.stream s.pos) (memRead s.stream (s.pos + 1)),
          { s with pos := s.pos + dispLen (modField m) (rmField m) })) ∧
    (s.len < s.pos + dispLen (modField m) (rmField m) →
      resolveRm (modField m) (rmField m) w s = .error { s with
        pos := s.len, phase := .failed, err := some ⟨.truncatedInstruction, .none, none, s.len, s.start⟩ })

/-- R55, R75 to R78: the immediate reader gives the signed value of the table for every `w` and `s`, and consumes one or
two bytes. -/
def Obligations.ImmediateReaderFollowsTheTable : Prop :=
  ∀ (w sx : Bool) (s : State), s.pos ≤ s.len →
    (s.pos + immLen w sx ≤ s.len → ∃ v, readImm w sx s = .ok (v, { s with pos := s.pos + immLen w sx }) ∧
      .immediate v (widthOf w) = immediateTable w sx (memRead s.stream s.pos) (memRead s.stream (s.pos + 1))) ∧
    (s.len < s.pos + immLen w sx → readImm w sx s = .error { s with
      pos := s.len, phase := .failed, err := some ⟨.truncatedInstruction, .none, none, s.len, s.start⟩ })

/-- R80: the two's complement readings agree with each other under sign extension, and lie in the ranges of R7. -/
def Obligations.SignedReadings : Prop :=
  ∀ (b : Byte) (v : Word),
    signed8 b = b.toInt ∧ signed16 v = v.toInt ∧ signed16 (b.signExtend 16) = signed8 b ∧
    -128 ≤ signed8 b ∧ signed8 b ≤ 127 ∧ -32768 ≤ signed16 v ∧ signed16 v ≤ 32767

/-! ## Reset and invariants -/

/-- The reset values that R210 gives: cursor 0, phase ReadOpcode, no output, no diagnostic. STREAM and LEN, which the
spec leaves OPEN, are the empty stream in the model's `State.reset` (the model's choice, log entry 2), and the tables
are the defaults (log entries 9, 10 and 22). -/
def Obligations.ResetValues : Prop :=
  State.reset.pos = 0 ∧ State.reset.phase = .readOpcode ∧ State.reset.out = [] ∧ State.reset.err = none ∧
  State.reset.len = 0 ∧ State.reset.stream = [] ∧ State.reset.tables = defaultTables

/-- R211: a reset discards everything and starts a new run on the given stream: nothing of the state before survives,
and the bytes of the stream are exactly the given ones. The tables, which are no state (R20; log entry 22), are still
the machine's own. -/
def Obligations.ResetStartsANewRun : Prop :=
  ∀ (bytes : List Byte) (s : State),
    (State.startRun bytes s).result = ([], .readOpcode, none, 0) ∧ (State.startRun bytes s).len = bytes.length ∧
    (∀ a, (State.startRun bytes s).byteAt? a = bytes[a]?) ∧
    (State.startRun bytes s).tables = s.tables ∧
    ∀ s', s'.tables = s.tables → State.startRun bytes s = State.startRun bytes s'

/-- Every step keeps the invariant of the input side: the stream in canonical form below LEN, the cursor at most LEN,
no diagnostic outside Failed, `pos = LEN` in Done, and in Failed a record that fits the stream and the cursor (R14,
R17, R177, R185, R187, R188, R195). -/
def Obligations.StepKeepsTheCursorInvariant : Prop :=
  ∀ s t : State, CursorInv s → step s = .next t → CursorInv t

/-- Every step keeps the invariant of the output side: every entry is an instruction the decoder can build (R9, R72,
R75, R76, R92), with its rendering (R176). -/
def Obligations.StepKeepsTheOutputInvariant : Prop :=
  ∀ s t : State, OutputInv s → step s = .next t → OutputInv t

/-- Both invariants hold at the start of every run, and at reset. -/
def Obligations.InvariantsHoldAtTheStart : Prop :=
  (CursorInv State.reset ∧ OutputInv State.reset) ∧
  ∀ (bytes : List Byte) (s : State), CursorInv (State.startRun bytes s) ∧ OutputInv (State.startRun bytes s)

/-- R20, R36, R41: no step writes STREAM, LEN or the tables: the byte at an offset is one value for the whole run. -/
def Obligations.StreamNeverChanges : Prop :=
  ∀ s t : State, step s = .next t →
    t.stream = s.stream ∧ t.len = s.len ∧ t.tables = s.tables ∧ ∀ a, t.byteAt? a = s.byteAt? a

/-- R19: the output only grows, by appending, at most one entry a step, with its line. -/
def Obligations.OutputOnlyGrows : Prop :=
  ∀ s t : State, step s = .next t → t.out = s.out ∨ ∃ i, t.out = s.out ++ [(i, format s.tables i)]

/-- The reset values of `start` and the latches, which the spec leaves unspecified (R210; log entry 4), and what an
earlier instruction left in them (R64), do not matter: from an instruction boundary a step gives the same result
whatever they hold. -/
def Obligations.LatchesDoNotMatterAtABoundary : Prop :=
  ∀ (s t : State) (start : Nat) (cur : Latches), s.phase = .readOpcode → step s = .next t →
    ∃ t', step { s with start := start, cur := cur } = .next t' ∧ t'.result = t.result

/-- R64: an instruction decodes from its own bytes alone: wherever it stands in whatever stream, and whatever came
before, the same instruction is emitted and the cursor moves by the same length. -/
def Obligations.DecodesFromItsOwnBytesAlone : Prop :=
  ∀ (i : Instr) (s s' : State), unambiguous s.tables = true → s'.tables = s.tables → i.wellFormed = true →
    s.phase = .readOpcode → s'.phase = .readOpcode →
    (∀ k, k < i.length → s.byteAt? (s.pos + k) = (encode s.tables i)[k]? ∧
      s'.byteAt? (s'.pos + k) = (encode s.tables i)[k]?) →
    ∃ t t' e, step s = .next t ∧ step s' = .next t' ∧ t.out = s.out ++ [e] ∧ t'.out = s'.out ++ [e] ∧
      t.pos = s.pos + i.length ∧ t'.pos = s'.pos + i.length

/-! ## The text -/

/-- R162: Dec gives decimal digits only, with no leading zero, that read back as the number; SDec puts `-` before the
digits of a negative value and never a `+`. -/
def Obligations.DecimalRenderingReadsBack : Prop :=
  dec 0 = ['0'] ∧
  (∀ n : Nat, readDec 0 (dec n) = n ∧ dec n ≠ [] ∧ (dec n).all Char.isDigit = true ∧
    (0 < n → (dec n).head? ≠ some '0')) ∧
  ∀ v : Int, readSDec (sdec v) = v ∧ (0 ≤ v → sdec v = dec v.natAbs) ∧ (v < 0 → sdec v = '-' :: dec v.natAbs)

/-- R155: the sign of a displacement is always printed, for an 8-bit and a 16-bit displacement, with the absolute value
on unbounded integers. -/
def Obligations.DisplacementsPrintTheirSign : Prop :=
  (∀ b : Byte, displacementText (some (signed8 b)) =
    if b.toNat < 0x80 then " + ".toList ++ dec b.toNat else " - ".toList ++ dec (256 - b.toNat)) ∧
  ∀ v : Word, displacementText (some (signed16 v)) =
    if v.toNat < 0x8000 then " + ".toList ++ dec v.toNat else " - ".toList ++ dec (65536 - v.toNat)

/-- R150 to R159: the line of every shape the decoder builds, over any tables: mnemonic, one space, operands
joined by comma and space; the size keyword only for an immediate to memory. -/
def Obligations.LineOfEachShape : Prop :=
  ∀ (t : Tables) (mn : Mnemonic) (w w' : Width) (r r' base : BitVec 3) (a : Word) (d : Option Int) (v : Int),
    (format t ⟨mn, [.register w r, .register w' r']⟩ =
      mnemonicText t mn ++ " ".toList ++ registerText t w r ++ ", ".toList ++ registerText t w' r') ∧
    (format t ⟨mn, [.register w r, .immediate v w']⟩ =
      mnemonicText t mn ++ " ".toList ++ registerText t w r ++ ", ".toList ++ sdec v) ∧
    (format t ⟨mn, [.register w r, .memoryDirect a]⟩ =
      mnemonicText t mn ++ " ".toList ++ registerText t w r ++ ", [".toList ++ dec a.toNat ++ "]".toList) ∧
    (format t ⟨mn, [.memoryDirect a, .register w r]⟩ =
      mnemonicText t mn ++ " [".toList ++ dec a.toNat ++ "], ".toList ++ registerText t w r) ∧
    (format t ⟨mn, [.register w r, .memoryIndexed base d]⟩ = mnemonicText t mn ++ " ".toList ++ registerText t w r ++
      ", [".toList ++ eaText t base ++ displacementText d ++ "]".toList) ∧
    (format t ⟨mn, [.memoryIndexed base d, .register w r]⟩ = mnemonicText t mn ++ " [".toList ++ eaText t base ++
      displacementText d ++ "], ".toList ++ registerText t w r) ∧
    (format t ⟨mn, [.memoryDirect a, .immediate v w]⟩ = mnemonicText t mn ++ " ".toList ++ widthText w ++
      " [".toList ++ dec a.toNat ++ "], ".toList ++ sdec v) ∧
    (format t ⟨mn, [.memoryIndexed base d, .immediate v w]⟩ = mnemonicText t mn ++ " ".toList ++ widthText w ++
      " [".toList ++ eaText t base ++ displacementText d ++ "], ".toList ++ sdec v) ∧
    (format t ⟨mn, [.immediate v .byte]⟩ = mnemonicText t mn ++ " ".toList ++ sdec v)

/-- R163: every line of an instruction the decoder can build consists, under the default tables, of lower-case letters,
digits, space, comma, brackets, plus and minus. -/
def Obligations.LinesUseTheCharacterSet : Prop :=
  ∀ i : Instruction, shapeOk i = true → (format defaultTables i).all lineChar = true

/-- R161: each emitted line is followed by NEWLINE, which is the single byte 0x0A by default, the last one too, in the
order of emission. -/
def Obligations.EveryLineEndsInANewline : Prop :=
  defaultTables.newline = 0x0A ∧
  ∀ (t : Tables) (out : List (Instruction × Text)) (i : Instruction) (line : Text),
    outputBytes t [] = [] ∧
    outputBytes t (out ++ [(i, line)]) = outputBytes t out ++ line.map charByte ++ [t.newline]

/-- R185: the four end conditions have the codes 0 to 3, and a state that is not terminal has none. -/
def Obligations.EndCodes : Prop :=
  ∀ s : State,
    endCode (endRun s) = some 0 ∧ endCode (raiseTruncated s) = some 1 ∧ (∀ op, endCode (raiseOpcode op s) = some 2) ∧
    (∀ m moff, endCode (raiseSubop m moff s) = some 3) ∧ (s.phase.terminal = false → endCode s = none)

/-! ## The tables -/

/-- R5: the defaults of the tables, entry by entry: REG8_NAME and REG16_NAME (R13), EA_NAME (R68), CC_NAME (R120), the
loop names (R151), LOOP_OPCODE (R57), ALU_SUBOP (R110), NEWLINE (R161); they give no byte two readings (R52); and the
four mnemonic words that are no table entry (R151), over any tables. The defaults are decisions of the spec, mostly from
general knowledge (log entries 9 and 10). -/
def Obligations.DefaultTables : Prop :=
  let t := State.reset.tables
  ((List.range 8).map (fun k => reg8Text t (BitVec.ofNat 3 k)) =
    ["al", "cl", "dl", "bl", "ah", "ch", "dh", "bh"].map String.toList) ∧
  ((List.range 8).map (fun k => reg16Text t (BitVec.ofNat 3 k)) =
    ["ax", "cx", "dx", "bx", "sp", "bp", "si", "di"].map String.toList) ∧
  ((List.range 8).map (fun k => eaText t (BitVec.ofNat 3 k)) =
    ["bx + si", "bx + di", "bp + si", "bp + di", "si", "di", "bp", "bx"].map String.toList) ∧
  ((List.range 16).map (fun k => mnemonicText t (.conditionalJump (BitVec.ofNat 4 k))) =
    ["jo", "jno", "jb", "jnb", "je", "jne", "jbe", "jnbe", "js", "jns", "jp", "jnp", "jl", "jnl", "jle",
      "jnle"].map String.toList) ∧
  ((List.range 4).map (fun k => mnemonicText t (.loopVariant (BitVec.ofNat 2 k))) =
    ["loopnz", "loopz", "loop", "jcxz"].map String.toList) ∧
  ((List.range 4).map (fun k => loopOpcode t (BitVec.ofNat 2 k)) = [0xE0, 0xE1, 0xE2, 0xE3]) ∧
  (aluSubop t .add = 0b000 ∧ aluSubop t .sub = 0b101 ∧ aluSubop t .cmp = 0b111) ∧
  t.newline = 0x0A ∧ unambiguous t = true ∧
  ∀ t' : Tables, mnemonicText t' .mov = "mov".toList ∧ mnemonicText t' .add = "add".toList ∧
    mnemonicText t' .sub = "sub".toList ∧ mnemonicText t' .cmp = "cmp".toList

/-- R20, R120: the name tables and NEWLINE change the lines and nothing else: with other names a step emits the same
instruction and gives the same cursor, phase and diagnostic. -/
def Obligations.NamesChangeOnlyTheLines : Prop :=
  ∀ (s t : State) (other : Tables), other.loopOpcode = s.tables.loopOpcode → other.aluSubop = s.tables.aluSubop →
    step s = .next t →
    ∃ t', step { s with tables := other } = .next t' ∧ t'.pos = t.pos ∧ t'.phase = t.phase ∧ t'.err = t.err ∧
      t'.out.map Prod.fst = t.out.map Prod.fst
end

