-- ==== Sys2Proof/Laws/Decode.lean ====
section
/-! SUPPORT. The decoder and the encoder: the small lemmas of their fields, and for each reader of bytes what it
answers on encoded bytes, and what its answer says of the bytes. -/

namespace Sys2Proof

open Sys2Proof.Machine

@[simp] theorem modField_modrmByte (mod : BitVec 2) (reg rm : BitVec 3) : modField (modrmByte mod reg rm) = mod := by
  revert mod reg rm; decide

@[simp] theorem regField_modrmByte (mod : BitVec 2) (reg rm : BitVec 3) : regField (modrmByte mod reg rm) = reg := by
  revert mod reg rm; decide

@[simp] theorem rmField_modrmByte (mod : BitVec 2) (reg rm : BitVec 3) : rmField (modrmByte mod reg rm) = rm := by
  revert mod reg rm; decide

@[simp] theorem modrmByte_fields (m : Byte) : modrmByte (modField m) (regField m) (rmField m) = m := by
  revert m; decide

theorem word16_toNat (lo hi : Byte) : (word16 lo hi).toNat = lo.toNat + 256 * hi.toNat := by
  unfold word16
  rw [BitVec.toNat_append, ← Nat.shiftLeft_add_eq_or_of_lt lo.isLt, Nat.shiftLeft_eq]
  omega

theorem loByte_toNat (v : Word) : (loByte v).toNat = v.toNat % 256 := by simp [loByte]

theorem hiByte_toNat (v : Word) : (hiByte v).toNat = v.toNat / 256 := by
  simp [hiByte, Nat.shiftRight_eq_div_pow]; omega

@[simp] theorem word16_bytes (v : Word) : word16 (loByte v) (hiByte v) = v := by
  apply BitVec.eq_of_toNat_eq
  rw [word16_toNat, loByte_toNat, hiByte_toNat]; omega

@[simp] theorem loByte_word16 (lo hi : Byte) : loByte (word16 lo hi) = lo := by
  apply BitVec.eq_of_toNat_eq
  rw [loByte_toNat, word16_toNat]; omega

@[simp] theorem hiByte_word16 (lo hi : Byte) : hiByte (word16 lo hi) = hi := by
  apply BitVec.eq_of_toNat_eq
  rw [hiByte_toNat, word16_toNat]; omega

theorem signed8_eq_toInt (b : Byte) : signed8 b = b.toInt := by revert b; decide

theorem signed16_eq_toInt (v : Word) : signed16 v = v.toInt := by
  unfold signed16; rw [BitVec.toInt_eq_toNat_cond]; split <;> split <;> omega

theorem wordBytes_word16 (lo hi : Byte) : wordBytes (word16 lo hi) = [lo, hi] := by simp [wordBytes]

/-! ## The classifier -/

/-- The forms whose opcode bytes no table gives. -/
def isFixed : OpClass → Bool
  | .loop _ => false
  | _ => true

theorem opByte_of_isFixed {c : OpClass} (h : isFixed c = true) (t t' : Tables) : opByte t c = opByte t' c := by
  cases c with
  | loop c => cases h
  | aluImmAcc op w => cases op <;> rfl
  | _ => rfl

theorem opByte_of_classifyFixed {op : Byte} {c : OpClass} (t : Tables) (h : classifyFixed op = some c) :
    isFixed c = true ∧ opByte t c = op := by
  have key : ∀ op, (classifyFixed op).all (fun c => isFixed c && opByte defaultTables c == op) = true := by decide
  have := key op
  simp only [h, Option.all_some, Bool.and_eq_true, beq_iff_eq] at this
  exact ⟨this.1, by rw [opByte_of_isFixed this.1 t defaultTables, this.2]⟩

theorem classifyFixed_opByte (t : Tables) {c : OpClass} (h : isFixed c = true) :
    classifyFixed (opByte t c) = some c := by
  rw [opByte_of_isFixed h t defaultTables]
  cases c with
  | aluImmAcc op w => cases op <;> (revert w; decide)
  | addRm d w | subRm d w | cmpRm d w | movRm d w | aluImmRm d w => revert d w; decide
  | movImmReg w r => revert w r; decide
  | jcc c => revert c; decide
  | loop c => cases h

/-- Under any tables Classify answers every form but the loop on its opcode byte. -/
theorem classify_of_isFixed (t : Tables) {c : OpClass} (h : isFixed c = true) : classify t (opByte t c) = some c := by
  simp [classify, classifyFixed_opByte t h]

theorem loopOpcode_of_loopCode? {t : Tables} {op : Byte} {code : BitVec 2} (h : loopCode? t op = some code) :
    loopOpcode t code = op := by
  unfold loopCode? at h
  split at h
  · cases h; exact Eq.symm ‹_›
  split at h
  · cases h; exact Eq.symm ‹_›
  split at h
  · cases h; exact Eq.symm ‹_›
  split at h
  · cases h; exact Eq.symm ‹_›
  · cases h

theorem loopCode?_eq_none (t : Tables) (op : Byte) : loopCode? t op = none ↔ ∀ code, op ≠ loopOpcode t code := by
  constructor
  · intro h code heq
    have hall : ∀ code : BitVec 2, code = 0 ∨ code = 1 ∨ code = 2 ∨ code = 3 := by decide
    unfold loopCode? at h
    rcases hall code with rfl | rfl | rfl | rfl <;> rw [← heq] at h <;> (repeat' split at h) <;> simp_all
  · intro h
    simp [loopCode?, h]

/-- The opcode byte of what Classify answers is the byte it was given. -/
theorem opByte_of_classify {t : Tables} {op : Byte} {c : OpClass} (h : classify t op = some c) : opByte t c = op := by
  unfold classify at h
  split at h
  · cases h; exact (opByte_of_classifyFixed t ‹_›).2
  · obtain ⟨code, hc, rfl⟩ := Option.map_eq_some_iff.mp h
    exact loopOpcode_of_loopCode? hc

/-- What `unambiguous` says of the loop opcode bytes. -/
theorem classify_loopOpcode {t : Tables} (h : unambiguous t = true) (code : BitVec 2) :
    classify t (loopOpcode t code) = some (.loop code) := by
  have hall : ∀ code : BitVec 2, code ∈ [0#2, 1#2, 2#2, 3#2] := by decide
  simp only [unambiguous, Bool.and_eq_true, List.all_eq_true, beq_iff_eq] at h
  obtain ⟨h1, h2⟩ := h.1 code (hall code)
  simp [classify, h1, h2]

/-- What `unambiguous` says of the sub-opcodes. -/
theorem aluOp?_aluSubop {t : Tables} (h : unambiguous t = true) (op : AluOp) : aluOp? t (aluSubop t op) = some op := by
  simp only [unambiguous, Bool.and_eq_true, List.all_eq_true, beq_iff_eq] at h
  exact h.2 op (by cases op <;> decide)

/-- Under unambiguous tables Classify answers every form on its opcode byte. -/
theorem classify_opByte {t : Tables} (h : unambiguous t = true) (c : OpClass) : classify t (opByte t c) = some c := by
  by_cases hf : isFixed c = true
  · exact classify_of_isFixed t hf
  · cases c with
    | loop code => exact classify_loopOpcode h code
    | _ => exact absurd rfl hf

theorem unambiguous_default : unambiguous defaultTables = true := by decide

theorem aluSubop_of_aluOp? {t : Tables} {sub : BitVec 3} {op : AluOp} (h : aluOp? t sub = some op) :
    sub = aluSubop t op := by
  unfold aluOp? at h
  split at h
  · cases h; assumption
  split at h
  · cases h; assumption
  split at h
  · cases h; assumption
  · cases h

theorem aluOp?_eq_none (t : Tables) (sub : BitVec 3) : aluOp? t sub = none ↔ ∀ op, sub ≠ aluSubop t op := by
  constructor
  · intro h op heq
    unfold aluOp? at h
    cases op <;> rw [← heq] at h <;> (repeat' split at h) <;> simp_all
  · intro h
    simp [aluOp?, h]

theorem aluOp?_default_eq_none (sub : BitVec 3) :
    aluOp? defaultTables sub = none ↔ sub ∈ [1#3, 2#3, 3#3, 4#3, 6#3] := by
  revert sub; decide

/-! ## The readers -/

@[simp] theorem takeByte_cons (b : Byte) (r : List Byte) : takeByte (b :: r) = .ok (b, r) := rfl

theorem takeByte_ok {bs r : List Byte} {b : Byte} (h : takeByte bs = .ok (b, r)) : bs = b :: r := by
  cases bs with
  | nil => cases h
  | cons x xs => cases h; rfl

theorem takeByte_error {bs : List Byte} {e : DecodeError} (h : takeByte bs = .error e) : bs = [] ∧ e = .truncated := by
  cases bs with
  | nil => cases h; simp
  | cons x xs => cases h

@[simp] theorem takeWord_wordBytes (v : Word) (r : List Byte) : takeWord (wordBytes v ++ r) = .ok (v, r) := by
  simp [wordBytes, takeWord]

theorem takeWord_ok {bs r : List Byte} {v : Word} (h : takeWord bs = .ok (v, r)) : bs = wordBytes v ++ r := by
  match bs, h with
  | lo :: hi :: xs, h => cases h; simp [wordBytes_word16]

theorem takeWord_error {bs : List Byte} {e : DecodeError} (h : takeWord bs = .error e) :
    bs.length < 2 ∧ e = .truncated := by
  match bs, h with
  | [], h => cases h; simp
  | [_], h => cases h; simp

theorem map_ok {α β : Type} {x : Parsed α} {f : α × List Byte → β × List Byte} {y : β × List Byte}
    (h : x.map f = .ok y) : ∃ p, x = .ok p ∧ f p = y := by
  cases x with
  | error e => cases h
  | ok p => exact ⟨p, rfl, by simpa [Except.map] using h⟩

theorem map_error {α β : Type} {x : Parsed α} {f : α × List Byte → β × List Byte} {e : DecodeError}
    (h : x.map f = .error e) : x = .error e := by
  cases x with
  | error e' => simpa [Except.map] using h
  | ok p => cases h

theorem mod_eq_two : ∀ {mod : BitVec 2}, mod ≠ 3 → mod ≠ 0 → mod ≠ 1 → mod = 2 := by decide

theorem takeRm_bytes (rm : Rm) (r : List Byte) (h : rm.wellFormed = true) :
    takeRm rm.modBits rm.rmBits (rm.bytes ++ r) = .ok (rm, r) := by
  cases rm <;> simp [Rm.wellFormed] at h <;> simp [takeRm, Rm.modBits, Rm.rmBits, Rm.bytes, Except.map, h]

theorem takeRm_ok {mod : BitVec 2} {b : BitVec 3} {bs r : List Byte} {rm : Rm} (h : takeRm mod b bs = .ok (rm, r)) :
    rm.wellFormed = true ∧ rm.modBits = mod ∧ rm.rmBits = b ∧ bs = rm.bytes ++ r := by
  unfold takeRm at h
  split at h
  · cases h; simp_all [Rm.wellFormed, Rm.modBits, Rm.rmBits, Rm.bytes]
  · split at h
    · obtain ⟨p, hp, he⟩ := map_ok h
      cases he
      simp_all [Rm.wellFormed, Rm.modBits, Rm.rmBits, Rm.bytes, takeWord_ok hp]
    · split at h
      · cases h; simp_all [Rm.wellFormed, Rm.modBits, Rm.rmBits, Rm.bytes]
      · split at h <;> obtain ⟨p, hp, he⟩ := map_ok h <;> cases he
        · simp_all [Rm.wellFormed, Rm.modBits, Rm.rmBits, Rm.bytes, takeByte_ok hp]
        · have := mod_eq_two ‹_› ‹_› ‹_›
          simp_all [Rm.wellFormed, Rm.modBits, Rm.rmBits, Rm.bytes, takeWord_ok hp]

theorem Rm.bytes_length (rm : Rm) (h : rm.wellFormed = true) : rm.bytes.length = dispLen rm.modBits rm.rmBits := by
  cases rm <;> simp [Rm.wellFormed] at h <;> simp [Rm.bytes, dispLen, Rm.modBits, Rm.rmBits, wordBytes, h]

theorem takeRm_error {mod : BitVec 2} {b : BitVec 3} {bs : List Byte} {e : DecodeError}
    (h : takeRm mod b bs = .error e) : bs.length < dispLen mod b ∧ e = .truncated := by
  unfold takeRm at h
  split at h
  · cases h
  · split at h
    · have := takeWord_error (map_error h); simp_all [dispLen]
    · split at h
      · cases h
      · split at h
        · obtain ⟨rfl, rfl⟩ := takeByte_error (map_error h); simp_all [dispLen]
        · have := mod_eq_two ‹_› ‹_› ‹_›
          have := takeWord_error (map_error h); simp_all [dispLen]

theorem takeImm_bytes (sx w : Bool) (imm : Imm) (r : List Byte) (h : imm.wellFormed sx w = true) :
    takeImm sx w (imm.bytes ++ r) = .ok (imm, r) := by
  cases imm <;> cases sx <;> cases w <;> simp [Imm.wellFormed] at h <;> simp [takeImm, Imm.bytes, Except.map]

theorem takeImm_ok {sx w : Bool} {bs r : List Byte} {imm : Imm} (h : takeImm sx w bs = .ok (imm, r)) :
    imm.wellFormed sx w = true ∧ bs = imm.bytes ++ r := by
  unfold takeImm at h
  split at h <;> obtain ⟨p, hp, he⟩ := map_ok h <;> cases he
  · simp [Imm.wellFormed, Imm.bytes, takeByte_ok hp]; simp_all
  · simp [Imm.wellFormed, Imm.bytes, takeWord_ok hp]; simp_all

theorem Imm.bytes_length (sx w : Bool) (imm : Imm) (h : imm.wellFormed sx w = true) :
    imm.bytes.length = immLen w sx := by
  cases imm <;> cases sx <;> cases w <;> simp [Imm.wellFormed] at h <;> simp [Imm.bytes, immLen, wordBytes]

theorem takeImm_error {sx w : Bool} {bs : List Byte} {e : DecodeError} (h : takeImm sx w bs = .error e) :
    bs.length < immLen w sx ∧ e = .truncated := by
  unfold takeImm at h
  split at h
  · obtain ⟨rfl, rfl⟩ := takeByte_error (map_error h); simp_all [immLen]
  · have := takeWord_error (map_error h); simp_all [immLen]


/-! ## The forms -/

theorem takeRmForm_bytes (mk : BitVec 3 → Rm → Instr) (reg : BitVec 3) (rm : Rm) (r : List Byte)
    (h : rm.wellFormed = true) :
    takeRmForm mk (modrmByte rm.modBits reg rm.rmBits :: (rm.bytes ++ r)) = .ok (mk reg rm, r) := by
  simp [takeRmForm, takeRm_bytes, h, Except.map]

theorem takeRmForm_ok {mk : BitVec 3 → Rm → Instr} {bs r : List Byte} {i : Instr}
    (h : takeRmForm mk bs = .ok (i, r)) :
    ∃ reg rm, rm.wellFormed = true ∧ i = mk reg rm ∧ bs = modrmByte rm.modBits reg rm.rmBits :: (rm.bytes ++ r) := by
  unfold takeRmForm at h
  split at h
  · cases h
  · rename_i m bs' hm
    obtain ⟨p, hp, he⟩ := map_ok h
    cases he
    obtain ⟨hw, h1, h2, rfl⟩ := takeRm_ok hp
    exact ⟨regField m, p.1, hw, rfl, by rw [takeByte_ok hm, h1, h2, modrmByte_fields]⟩

theorem takeRmForm_error {mk : BitVec 3 → Rm → Instr} {bs : List Byte} {e : DecodeError}
    (h : takeRmForm mk bs = .error e) :
    e = .truncated ∧ (bs = [] ∨ ∃ m r, bs = m :: r ∧ r.length < dispLen (modField m) (rmField m)) := by
  unfold takeRmForm at h
  split at h
  · cases h; obtain ⟨rfl, rfl⟩ := takeByte_error ‹_›; simp
  · rename_i m bs' hm
    have := takeRm_error (map_error h)
    exact ⟨this.2, .inr ⟨m, bs', takeByte_ok hm, this.1⟩⟩

theorem takeAluImm_bytes {t : Tables} (op : AluOp) (sx w : Bool) (rm : Rm) (imm : Imm) (r : List Byte)
    (h : rm.wellFormed = true) (hi : imm.wellFormed sx w = true) (ho : aluOp? t (aluSubop t op) = some op) :
    takeAluImm t sx w (modrmByte rm.modBits (aluSubop t op) rm.rmBits :: (rm.bytes ++ (imm.bytes ++ r))) =
      .ok (aluImmInstr op sx w rm imm, r) := by
  simp [takeAluImm, ho, takeRm_bytes _ _ h, takeImm_bytes _ _ _ _ hi, Except.map]

theorem takeAluImm_ok {t : Tables} {sx w : Bool} {bs r : List Byte} {i : Instr} (h : takeAluImm t sx w bs = .ok (i, r)) :
    ∃ op rm imm, aluOp? t (aluSubop t op) = some op ∧ rm.wellFormed = true ∧ imm.wellFormed sx w = true ∧ i = aluImmInstr op sx w rm imm ∧
      bs = modrmByte rm.modBits (aluSubop t op) rm.rmBits :: (rm.bytes ++ (imm.bytes ++ r)) := by
  unfold takeAluImm at h
  split at h
  · cases h
  · rename_i m bs' hm
    split at h
    · cases h
    · rename_i op hop
      split at h
      · cases h
      · rename_i rm bs'' hrm
        obtain ⟨p, hp, he⟩ := map_ok h
        cases he
        obtain ⟨hw, h1, h2, rfl⟩ := takeRm_ok hrm
        obtain ⟨hi, rfl⟩ := takeImm_ok hp
        refine ⟨op, rm, p.1, by rw [← aluSubop_of_aluOp? hop, hop], hw, hi, rfl, ?_⟩
        rw [takeByte_ok hm, h1, h2, ← aluSubop_of_aluOp? hop, modrmByte_fields]

theorem takeAluImm_error {t : Tables} {sx w : Bool} {bs : List Byte} {e : DecodeError} (h : takeAluImm t sx w bs = .error e) :
    (e = .truncated ∧ (bs = [] ∨ ∃ m r, bs = m :: r ∧ aluOp? t (regField m) ≠ none ∧
      r.length < dispLen (modField m) (rmField m) + immLen w sx)) ∨
    ∃ m r, bs = m :: r ∧ aluOp? t (regField m) = none ∧ e = .unsupportedSubop m := by
  unfold takeAluImm at h
  split at h
  · cases h; obtain ⟨rfl, rfl⟩ := takeByte_error ‹_›; simp
  · rename_i m bs' hm
    cases takeByte_ok hm
    split at h
    · cases h; exact .inr ⟨m, bs', rfl, ‹_›, rfl⟩
    · rename_i op hop
      refine .inl ?_
      split at h
      · cases h
        have := takeRm_error ‹_›
        exact ⟨this.2, .inr ⟨m, bs', rfl, by simp [hop], by omega⟩⟩
      · rename_i rm bs'' hrm
        have := takeImm_error (map_error h)
        obtain ⟨hw, h1, h2, rfl⟩ := takeRm_ok hrm
        have hl := Rm.bytes_length rm hw
        rw [h1, h2] at hl
        exact ⟨this.2, .inr ⟨m, _, rfl, by simp [hop], by simp [hl]; omega⟩⟩

/-- An encoding has as many bytes as the instruction is long. -/
theorem encode_length (t : Tables) (i : Instr) : (encode t i).length = i.length := by
  cases i <;> simp [encode, encodeRm, encodeAluImm, encodeImm, encodeJump, Instr.length] <;> omega

end Sys2Proof
end

