-- ==== Sys2Proof/Laws/Memory.lean ====
section
/-! SUPPORT. The stream: the laws of its cells (a read after a write, the canonical form kept by every operation), and
what `byteAt?` and `bytesFrom` say of each other. -/

namespace Sys2Proof.Machine

/-! ## Reading and writing cells -/

/-- Below the first offset of a canonical list nothing is listed. -/
theorem memRead_below {cells : List Host.Cell} {lo a : Nat} (h : memWfFrom lo cells = true) (ha : a < lo) :
    memRead cells a = unlisted := by
  induction cells generalizing lo with
  | nil => rfl
  | cons c cells ih =>
    obtain ⟨x, v⟩ := c
    simp only [memWfFrom, Bool.and_eq_true, decide_eq_true_eq] at h
    rw [memRead, if_neg (by omega)]
    exact ih h.2 (by omega)

theorem memWfFrom_mono {cells : List Host.Cell} {lo lo' : Nat} (h : memWfFrom lo cells = true) (hl : lo' ≤ lo) :
    memWfFrom lo' cells = true := by
  cases cells with
  | nil => rfl
  | cons c cells =>
    simp only [memWfFrom, Bool.and_eq_true, decide_eq_true_eq] at h ⊢
    exact ⟨⟨by omega, h.1.2⟩, h.2⟩

theorem memWfFrom_memCons {cells : List Host.Cell} {lo a : Nat} {b : Byte} (h : memWfFrom (a + 1) cells = true)
    (ha : lo ≤ a) : memWfFrom lo (memCons a b cells) = true := by
  unfold memCons
  split
  · exact memWfFrom_mono h (by omega)
  · simp_all [memWfFrom]

/-- Writing keeps the canonical form. -/
theorem memWfFrom_memWrite {cells : List Host.Cell} {lo a : Nat} {b : Byte} (h : memWfFrom lo cells = true)
    (ha : lo ≤ a) : memWfFrom lo (memWrite cells a b) = true := by
  induction cells generalizing lo with
  | nil => exact memWfFrom_memCons rfl ha
  | cons c cells ih =>
    obtain ⟨x, v⟩ := c
    have h' := h
    simp only [memWfFrom, Bool.and_eq_true, decide_eq_true_eq] at h'
    obtain ⟨⟨hx, hv⟩, ht⟩ := h'
    unfold memWrite
    split
    · refine memWfFrom_memCons ?_ ha
      simp only [memWfFrom, Bool.and_eq_true, decide_eq_true_eq]
      exact ⟨⟨by omega, hv⟩, ht⟩
    · split
      · subst a; exact memWfFrom_memCons ht ha
      · simp only [memWfFrom, Bool.and_eq_true, decide_eq_true_eq]
        exact ⟨⟨hx, hv⟩, ih ht (by omega)⟩

theorem memRead_memCons (cells : List Host.Cell) (a : Nat) (b : Byte) (x : Nat) (h : memWfFrom (a + 1) cells = true) :
    memRead (memCons a b cells) x = if x = a then b else memRead cells x := by
  unfold memCons
  split
  · split
    · subst x b; exact memRead_below h (by omega)
    · rfl
  · rfl

/-- A read after a write: the byte written at its offset, and what was there before elsewhere. -/
theorem memRead_memWrite {cells : List Host.Cell} {lo : Nat} (h : memWfFrom lo cells = true) (a : Nat) (b : Byte)
    (x : Nat) : memRead (memWrite cells a b) x = if x = a then b else memRead cells x := by
  induction cells generalizing lo with
  | nil => exact memRead_memCons [] a b x rfl
  | cons c cells ih =>
    obtain ⟨y, v⟩ := c
    have h' := h
    simp only [memWfFrom, Bool.and_eq_true, decide_eq_true_eq] at h'
    obtain ⟨⟨hx, hv⟩, ht⟩ := h'
    unfold memWrite
    split
    · refine memRead_memCons _ a b x ?_
      simp only [memWfFrom, Bool.and_eq_true, decide_eq_true_eq]
      exact ⟨⟨by omega, hv⟩, ht⟩
    · split
      · subst a
        rw [memRead_memCons _ _ _ _ ht, memRead]
        split <;> rfl
      · rw [memRead, memRead, ih ht]
        split
        · rw [if_neg (by omega)]
        · rfl

/-- Every memory operation keeps the canonical form: one byte written. -/
theorem Memory.wf_memWrite {cells : List Host.Cell} (h : Memory.wf cells = true) (a : Nat) (b : Byte) :
    Memory.wf (memWrite cells a b) = true :=
  memWfFrom_memWrite h (Nat.zero_le a)

/-- Every memory operation keeps the canonical form: a run of bytes written. -/
theorem Memory.wf_memWriteBytes {cells : List Host.Cell} (h : Memory.wf cells = true) (a : Nat) (bs : List Byte) :
    Memory.wf (memWriteBytes cells a bs) = true := by
  induction bs generalizing cells a with
  | nil => exact h
  | cons b bs ih => exact ih (Memory.wf_memWrite h a b) (a + 1)

/-- The memory of the machine right after reset is in canonical form. -/
theorem Memory.wf_reset : Memory.wf State.reset.stream = true := rfl

/-- A read after a run of bytes is written. -/
theorem memRead_memWriteBytes {cells : List Host.Cell} (h : Memory.wf cells = true) (a : Nat) (bs : List Byte)
    (x : Nat) : memRead (memWriteBytes cells a bs) x = if x < a then memRead cells x else
      (bs[x - a]?).getD (memRead cells x) := by
  induction bs generalizing cells a with
  | nil => simp [memWriteBytes]
  | cons b bs ih =>
    rw [memWriteBytes, ih (Memory.wf_memWrite h a b), memRead_memWrite h]
    rcases Nat.lt_trichotomy x a with hx | hx | hx
    · rw [if_pos (by omega), if_pos hx, if_neg (by omega)]
    · subst hx; simp
    · rw [if_neg (by omega), if_neg (by omega), if_neg (by omega)]
      have : x - a = (x - (a + 1)) + 1 := by omega
      rw [this, List.getElem?_cons_succ]

/-- Writing lists no offset but the one written. -/
theorem mem_memWrite {cells : List Host.Cell} {a : Nat} {b : Byte} {c : Host.Cell} (h : c ∈ memWrite cells a b) :
    c ∈ cells ∨ c = (a, b) := by
  have hc : ∀ cs : List Host.Cell, c ∈ memCons a b cs → c ∈ cs ∨ c = (a, b) := by
    intro cs h
    unfold memCons at h
    split at h
    · exact .inl h
    · rcases List.mem_cons.mp h with h | h
      · exact .inr h
      · exact .inl h
  induction cells with
  | nil => exact hc [] h
  | cons d cells ih =>
    obtain ⟨x, v⟩ := d
    unfold memWrite at h
    split at h
    · exact hc _ h
    · split at h
      · rcases hc _ h with h | h <;> simp [h]
      · rcases List.mem_cons.mp h with h | h
        · simp [h]
        · rcases ih h with h | h <;> simp [h]

/-- Writing a run of bytes lists no offset outside it. -/
theorem mem_memWriteBytes {cells : List Host.Cell} {a : Nat} {bs : List Byte} {c : Host.Cell}
    (h : c ∈ memWriteBytes cells a bs) : c ∈ cells ∨ (a ≤ c.1 ∧ c.1 < a + bs.length) := by
  induction bs generalizing cells a with
  | nil => exact .inl h
  | cons b bs ih =>
    rcases ih h with h | h
    · rcases mem_memWrite h with h | rfl
      · exact .inl h
      · simp
    · simp; omega

/-! ## Reading the stream -/

theorem byteAt?_isSome (s : State) (a : Nat) : (s.byteAt? a).isSome = decide (a < s.len) := by
  unfold State.byteAt?; split <;> simp_all

theorem byteAt?_eq_none (s : State) (a : Nat) : s.byteAt? a = none ↔ s.len ≤ a := by
  unfold State.byteAt?; split <;> simp <;> omega

theorem byteAt?_eq_some (s : State) (a : Nat) (b : Byte) :
    s.byteAt? a = some b ↔ a < s.len ∧ memRead s.stream a = b := by
  unfold State.byteAt?; split <;> simp_all

/-- The bytes that stand in the stream from an offset on. -/
def Holds (s : State) : Nat → List Byte → Prop
  | _, [] => True
  | a, b :: bs => s.byteAt? a = some b ∧ Holds s (a + 1) bs

/-- What stands in the stream depends on STREAM and LEN only. -/
theorem Holds.of_eq {s t : State} {a : Nat} {bs : List Byte} (h : Holds s a bs) (hs : t.stream = s.stream)
    (hl : t.len = s.len) : Holds t a bs := by
  induction bs generalizing a with
  | nil => trivial
  | cons b bs ih => exact ⟨by simpa [State.byteAt?, hs, hl] using h.1, ih h.2⟩

theorem holds_append (s : State) (a : Nat) (bs cs : List Byte) :
    Holds s a (bs ++ cs) ↔ Holds s a bs ∧ Holds s (a + bs.length) cs := by
  induction bs generalizing a with
  | nil => simp [Holds]
  | cons b bs ih => simp [Holds, ih, and_assoc, Nat.add_assoc, Nat.add_comm 1]

theorem holds_bytesFrom (s : State) (a n : Nat) : Holds s a (s.bytesFrom a n) := by
  induction n generalizing a with
  | zero => trivial
  | succ n ih =>
    unfold State.bytesFrom
    split
    · trivial
    · exact ⟨‹_›, ih (a + 1)⟩

theorem bytesFrom_length (s : State) (a n : Nat) : (s.bytesFrom a n).length = min n (s.len - a) := by
  induction n generalizing a with
  | zero => simp [State.bytesFrom]
  | succ n ih =>
    unfold State.bytesFrom
    split
    · have := (byteAt?_eq_none s a).mp ‹_›; simp; omega
    · have := ((byteAt?_eq_some s a _).mp ‹_›).1
      simp [ih]; omega

/-- Bytes that stand in the stream are inside it. -/
theorem holds_length {s : State} {a : Nat} {bs : List Byte} (h : Holds s a bs) (ha : a ≤ s.len) :
    a + bs.length ≤ s.len := by
  induction bs generalizing a with
  | nil => simpa
  | cons b bs ih =>
    have := ((byteAt?_eq_some s a b).mp h.1).1
    have := ih h.2 (by omega)
    simp; omega

/-- The window at an offset where bytes stand begins with them. -/
theorem bytesFrom_of_holds {s : State} {a n : Nat} {bs : List Byte} (h : Holds s a bs) (hn : bs.length ≤ n) :
    ∃ rest, s.bytesFrom a n = bs ++ rest := by
  induction bs generalizing a n with
  | nil => exact ⟨_, rfl⟩
  | cons b bs ih =>
    cases n with
    | zero => simp at hn
    | succ n =>
      obtain ⟨rest, hr⟩ := ih h.2 (by simpa using hn)
      exact ⟨rest, by simp [State.bytesFrom, h.1, hr]⟩

/-- Bytes that stand in the stream, offset by offset. -/
theorem holds_iff (s : State) (a : Nat) (bs : List Byte) (ha : a ≤ s.len) :
    Holds s a bs ↔ a + bs.length ≤ s.len ∧ ∀ k (hk : k < bs.length), memRead s.stream (a + k) = bs[k] := by
  induction bs generalizing a with
  | nil => simpa [Holds] using ha
  | cons b bs ih =>
    simp only [Holds, byteAt?_eq_some]
    constructor
    · rintro ⟨⟨h1, h2⟩, h3⟩
      obtain ⟨h4, h5⟩ := (ih (a + 1) (by omega)).mp h3
      refine ⟨by simp; omega, fun k hk => ?_⟩
      cases k with
      | zero => simpa using h2
      | succ k => simpa [Nat.add_assoc, Nat.add_comm 1] using h5 k (by simpa using hk)
    · rintro ⟨h1, h2⟩
      simp only [List.length_cons] at h1
      refine ⟨⟨by omega, h2 0 (by simp)⟩, (ih (a + 1) (by omega)).mpr ⟨by omega, fun k hk => ?_⟩⟩
      have h3 := h2 (k + 1) (by simpa using hk)
      simpa [Nat.add_assoc, Nat.add_comm 1] using h3

end Sys2Proof.Machine
end

