-- ==== Sys2Proof/Laws/State.lean ====
section
/-! SUPPORT. The state: one lemma for each field and each named update, so that no proof unfolds a record update. -/

namespace Sys2Proof.Machine

@[simp] theorem endRun_stream (s : State) : (endRun s).stream = s.stream := rfl
@[simp] theorem endRun_len (s : State) : (endRun s).len = s.len := rfl
@[simp] theorem endRun_tables (s : State) : (endRun s).tables = s.tables := rfl
@[simp] theorem endRun_pos (s : State) : (endRun s).pos = s.pos := rfl
@[simp] theorem endRun_phase (s : State) : (endRun s).phase = .done := rfl
@[simp] theorem endRun_out (s : State) : (endRun s).out = s.out := rfl
@[simp] theorem endRun_err (s : State) : (endRun s).err = s.err := rfl
@[simp] theorem endRun_start (s : State) : (endRun s).start = s.start := rfl
@[simp] theorem endRun_cur (s : State) : (endRun s).cur = s.cur := rfl

@[simp] theorem raise_stream (k : ErrorKind) (c : Cause) (b : Option Byte) (o : Nat) (s : State) : (raise k c b o s).stream = s.stream := rfl
@[simp] theorem raise_len (k : ErrorKind) (c : Cause) (b : Option Byte) (o : Nat) (s : State) : (raise k c b o s).len = s.len := rfl
@[simp] theorem raise_tables (k : ErrorKind) (c : Cause) (b : Option Byte) (o : Nat) (s : State) : (raise k c b o s).tables = s.tables := rfl
@[simp] theorem raise_pos (k : ErrorKind) (c : Cause) (b : Option Byte) (o : Nat) (s : State) : (raise k c b o s).pos = s.pos := rfl
@[simp] theorem raise_phase (k : ErrorKind) (c : Cause) (b : Option Byte) (o : Nat) (s : State) : (raise k c b o s).phase = .failed := rfl
@[simp] theorem raise_out (k : ErrorKind) (c : Cause) (b : Option Byte) (o : Nat) (s : State) : (raise k c b o s).out = s.out := rfl
@[simp] theorem raise_err (k : ErrorKind) (c : Cause) (b : Option Byte) (o : Nat) (s : State) : (raise k c b o s).err = some ⟨k, c, b, o, s.start⟩ := rfl
@[simp] theorem raise_start (k : ErrorKind) (c : Cause) (b : Option Byte) (o : Nat) (s : State) : (raise k c b o s).start = s.start := rfl
@[simp] theorem raise_cur (k : ErrorKind) (c : Cause) (b : Option Byte) (o : Nat) (s : State) : (raise k c b o s).cur = s.cur := rfl

@[simp] theorem raiseTruncated_stream (s : State) : (raiseTruncated s).stream = s.stream := rfl
@[simp] theorem raiseTruncated_len (s : State) : (raiseTruncated s).len = s.len := rfl
@[simp] theorem raiseTruncated_tables (s : State) : (raiseTruncated s).tables = s.tables := rfl
@[simp] theorem raiseTruncated_pos (s : State) : (raiseTruncated s).pos = s.pos := rfl
@[simp] theorem raiseTruncated_phase (s : State) : (raiseTruncated s).phase = .failed := rfl
@[simp] theorem raiseTruncated_out (s : State) : (raiseTruncated s).out = s.out := rfl
@[simp] theorem raiseTruncated_err (s : State) : (raiseTruncated s).err = some ⟨.truncatedInstruction, .none, none, s.len, s.start⟩ := rfl
@[simp] theorem raiseTruncated_start (s : State) : (raiseTruncated s).start = s.start := rfl
@[simp] theorem raiseTruncated_cur (s : State) : (raiseTruncated s).cur = s.cur := rfl

@[simp] theorem raiseOpcode_stream (op : Byte) (s : State) : (raiseOpcode op s).stream = s.stream := rfl
@[simp] theorem raiseOpcode_len (op : Byte) (s : State) : (raiseOpcode op s).len = s.len := rfl
@[simp] theorem raiseOpcode_tables (op : Byte) (s : State) : (raiseOpcode op s).tables = s.tables := rfl
@[simp] theorem raiseOpcode_pos (op : Byte) (s : State) : (raiseOpcode op s).pos = s.pos := rfl
@[simp] theorem raiseOpcode_phase (op : Byte) (s : State) : (raiseOpcode op s).phase = .failed := rfl
@[simp] theorem raiseOpcode_out (op : Byte) (s : State) : (raiseOpcode op s).out = s.out := rfl
@[simp] theorem raiseOpcode_err (op : Byte) (s : State) : (raiseOpcode op s).err = some ⟨.unsupportedOpcode, .opcode, some op, s.start, s.start⟩ := rfl
@[simp] theorem raiseOpcode_start (op : Byte) (s : State) : (raiseOpcode op s).start = s.start := rfl
@[simp] theorem raiseOpcode_cur (op : Byte) (s : State) : (raiseOpcode op s).cur = s.cur := rfl

@[simp] theorem raiseSubop_stream (m : Byte) (moff : Nat) (s : State) : (raiseSubop m moff s).stream = s.stream := rfl
@[simp] theorem raiseSubop_len (m : Byte) (moff : Nat) (s : State) : (raiseSubop m moff s).len = s.len := rfl
@[simp] theorem raiseSubop_tables (m : Byte) (moff : Nat) (s : State) : (raiseSubop m moff s).tables = s.tables := rfl
@[simp] theorem raiseSubop_pos (m : Byte) (moff : Nat) (s : State) : (raiseSubop m moff s).pos = s.pos := rfl
@[simp] theorem raiseSubop_phase (m : Byte) (moff : Nat) (s : State) : (raiseSubop m moff s).phase = .failed := rfl
@[simp] theorem raiseSubop_out (m : Byte) (moff : Nat) (s : State) : (raiseSubop m moff s).out = s.out := rfl
@[simp] theorem raiseSubop_err (m : Byte) (moff : Nat) (s : State) : (raiseSubop m moff s).err = some ⟨.unsupportedOpcode, .aluSubop, some m, moff, s.start⟩ := rfl
@[simp] theorem raiseSubop_start (m : Byte) (moff : Nat) (s : State) : (raiseSubop m moff s).start = s.start := rfl
@[simp] theorem raiseSubop_cur (m : Byte) (moff : Nat) (s : State) : (raiseSubop m moff s).cur = s.cur := rfl

@[simp] theorem emit_stream (i : Instruction) (s : State) : (emit i s).stream = s.stream := rfl
@[simp] theorem emit_len (i : Instruction) (s : State) : (emit i s).len = s.len := rfl
@[simp] theorem emit_tables (i : Instruction) (s : State) : (emit i s).tables = s.tables := rfl
@[simp] theorem emit_pos (i : Instruction) (s : State) : (emit i s).pos = s.pos := rfl
@[simp] theorem emit_phase (i : Instruction) (s : State) : (emit i s).phase = .readOpcode := rfl
@[simp] theorem emit_out (i : Instruction) (s : State) : (emit i s).out = s.out ++ [(i, format s.tables i)] := rfl
@[simp] theorem emit_err (i : Instruction) (s : State) : (emit i s).err = s.err := rfl
@[simp] theorem emit_start (i : Instruction) (s : State) : (emit i s).start = s.start := rfl
@[simp] theorem emit_cur (i : Instruction) (s : State) : (emit i s).cur = s.cur := rfl

@[simp] theorem endRun_byteAt? (s : State) (x : Nat) : (endRun s).byteAt? x = s.byteAt? x := rfl

@[simp] theorem raiseTruncated_byteAt? (s : State) (x : Nat) : (raiseTruncated s).byteAt? x = s.byteAt? x := rfl

@[simp] theorem emit_byteAt? (i : Instruction) (s : State) (x : Nat) : (emit i s).byteAt? x = s.byteAt? x := rfl

@[simp] theorem startRun_stream (bs : List Byte) (s : State) : (State.startRun bs s).stream = memWriteBytes [] 0 bs := rfl
@[simp] theorem startRun_len (bs : List Byte) (s : State) : (State.startRun bs s).len = bs.length := rfl
@[simp] theorem startRun_tables (bs : List Byte) (s : State) : (State.startRun bs s).tables = s.tables := rfl
@[simp] theorem startRun_pos (bs : List Byte) (s : State) : (State.startRun bs s).pos = 0 := rfl
@[simp] theorem startRun_phase (bs : List Byte) (s : State) : (State.startRun bs s).phase = .readOpcode := rfl
@[simp] theorem startRun_out (bs : List Byte) (s : State) : (State.startRun bs s).out = [] := rfl
@[simp] theorem startRun_err (bs : List Byte) (s : State) : (State.startRun bs s).err = none := rfl
@[simp] theorem startRun_start (bs : List Byte) (s : State) : (State.startRun bs s).start = 0 := rfl
@[simp] theorem startRun_cur (bs : List Byte) (s : State) : (State.startRun bs s).cur = Latches.reset := rfl

end Sys2Proof.Machine
end

