-- ==== Sys2Proof/Laws/Operands.lean ====
section
/-! SUPPORT. The cursor: for NextByte, Need, Need16, ResolveRM and ReadImm, all that each can do, and what each answers
on bytes that stand at the cursor. -/

namespace Sys2Proof.Machine
/-! ## The cursor -/

/-- All that NextByte can do. -/
theorem nextByte_eq (s : State) : nextByte s = (s.byteAt? s.pos).map fun b => (b, { s with pos := s.pos + 1 }) := by
  unfold nextByte State.byteAt?; split <;> rfl

theorem need_of_byteAt? {s : State} {b : Byte} (h : s.byteAt? s.pos = some b) :
    need s = .ok (b, { s with pos := s.pos + 1 }) := by
  simp [need, nextByte_eq, h]

theorem need_of_end {s : State} (h : s.len ≤ s.pos) : need s = .error (raiseTruncated s) := by
  simp [need, nextByte_eq, (byteAt?_eq_none s s.pos).mpr h]

/-- All that Need can do. -/
theorem need_cases (s : State) :
    (∃ b, s.byteAt? s.pos = some b ∧ need s = .ok (b, { s with pos := s.pos + 1 })) ∨
    (s.len ≤ s.pos ∧ need s = .error (raiseTruncated s)) := by
  cases h : s.byteAt? s.pos with
  | none => exact .inr ⟨(byteAt?_eq_none s _).mp h, need_of_end ((byteAt?_eq_none s _).mp h)⟩
  | some b => exact .inl ⟨b, rfl, need_of_byteAt? h⟩

theorem raiseTruncated_at_end {s : State} (h : s.pos = s.len) :
    raiseTruncated s = raiseTruncated { s with pos := s.len } := by
  cases s; cases h; rfl

/-- All that Need16 can do, from a cursor inside the stream. -/
theorem need16_cases (s : State) (hp : s.pos ≤ s.len) :
    (∃ lo hi, s.byteAt? s.pos = some lo ∧ s.byteAt? (s.pos + 1) = some hi ∧
      need16 s = .ok (word16 lo hi, { s with pos := s.pos + 2 })) ∨
    (s.len < s.pos + 2 ∧ need16 s = .error (raiseTruncated { s with pos := s.len })) := by
  rcases need_cases s with ⟨lo, hlo, h1⟩ | ⟨hl, h1⟩
  · have hlt := ((byteAt?_eq_some s s.pos lo).mp hlo).1
    rcases need_cases { s with pos := s.pos + 1 } with ⟨hi, hhi, h2⟩ | ⟨hl, h2⟩
    · exact .inl ⟨lo, hi, hlo, hhi, by simp [need16, h1, h2]⟩
    · have he : s.pos + 1 = s.len := by simp at hl; omega
      refine .inr ⟨by omega, ?_⟩
      simp only [need16, h1, h2]
      rw [he]
  · have he : s.pos = s.len := by omega
    exact .inr ⟨by omega, by simp [need16, h1, raiseTruncated_at_end he]⟩

theorem need16_of_holds {s : State} {v : Word} (h : Holds s s.pos (wordBytes v)) :
    need16 s = .ok (v, { s with pos := s.pos + 2 }) := by
  obtain ⟨h1, h2, -⟩ := h
  have hlt := ((byteAt?_eq_some s _ _).mp h1).1
  rcases need16_cases s (by omega) with ⟨lo, hi, hlo, hhi, he⟩ | ⟨hl, -⟩
  · rw [h1] at hlo; rw [h2] at hhi
    cases hlo; cases hhi
    rw [he, word16_bytes]
  · have := ((byteAt?_eq_some s _ _).mp h2).1
    omega

/-! ## The operand resolver and the immediate reader -/

/-- ResolveRM on the bytes of an r/m operand. -/
theorem resolveRm_of_holds {s : State} (rm : Rm) (w : Bool) (hw : rm.wellFormed = true)
    (h : Holds s s.pos rm.bytes) :
    resolveRm rm.modBits rm.rmBits w s = .ok (rmOperand w rm, { s with pos := s.pos + rm.bytes.length }) := by
  cases rm with
  | reg r => rfl
  | direct a => simp [resolveRm, Rm.modBits, Rm.rmBits, Rm.bytes, need16_of_holds h, Except.map, rmOperand, wordBytes]
  | noDisp r => simp [Rm.wellFormed] at hw; simp [resolveRm, Rm.modBits, Rm.rmBits, Rm.bytes, hw, rmOperand]
  | disp8 r d => simp [resolveRm, Rm.modBits, Rm.rmBits, Rm.bytes, need_of_byteAt? h.1, Except.map, rmOperand]
  | disp16 r d => simp [resolveRm, Rm.modBits, Rm.rmBits, Rm.bytes, need16_of_holds h, Except.map, rmOperand, wordBytes]

/-- The cursor-level and the byte-level resolver read the same bytes: with enough of them, an r/m operand stands at the
cursor; with too few, the run fails with all of them consumed. -/
theorem resolveRm_cases (mod : BitVec 2) (rmb : BitVec 3) (w : Bool) (s : State) (hp : s.pos ≤ s.len) :
    (∃ rm : Rm, rm.wellFormed = true ∧ rm.modBits = mod ∧ rm.rmBits = rmb ∧ Holds s s.pos rm.bytes ∧
      resolveRm mod rmb w s = .ok (rmOperand w rm, { s with pos := s.pos + rm.bytes.length })) ∨
    (s.len < s.pos + dispLen mod rmb ∧
      resolveRm mod rmb w s = .error (raiseTruncated { s with pos := s.len })) := by
  by_cases h3 : mod = 3
  · subst h3; exact .inl ⟨.reg rmb, rfl, rfl, rfl, trivial, rfl⟩
  by_cases h0 : mod = 0
  · subst h0
    by_cases h6 : rmb = 6#3
    · subst h6
      rcases need16_cases s hp with ⟨lo, hi, hlo, hhi, he⟩ | ⟨hl, he⟩
      · refine .inl ⟨.direct (word16 lo hi), rfl, rfl, rfl, ?_, ?_⟩
        · simpa [Rm.bytes, wordBytes_word16, Holds] using ⟨hlo, hhi⟩
        · simp [resolveRm, he, Except.map, rmOperand, Rm.bytes, wordBytes]
      · exact .inr ⟨by simpa [dispLen] using hl, by simp [resolveRm, he, Except.map]⟩
    · exact .inl ⟨.noDisp rmb, by simp [Rm.wellFormed, h6], rfl, rfl, trivial, by simp [resolveRm, h6, rmOperand, Rm.bytes]⟩
  by_cases h1 : mod = 1
  · subst h1
    rcases need_cases s with ⟨b, hb, he⟩ | ⟨hl, he⟩
    · exact .inl ⟨.disp8 rmb b, rfl, rfl, rfl, ⟨hb, trivial⟩, by simp [resolveRm, he, Except.map, rmOperand, Rm.bytes]⟩
    · have hpl : s.pos = s.len := by omega
      exact .inr ⟨by simp [dispLen]; omega, by simp [resolveRm, he, Except.map, raiseTruncated_at_end hpl]⟩
  · have := mod_eq_two h3 h0 h1
    subst this
    rcases need16_cases s hp with ⟨lo, hi, hlo, hhi, he⟩ | ⟨hl, he⟩
    · refine .inl ⟨.disp16 rmb (word16 lo hi), rfl, rfl, rfl, ?_, ?_⟩
      · simpa [Rm.bytes, wordBytes_word16, Holds] using ⟨hlo, hhi⟩
      · simp [resolveRm, he, Except.map, rmOperand, Rm.bytes, wordBytes]
    · exact .inr ⟨by simpa [dispLen] using hl, by simp [resolveRm, he, Except.map]⟩

/-- ReadImm on the bytes of an immediate. -/
theorem readImm_of_holds {s : State} (w sx : Bool) (imm : Imm) (hw : imm.wellFormed sx w = true)
    (h : Holds s s.pos imm.bytes) :
    readImm w sx s = .ok (immValue imm, { s with pos := s.pos + imm.bytes.length }) := by
  cases imm with
  | imm8 b =>
    cases w <;> cases sx <;> simp [Imm.wellFormed] at hw <;>
      simp [readImm, need_of_byteAt? h.1, Except.map, immValue, Imm.bytes]
  | imm16 v =>
    cases w <;> cases sx <;> simp [Imm.wellFormed] at hw
    simp [readImm, need16_of_holds h, Except.map, immValue, Imm.bytes, wordBytes]

/-- All that ReadImm can do: an immediate stands at the cursor, or the run fails with every byte consumed. -/
theorem readImm_cases (w sx : Bool) (s : State) (hp : s.pos ≤ s.len) :
    (∃ imm : Imm, imm.wellFormed sx w = true ∧ Holds s s.pos imm.bytes ∧
      readImm w sx s = .ok (immValue imm, { s with pos := s.pos + imm.bytes.length })) ∨
    (s.len < s.pos + immLen w sx ∧ readImm w sx s = .error (raiseTruncated { s with pos := s.len })) := by
  by_cases hi : w = false ∨ sx = true
  · have hr : readImm w sx s = (need s).map fun p => (signed8 p.1, p.2) := by
      rcases hi with rfl | rfl
      · rfl
      · cases w <;> rfl
    rcases need_cases s with ⟨b, hb, he⟩ | ⟨hl, he⟩
    · exact .inl ⟨.imm8 b, by simpa [Imm.wellFormed] using hi, ⟨hb, trivial⟩,
        by simp [hr, he, Except.map, immValue, Imm.bytes]⟩
    · have hpl : s.pos = s.len := by omega
      exact .inr ⟨by simp [immLen, hi]; omega, by simp [hr, he, Except.map, raiseTruncated_at_end hpl]⟩
  · obtain ⟨rfl, rfl⟩ : w = true ∧ sx = false := by simpa using hi
    rcases need16_cases s hp with ⟨lo, hi', hlo, hhi, he⟩ | ⟨hl, he⟩
    · refine .inl ⟨.imm16 (word16 lo hi'), rfl, ?_, ?_⟩
      · simpa [Imm.bytes, wordBytes_word16, Holds] using ⟨hlo, hhi⟩
      · simp [readImm, he, Except.map, immValue, Imm.bytes, wordBytes]
    · exact .inr ⟨by simpa [immLen] using hl, by simp [readImm, he, Except.map]⟩

/-! ## What a cursor operation changes -/

/-- A cursor operation moves the cursor on, and where it fails it raises a truncation; it does nothing else. -/
def Reads {α : Type} (s : State) (r : Except State (α × State)) : Prop :=
  ∃ p, s.pos ≤ p ∧ ((∃ x, r = .ok (x, { s with pos := p })) ∨ r = .error (raiseTruncated { s with pos := p }))

theorem Reads.map {α β : Type} {s : State} {r : Except State (α × State)} (f : α → β) (h : Reads s r) :
    Reads s (r.map fun p => (f p.1, p.2)) := by
  obtain ⟨p, hp, ⟨x, rfl⟩ | rfl⟩ := h
  · exact ⟨p, hp, .inl ⟨f x, rfl⟩⟩
  · exact ⟨p, hp, .inr rfl⟩

theorem need_reads (s : State) : Reads s (need s) := by
  rcases need_cases s with ⟨b, _, h⟩ | ⟨_, h⟩
  · exact ⟨_, Nat.le_succ _, .inl ⟨b, h⟩⟩
  · exact ⟨s.pos, Nat.le_refl _, .inr h⟩

theorem need16_reads (s : State) : Reads s (need16 s) := by
  rcases need_cases s with ⟨lo, _, h1⟩ | ⟨_, h1⟩
  · rcases need_cases { s with pos := s.pos + 1 } with ⟨hi, _, h2⟩ | ⟨_, h2⟩
    · exact ⟨s.pos + 2, by omega, .inl ⟨word16 lo hi, by simp [need16, h1, h2]⟩⟩
    · exact ⟨s.pos + 1, by omega, .inr (by simp [need16, h1, h2])⟩
  · exact ⟨s.pos, Nat.le_refl _, .inr (by simp [need16, h1])⟩

theorem resolveRm_reads (mod : BitVec 2) (rm : BitVec 3) (w : Bool) (s : State) :
    Reads s (resolveRm mod rm w s) := by
  unfold resolveRm
  split
  · exact ⟨s.pos, Nat.le_refl _, .inl ⟨_, rfl⟩⟩
  split
  · exact (need16_reads s).map _
  split
  · exact ⟨s.pos, Nat.le_refl _, .inl ⟨_, rfl⟩⟩
  split
  · exact (need_reads s).map fun d => Operand.memoryIndexed rm (some (signed8 d))
  · exact (need16_reads s).map fun d => Operand.memoryIndexed rm (some (signed16 d))

theorem readImm_reads (w sx : Bool) (s : State) : Reads s (readImm w sx s) := by
  unfold readImm
  split
  · exact (need_reads s).map _
  split
  · exact (need_reads s).map _
  · exact (need16_reads s).map _

end Sys2Proof.Machine
end

