-- ==== Sys2Proof/Laws/Step.lean ====
section
/-! SUPPORT. Whole instructions and phases: all that `complete` can do, the meaning of every instruction as one
completion (`exec_eq`), and the transitions of the seven-state machine. -/

namespace Sys2Proof.Machine
/-! ## Completing a whole instruction -/

/-- `complete` at an instruction boundary, with every byte in the stream. -/
theorem complete_next {n : Nat} {s : State} (latch : Latches → Latches) (i : Instruction)
    (hp : s.phase = .readOpcode) (hn : 0 < n) (hl : s.pos + n ≤ s.len) :
    complete n latch i s = .next (emit i { s with pos := s.pos + n, start := s.pos, cur := latch s.cur }) := by
  rw [complete, hp]
  simp only
  rw [if_neg (by omega), if_pos hl]

/-- `complete` at an instruction boundary, with the opcode byte in the stream and the last byte not. -/
theorem complete_truncated {n : Nat} {s : State} (latch : Latches → Latches) (i : Instruction)
    (hp : s.phase = .readOpcode) (h0 : s.pos < s.len) (hl : s.len < s.pos + n) :
    complete n latch i s = .next (raiseTruncated { s with pos := s.len, start := s.pos }) := by
  rw [complete, hp]
  simp only
  rw [if_neg (by omega), if_neg (by omega)]

/-- All that `complete` can do when it answers a next state: nothing outside an instruction boundary, and there the
instruction, the normal end, or the truncation. -/
theorem complete_cases {n : Nat} {s t : State} {latch : Latches → Latches} {i : Instruction}
    (h : complete n latch i s = .next t) : s.phase = .readOpcode ∧
    ((s.pos < s.len ∧ s.pos + n ≤ s.len ∧
        t = emit i { s with pos := s.pos + n, start := s.pos, cur := latch s.cur }) ∨
      (s.len ≤ s.pos ∧ t = endRun s) ∨
      (s.pos < s.len ∧ s.len < s.pos + n ∧ t = raiseTruncated { s with pos := s.len, start := s.pos })) := by
  unfold complete at h
  cases hp : s.phase <;> simp only [hp] at h <;> try cases h
  refine ⟨rfl, ?_⟩
  split at h
  · cases h; exact .inr (.inl ⟨by omega, rfl⟩)
  · split at h <;> cases h
    · exact .inl ⟨by omega, by omega, rfl⟩
    · exact .inr (.inr ⟨by omega, by omega, rfl⟩)

/-- The `Instruction` that an encoded instruction decodes to. -/
def decodedOf : Instr → Instruction
  | .movRm d w reg rm => ⟨.mov, rmRegOperands d (.register (widthOf w) reg) (rmOperand w rm)⟩
  | .addRm d w reg rm => ⟨.add, rmRegOperands d (.register (widthOf w) reg) (rmOperand w rm)⟩
  | .subRm d w reg rm => ⟨.sub, rmRegOperands d (.register (widthOf w) reg) (rmOperand w rm)⟩
  | .cmpRm d w reg rm => ⟨.cmp, rmRegOperands d (.register (widthOf w) reg) (rmOperand w rm)⟩
  | .movImm w oreg imm => ⟨.mov, [.register (widthOf w) oreg, immOperand w (immValue imm)]⟩
  | .addImm _ w rm imm => ⟨.add, [rmOperand w rm, immOperand w (immValue imm)]⟩
  | .subImm _ w rm imm => ⟨.sub, [rmOperand w rm, immOperand w (immValue imm)]⟩
  | .cmpImm _ w rm imm => ⟨.cmp, [rmOperand w rm, immOperand w (immValue imm)]⟩
  | .addAcc w imm => ⟨.add, [.register (widthOf w) 0, immOperand w (immValue imm)]⟩
  | .subAcc w imm => ⟨.sub, [.register (widthOf w) 0, immOperand w (immValue imm)]⟩
  | .cmpAcc w imm => ⟨.cmp, [.register (widthOf w) 0, immOperand w (immValue imm)]⟩
  | .jo off => ⟨.conditionalJump 0, jumpOperands (signed8 off)⟩
  | .jno off => ⟨.conditionalJump 1, jumpOperands (signed8 off)⟩
  | .jb off => ⟨.conditionalJump 2, jumpOperands (signed8 off)⟩
  | .jnb off => ⟨.conditionalJump 3, jumpOperands (signed8 off)⟩
  | .je off => ⟨.conditionalJump 4, jumpOperands (signed8 off)⟩
  | .jne off => ⟨.conditionalJump 5, jumpOperands (signed8 off)⟩
  | .jbe off => ⟨.conditionalJump 6, jumpOperands (signed8 off)⟩
  | .jnbe off => ⟨.conditionalJump 7, jumpOperands (signed8 off)⟩
  | .js off => ⟨.conditionalJump 8, jumpOperands (signed8 off)⟩
  | .jns off => ⟨.conditionalJump 9, jumpOperands (signed8 off)⟩
  | .jp off => ⟨.conditionalJump 10, jumpOperands (signed8 off)⟩
  | .jnp off => ⟨.conditionalJump 11, jumpOperands (signed8 off)⟩
  | .jl off => ⟨.conditionalJump 12, jumpOperands (signed8 off)⟩
  | .jnl off => ⟨.conditionalJump 13, jumpOperands (signed8 off)⟩
  | .jle off => ⟨.conditionalJump 14, jumpOperands (signed8 off)⟩
  | .jnle off => ⟨.conditionalJump 15, jumpOperands (signed8 off)⟩
  | .loopnz off => ⟨.loopVariant 0, jumpOperands (signed8 off)⟩
  | .loopz off => ⟨.loopVariant 1, jumpOperands (signed8 off)⟩
  | .loop off => ⟨.loopVariant 2, jumpOperands (signed8 off)⟩
  | .jcxz off => ⟨.loopVariant 3, jumpOperands (signed8 off)⟩

/-- What the latches hold after a register/memory form. -/
def latchRm (t : Tables) (c : OpClass) (w : Bool) (reg : BitVec 3) (rm : Rm) (l : Latches) : Latches :=
  latchRmop (rmOperand w rm) (latchModrm (modrmByte rm.modBits reg rm.rmBits) (latchHead t c l))

/-- What the latches hold after an immediate-to-register/memory form. -/
def latchAlu (t : Tables) (op : AluOp) (sx w : Bool) (rm : Rm) (imm : Imm) (l : Latches) : Latches :=
  latchImm (immValue imm) (latchRmop (rmOperand w rm) (latchMn (aluMnemonic op)
    (latchModrm (modrmByte rm.modBits (aluSubop t op) rm.rmBits) (latchHead t (.aluImmRm sx w) l))))

/-- What the latches hold after an instruction. -/
def latchOf (t : Tables) : Instr → Latches → Latches
  | .movRm d w reg rm => latchRm t (.movRm d w) w reg rm
  | .addRm d w reg rm => latchRm t (.addRm d w) w reg rm
  | .subRm d w reg rm => latchRm t (.subRm d w) w reg rm
  | .cmpRm d w reg rm => latchRm t (.cmpRm d w) w reg rm
  | .movImm w oreg imm => fun l => latchImm (immValue imm) (latchHead t (.movImmReg w oreg) l)
  | .addImm sx w rm imm => latchAlu t .add sx w rm imm
  | .subImm sx w rm imm => latchAlu t .sub sx w rm imm
  | .cmpImm sx w rm imm => latchAlu t .cmp sx w rm imm
  | .addAcc w imm => fun l => latchImm (immValue imm) (latchHead t (.aluImmAcc .add w) l)
  | .subAcc w imm => fun l => latchImm (immValue imm) (latchHead t (.aluImmAcc .sub w) l)
  | .cmpAcc w imm => fun l => latchImm (immValue imm) (latchHead t (.aluImmAcc .cmp w) l)
  | .jo off => fun l => latchImm (signed8 off) (latchHead t (.jcc 0) l)
  | .jno off => fun l => latchImm (signed8 off) (latchHead t (.jcc 1) l)
  | .jb off => fun l => latchImm (signed8 off) (latchHead t (.jcc 2) l)
  | .jnb off => fun l => latchImm (signed8 off) (latchHead t (.jcc 3) l)
  | .je off => fun l => latchImm (signed8 off) (latchHead t (.jcc 4) l)
  | .jne off => fun l => latchImm (signed8 off) (latchHead t (.jcc 5) l)
  | .jbe off => fun l => latchImm (signed8 off) (latchHead t (.jcc 6) l)
  | .jnbe off => fun l => latchImm (signed8 off) (latchHead t (.jcc 7) l)
  | .js off => fun l => latchImm (signed8 off) (latchHead t (.jcc 8) l)
  | .jns off => fun l => latchImm (signed8 off) (latchHead t (.jcc 9) l)
  | .jp off => fun l => latchImm (signed8 off) (latchHead t (.jcc 10) l)
  | .jnp off => fun l => latchImm (signed8 off) (latchHead t (.jcc 11) l)
  | .jl off => fun l => latchImm (signed8 off) (latchHead t (.jcc 12) l)
  | .jnl off => fun l => latchImm (signed8 off) (latchHead t (.jcc 13) l)
  | .jle off => fun l => latchImm (signed8 off) (latchHead t (.jcc 14) l)
  | .jnle off => fun l => latchImm (signed8 off) (latchHead t (.jcc 15) l)
  | .loopnz off => fun l => latchImm (signed8 off) (latchHead t (.loop 0) l)
  | .loopz off => fun l => latchImm (signed8 off) (latchHead t (.loop 1) l)
  | .loop off => fun l => latchImm (signed8 off) (latchHead t (.loop 2) l)
  | .jcxz off => fun l => latchImm (signed8 off) (latchHead t (.loop 3) l)

/-- The meaning of every instruction: one completion, of its length, its latches and its `Instruction`. -/
theorem exec_eq (i : Instr) (s : State) :
    exec i s = complete i.length (latchOf s.tables i) (decodedOf i) s := by
  cases i <;> rfl

/-! ## One transition of the seven-state machine -/

theorem phaseStep_readOpcode {s : State} {b : Byte} (hp : s.phase = .readOpcode) (h : s.byteAt? s.pos = some b) :
    phaseStep s = { s with pos := s.pos + 1, start := s.pos, cur := latchOp b s.cur, phase := .classify } := by
  simp [phaseStep, hp, doReadOpcode, nextByte_eq, h]

theorem phaseStep_readOpcode_end {s : State} (hp : s.phase = .readOpcode) (h : s.len ≤ s.pos) :
    phaseStep s = endRun s := by
  simp [phaseStep, hp, doReadOpcode, nextByte_eq, (byteAt?_eq_none s s.pos).mpr h]

theorem phaseStep_classify {s : State} {c : OpClass} (hp : s.phase = .classify) (h : classify s.tables s.cur.op = some c) :
    phaseStep s = { s with cur := latchClass c s.cur, phase := .resolveOperands } := by
  simp [phaseStep, hp, doClassify, h]

theorem phaseStep_classify_unsupported {s : State} (hp : s.phase = .classify) (h : classify s.tables s.cur.op = none) :
    phaseStep s = raiseOpcode s.cur.op s := by
  simp [phaseStep, hp, doClassify, h]

theorem phaseStep_emit {s : State} (hp : s.phase = .emit) :
    phaseStep s = emit (latchedInstruction s.cur) s := by
  simp [phaseStep, hp]

theorem phaseStep_terminal {s : State} (h : s.phase.terminal = true) : phaseStep s = s := by
  cases hp : s.phase <;> simp [hp, Phase.terminal] at h <;> simp [phaseStep, hp]

/-! ## Carrying an instruction to its end -/

theorem finishWithin_rest {n : Nat} {s : State} (h : (phaseStep s).phase.atRest = true) :
    finishWithin (n + 1) s = phaseStep s := by
  simp [finishWithin, h]

theorem finishWithin_busy {n : Nat} {s : State} (h : (phaseStep s).phase.atRest = false) :
    finishWithin (n + 1) s = finishWithin n (phaseStep s) := by
  simp [finishWithin, h]

/-! ## The rows of the transition table on bytes that stand at the cursor -/

/-- ReadOpcode and Classify on a supported opcode byte. -/
theorem phaseStep_head {s : State} {op : Byte} {c : OpClass} (hp : s.phase = .readOpcode)
    (h : s.byteAt? s.pos = some op) (hc : classify s.tables op = some c) :
    phaseStep s = { s with pos := s.pos + 1, start := s.pos, cur := latchOp op s.cur, phase := .classify } ∧
    phaseStep (phaseStep s) = { s with
      pos := s.pos + 1, start := s.pos, cur := latchHead s.tables c s.cur, phase := .resolveOperands } := by
  have h1 := phaseStep_readOpcode hp h
  refine ⟨h1, ?_⟩
  rw [h1, phaseStep_classify rfl (c := c) (by simpa [latchOp] using hc)]
  simp [latchHead, opByte_of_classify hc]

/-- ResolveOperands of the four register/memory forms is `DecodeRmReg`. -/
theorem resolveOperands_rm {s : State} (hf : s.cur.form ∈ [Form.addRm, .subRm, .cmpRm, .movRm]) :
    resolveOperands s = match readModrm s with
      | .error e => .error e
      | .ok s' => resolveLatched .emit s' := by
  simp only [List.mem_cons, List.not_mem_nil, or_false] at hf
  rcases hf with hf | hf | hf | hf <;> simp only [resolveOperands, hf] <;> rfl

/-- ResolveOperands of a register/memory form, with its bytes there. -/
theorem phaseStep_rm {s : State} {reg : BitVec 3} {rm : Rm} (hp : s.phase = .resolveOperands)
    (hf : s.cur.form ∈ [Form.addRm, .subRm, .cmpRm, .movRm]) (hw : rm.wellFormed = true)
    (h : Holds s s.pos (modrmByte rm.modBits reg rm.rmBits :: rm.bytes)) :
    phaseStep s = { s with
      pos := s.pos + 1 + rm.bytes.length
      cur := latchRmop (rmOperand s.cur.w rm) (latchModrm (modrmByte rm.modBits reg rm.rmBits) s.cur)
      phase := .emit } := by
  have h2 := resolveRm_of_holds
    (s := { s with pos := s.pos + 1, cur := latchModrm (modrmByte rm.modBits reg rm.rmBits) s.cur })
    rm s.cur.w hw (h.2.of_eq rfl rfl)
  simp only [phaseStep, hp, resolveOperands_rm hf, readModrm, need_of_byteAt? h.1, Except.map, resolveLatched]
  simp only [latchModrm, modField_modrmByte, rmField_modrmByte, hp] at h2 ⊢
  rw [h2]
  rfl

/-- ResolveOperands of an immediate-to-register/memory form with a supported sub-opcode, with its bytes there. -/
theorem phaseStep_aluImm {s : State} {op : AluOp} {rm : Rm} (hp : s.phase = .resolveOperands)
    (hf : s.cur.form = .aluImmRm) (hw : rm.wellFormed = true)
    (ho : aluOp? s.tables (aluSubop s.tables op) = some op)
    (h : Holds s s.pos (modrmByte rm.modBits (aluSubop s.tables op) rm.rmBits :: rm.bytes)) :
    phaseStep s = { s with
      pos := s.pos + 1 + rm.bytes.length
      cur := latchRmop (rmOperand s.cur.w rm) (latchMn (aluMnemonic op)
        (latchModrm (modrmByte rm.modBits (aluSubop s.tables op) rm.rmBits) s.cur))
      phase := .readImmediate } := by
  have h2 := resolveRm_of_holds
    (s := { s with
      pos := s.pos + 1
      cur := latchMn (aluMnemonic op) (latchModrm (modrmByte rm.modBits (aluSubop s.tables op) rm.rmBits) s.cur) })
    rm s.cur.w hw (h.2.of_eq rfl rfl)
  simp only [phaseStep, hp, resolveOperands, hf, readModrm, need_of_byteAt? h.1, Except.map, resolveLatched]
  simp only [latchModrm, latchMn, modField_modrmByte, rmField_modrmByte, regField_modrmByte, ho, hp]
    at h2 ⊢
  rw [h2]
  rfl

/-- ResolveOperands of a form without an addressing byte. -/
theorem phaseStep_noModrm {s : State} (hp : s.phase = .resolveOperands)
    (hf : s.cur.form ∈ [Form.aluImmAcc, .movImmReg, .jcc, .loop]) :
    phaseStep s = { s with phase := .readImmediate } := by
  simp only [List.mem_cons, List.not_mem_nil, or_false] at hf
  rcases hf with hf | hf | hf | hf <;> simp only [phaseStep, hp, resolveOperands, hf, settle]

/-- ReadImmediate of a form with an immediate, with its bytes there. -/
theorem phaseStep_imm {s : State} {imm : Imm} (sx : Bool) (hp : s.phase = .readImmediate)
    (hf : (s.cur.form = .aluImmRm ∧ sx = s.cur.s) ∨ (sx = false ∧ s.cur.form ∈ [Form.aluImmAcc, .movImmReg]))
    (hw : imm.wellFormed sx s.cur.w = true) (h : Holds s s.pos imm.bytes) :
    phaseStep s = { s with
      pos := s.pos + imm.bytes.length, cur := latchImm (immValue imm) s.cur, phase := .emit } := by
  have h2 := readImm_of_holds s.cur.w sx imm hw h
  simp only [List.mem_cons, List.not_mem_nil, or_false] at hf
  rcases hf with ⟨hf, rfl⟩ | ⟨rfl, hf | hf⟩ <;>
    simp only [phaseStep, hp, readImmediate, hf, h2, Except.map, settle]

/-- ReadImmediate of a jump or loop, with its offset byte there. -/
theorem phaseStep_offset {s : State} {b : Byte} (hp : s.phase = .readImmediate)
    (hf : s.cur.form ∈ [Form.jcc, .loop]) (h : s.byteAt? s.pos = some b) :
    phaseStep s = { s with pos := s.pos + 1, cur := latchImm (signed8 b) s.cur, phase := .emit } := by
  have h2 := need_of_byteAt? h
  simp only [List.mem_cons, List.not_mem_nil, or_false] at hf
  rcases hf with hf | hf <;> simp only [phaseStep, hp, readImmediate, hf, h2, Except.map, settle]

/-! ## What a transition can do -/

/-- The states that a transition can lead to (49_decode_loop R171). -/
def Phase.successors : Phase → List Phase
  | .readOpcode => [.classify, .done]
  | .classify => [.resolveOperands, .failed]
  | .resolveOperands => [.readImmediate, .emit, .failed]
  | .readImmediate => [.emit, .failed]
  | .emit => [.readOpcode]
  | .done => [.done]
  | .failed => [.failed]

/-- What a transition other than Emit leaves alone: the stream, the tables and the output; the cursor does not go back, and the
diagnostic changes only on the way into Failed. -/
def TransitionFrame (s t : State) : Prop :=
  s.pos ≤ t.pos ∧ t.phase ∈ s.phase.successors ∧ (t.err = s.err ∨ t.phase = .failed) ∧
    t = { s with pos := t.pos, phase := t.phase, err := t.err, start := t.start, cur := t.cur }

theorem transitionFrame_settle {α : Type} {s u : State} {r : Except State (α × State)} {f : α × State → State}
    (h : Reads u r) (hu : u = { s with pos := u.pos, phase := u.phase, err := u.err, start := u.start, cur := u.cur })
    (hp : s.pos ≤ u.pos) (hf : .failed ∈ s.phase.successors)
    (hx : ∀ x p, s.pos ≤ p → TransitionFrame s (f (x, { u with pos := p }))) :
    TransitionFrame s (settle (r.map f)) := by
  obtain ⟨p, hle, ⟨x, rfl⟩ | rfl⟩ := h
  · exact hx x p (by omega)
  · refine ⟨Nat.le_trans hp hle, hf, .inr rfl, ?_⟩
    rw [hu]; rfl

/-- All that a transition other than Emit can do. -/
theorem phaseStep_frame (s : State) (h : s.phase ≠ .emit) : TransitionFrame s (phaseStep s) := by
  cases hp : s.phase
  case emit => exact absurd hp h
  case done | failed =>
    rw [phaseStep_terminal (by rw [hp]; rfl)]
    exact ⟨Nat.le_refl _, by rw [hp]; simp [Phase.successors], .inl rfl, rfl⟩
  case readOpcode =>
    rcases hb : s.byteAt? s.pos with _ | b
    · rw [phaseStep_readOpcode_end hp ((byteAt?_eq_none _ _).mp hb)]
      exact ⟨Nat.le_refl _, by rw [hp]; simp [Phase.successors, endRun], .inl rfl, rfl⟩
    · rw [phaseStep_readOpcode hp hb]
      exact ⟨Nat.le_succ _, by rw [hp]; simp [Phase.successors], .inl rfl, rfl⟩
  case classify =>
    rcases hc : classify s.tables s.cur.op with _ | c
    · rw [phaseStep_classify_unsupported hp hc]
      exact ⟨Nat.le_refl _, by rw [hp]; simp [Phase.successors, raiseOpcode, raise], .inr rfl, rfl⟩
    · rw [phaseStep_classify hp hc]
      exact ⟨Nat.le_refl _, by rw [hp]; simp [Phase.successors], .inl rfl, rfl⟩
  case readImmediate =>
    have hf : .failed ∈ s.phase.successors := by simp [hp, Phase.successors]
    have hx : ∀ (l : Latches) (p : Nat), s.pos ≤ p → TransitionFrame s { s with pos := p, cur := l, phase := .emit } :=
      fun l p hle => ⟨hle, by simp [hp, Phase.successors], .inl rfl, rfl⟩
    simp only [phaseStep, hp, readImmediate]
    split
    all_goals first
      | exact transitionFrame_settle (readImm_reads _ _ s) rfl (Nat.le_refl _) hf fun _ p hle => hx _ p hle
      | exact transitionFrame_settle (need_reads s) rfl (Nat.le_refl _) hf fun _ p hle => hx _ p hle
      | exact hx s.cur s.pos (Nat.le_refl _)
  case resolveOperands =>
    have hf : .failed ∈ s.phase.successors := by simp [hp, Phase.successors]
    have hx : ∀ (l : Latches) (p : Nat) (ph : Phase), ph = .emit ∨ ph = .readImmediate → s.pos ≤ p →
        TransitionFrame s { s with pos := p, cur := l, phase := ph } :=
      fun l p ph h hle => ⟨hle, by rcases h with rfl | rfl <;> simp [hp, Phase.successors], .inl rfl, rfl⟩
    simp only [phaseStep, hp, resolveOperands, readModrm]
    rcases need_cases s with ⟨b, _, h⟩ | ⟨_, h⟩
    · rw [h]; simp only [Except.map]
      split
      case h_5 =>
        split
        · exact ⟨Nat.le_succ _, hf, .inr rfl, rfl⟩
        · exact transitionFrame_settle (resolveRm_reads _ _ _ _) rfl (Nat.le_succ _) hf
            fun _ p hle => hx _ p _ (.inr rfl) hle
      all_goals first
        | exact transitionFrame_settle (resolveRm_reads _ _ _ _) rfl (Nat.le_succ _) hf
            fun _ p hle => hx _ p _ (.inl rfl) hle
        | exact hx s.cur s.pos _ (.inr rfl) (Nat.le_refl _)
    · rw [h]; simp only [Except.map]
      split
      all_goals first
        | exact ⟨Nat.le_refl _, hf, .inr rfl, rfl⟩
        | exact hx s.cur s.pos _ (.inr rfl) (Nat.le_refl _)

theorem phaseStep_successors (s : State) : (phaseStep s).phase ∈ s.phase.successors := by
  by_cases h : s.phase = .emit
  · rw [phaseStep_emit h, h]; simp [Phase.successors, emit]
  · exact (phaseStep_frame s h).2.1

/-- No transition writes STREAM, LEN or the tables. -/
theorem phaseStep_stream (s : State) : (phaseStep s).stream = s.stream ∧ (phaseStep s).len = s.len ∧ (phaseStep s).tables = s.tables := by
  by_cases h : s.phase = .emit
  · rw [phaseStep_emit h]; exact ⟨rfl, rfl, rfl⟩
  · obtain ⟨_, _, _, h⟩ := phaseStep_frame s h
    rw [h]; exact ⟨rfl, rfl, rfl⟩

/-! ## What `finish` can do -/

/-- A property that every transition keeps holds after `finishWithin`. -/
theorem finishWithin_keeps (P : State → Prop) (hP : ∀ s, P s → P (phaseStep s)) (n : Nat) (s : State) (h : P s) :
    P (finishWithin n s) := by
  induction n generalizing s with
  | zero => exact h
  | succ n ih =>
    simp only [finishWithin]; split
    · exact hP s h
    · exact ih _ (hP s h)

/-- `finishWithin` is a number of transitions, none of them but the last coming to rest. -/
theorem finishWithin_eq_phaseRun (n : Nat) (s : State) :
    ∃ k, k ≤ n ∧ finishWithin n s = phaseRun k s ∧
      (∀ m, 1 ≤ m → m < k → (phaseRun m s).phase.atRest = false) ∧
      (k = n ∨ (1 ≤ k ∧ (phaseRun k s).phase.atRest = true)) := by
  induction n generalizing s with
  | zero => exact ⟨0, Nat.le_refl _, rfl, fun m h1 h2 => by omega, .inl rfl⟩
  | succ n ih =>
    by_cases h : (phaseStep s).phase.atRest = true
    · exact ⟨1, by omega, by simp [finishWithin, h, phaseRun], fun m h1 h2 => by omega, .inr ⟨Nat.le_refl _, h⟩⟩
    · obtain ⟨k, h1, h2, h3, h4⟩ := ih (phaseStep s)
      refine ⟨k + 1, by omega, by simp [finishWithin, h, phaseRun, h2], fun m hm hk => ?_, ?_⟩
      · match m with
        | 1 => show (phaseStep s).phase.atRest = false; simpa using h
        | m + 2 => exact h3 (m + 1) (by omega) (by omega)
      · rcases h4 with h4 | h4
        · exact .inl (by omega)
        · exact .inr ⟨by omega, h4.2⟩

/-- How many transitions are left, at most, until the loop is at rest. -/
def Phase.toRest : Phase → Nat
  | .readOpcode => 5
  | .classify => 4
  | .resolveOperands => 3
  | .readImmediate => 2
  | .emit | .done | .failed => 1

theorem finishWithin_atRest (n : Nat) (s : State) (h : s.phase.toRest ≤ n) :
    (finishWithin n s).phase.atRest = true := by
  induction n generalizing s with
  | zero => cases hp : s.phase <;> simp [hp, Phase.toRest] at h
  | succ n ih =>
    by_cases hr : (phaseStep s).phase.atRest = true
    · simp [finishWithin, hr]
    · simp only [finishWithin, hr]
      refine ih _ ?_
      have key : ∀ p q : Phase, q ∈ p.successors → q.atRest ≠ true → q.toRest < p.toRest := by
        intro p q; cases p <;> cases q <;> simp [Phase.successors, Phase.atRest, Phase.toRest]
      have := key _ _ (phaseStep_successors s) hr
      omega

/-- `finish` always comes to rest. -/
theorem finish_atRest (s : State) : (finish s).phase.atRest = true :=
  finishWithin_atRest 5 s (by cases s.phase <;> simp [Phase.toRest])

/-! ## The spec's operand tables, read from the stream -/

theorem dispLen_le (mod : BitVec 2) (rm : BitVec 3) : dispLen mod rm ≤ 2 := by revert mod rm; decide

theorem immLen_le (w sx : Bool) : immLen w sx ≤ 2 := by revert w sx; decide

/-- With enough bytes at an offset, an r/m operand stands there, and it is the operand of the table. -/
theorem exists_rm (s : State) (m : Byte) (w : Bool) (a : Nat) (ha : a ≤ s.len)
    (h : a + dispLen (modField m) (rmField m) ≤ s.len) :
    ∃ rm : Rm, rm.wellFormed = true ∧ rm.modBits = modField m ∧ rm.rmBits = rmField m ∧ Holds s a rm.bytes ∧
      rmOperand w rm = operandTable m w (memRead s.stream a) (memRead s.stream (a + 1)) := by
  rcases resolveRm_cases (modField m) (rmField m) w { s with pos := a } ha with ⟨rm, h1, h2, h3, h4, -⟩ | ⟨h1, -⟩
  · refine ⟨rm, h1, h2, h3, h4.of_eq rfl rfl, ?_⟩
    obtain ⟨h4, h5⟩ := (holds_iff s a _ ha).mp (h4.of_eq rfl rfl)
    have hword : ∀ v : Word, rm.bytes = wordBytes v →
        BitVec.ofNat 16 ((memRead s.stream a).toNat + 256 * (memRead s.stream (a + 1)).toNat) = v := by
      intro v hv
      simp only [hv] at h5
      have e0 := h5 0 (by simp [wordBytes])
      have e1 := h5 1 (by simp [wordBytes])
      simp only [wordBytes, Nat.add_zero, List.getElem_cons_zero, List.getElem_cons_succ] at e0 e1
      rw [e0, e1, loByte_toNat, hiByte_toNat]
      apply BitVec.eq_of_toNat_eq
      simp; omega
    cases rm with
    | reg r => simp [operandTable, ← h2, ← h3, Rm.modBits, Rm.rmBits, rmOperand, widthOf]
    | noDisp r =>
      simp only [Rm.wellFormed, bne_iff_ne, ne_eq] at h1
      simp [operandTable, ← h2, ← h3, Rm.modBits, Rm.rmBits, rmOperand, h1]
    | direct v => simp [operandTable, ← h2, ← h3, Rm.modBits, Rm.rmBits, rmOperand, hword v rfl]
    | disp8 r d =>
      have e0 := h5 0 (by simp [Rm.bytes])
      simp only [Rm.bytes, Nat.add_zero, List.getElem_cons_zero] at e0
      simp [operandTable, ← h2, ← h3, Rm.modBits, Rm.rmBits, rmOperand, signed8_eq_toInt, e0]
    | disp16 r v =>
      simp [operandTable, ← h2, ← h3, Rm.modBits, Rm.rmBits, rmOperand, signed16_eq_toInt, hword v rfl]
  · simp only at h1; omega

/-- With enough bytes at an offset, an immediate stands there, and it is the operand of the table. -/
theorem exists_imm (s : State) (w sx : Bool) (a : Nat) (ha : a ≤ s.len) (h : a + immLen w sx ≤ s.len) :
    ∃ imm : Imm, imm.wellFormed sx w = true ∧ Holds s a imm.bytes ∧
      immOperand w (immValue imm) = immediateTable w sx (memRead s.stream a) (memRead s.stream (a + 1)) := by
  rcases readImm_cases w sx { s with pos := a } ha with ⟨imm, h1, h4, -⟩ | ⟨h1, -⟩
  · refine ⟨imm, h1, h4.of_eq rfl rfl, ?_⟩
    obtain ⟨h4, h5⟩ := (holds_iff s a _ ha).mp (h4.of_eq rfl rfl)
    cases imm with
    | imm8 b =>
      have e0 := h5 0 (by simp [Imm.bytes])
      simp only [Imm.bytes, Nat.add_zero, List.getElem_cons_zero] at e0
      cases w <;> cases sx <;> simp [Imm.wellFormed] at h1 <;>
        simp [immOperand, immValue, immediateTable, widthOf, e0, signed8_eq_toInt]
    | imm16 v =>
      have e0 := h5 0 (by simp [Imm.bytes, wordBytes])
      have e1 := h5 1 (by simp [Imm.bytes, wordBytes])
      simp only [Imm.bytes, wordBytes, Nat.add_zero, List.getElem_cons_zero, List.getElem_cons_succ] at e0 e1
      cases w <;> cases sx <;> simp [Imm.wellFormed] at h1
      simp only [immOperand, immValue, immediateTable, widthOf, signed16_eq_toInt]
      rw [e0, e1, loByte_toNat, hiByte_toNat]
      congr 2
      apply BitVec.eq_of_toNat_eq
      simp; omega
  · simp only at h1; omega

end Sys2Proof.Machine
end

