-- ==== Sys2Proof/Laws/PerInstr.lean ====
section
/-! SUPPORT. Per instruction: the length of its bytes (30_encoding R60). -/

namespace Sys2Proof.Laws.EncodedLength

/-- A well-formed instruction has 2 to 6 bytes, as many as its encoding, under every table. -/
def Statement (i : Instr) : Prop :=
  i.wellFormed = true → (∀ t, (encode t i).length = i.length) ∧ 2 ≤ i.length ∧ i.length ≤ 6

theorem rm_bytes_length_le (rm : Rm) : rm.bytes.length ≤ 2 := by
  cases rm <;> simp [Rm.bytes, wordBytes]

theorem imm_bytes_length_bounds (imm : Imm) : 1 ≤ imm.bytes.length ∧ imm.bytes.length ≤ 2 := by
  cases imm <;> simp [Imm.bytes, wordBytes]

theorem all (i : Instr) : Statement i := by
  refine fun _ => ⟨fun t => encode_length t i, ?_⟩
  cases i with
  | movRm d w r rm | addRm d w r rm | subRm d w r rm | cmpRm d w r rm =>
    have := rm_bytes_length_le rm
    simp only [Instr.length]; omega
  | addImm x w rm imm | subImm x w rm imm | cmpImm x w rm imm =>
    have := rm_bytes_length_le rm
    have := imm_bytes_length_bounds imm
    simp only [Instr.length]; omega
  | movImm w r imm | addAcc w imm | subAcc w imm | cmpAcc w imm =>
    have := imm_bytes_length_bounds imm
    simp only [Instr.length]; omega
  | _ => simp [Instr.length]

theorem movRm (d w : Bool) (reg : BitVec 3) (rm : Rm) : Statement (.movRm d w reg rm) := all _
theorem addRm (d w : Bool) (reg : BitVec 3) (rm : Rm) : Statement (.addRm d w reg rm) := all _
theorem subRm (d w : Bool) (reg : BitVec 3) (rm : Rm) : Statement (.subRm d w reg rm) := all _
theorem cmpRm (d w : Bool) (reg : BitVec 3) (rm : Rm) : Statement (.cmpRm d w reg rm) := all _
theorem movImm (w : Bool) (oreg : BitVec 3) (imm : Imm) : Statement (.movImm w oreg imm) := all _
theorem addImm (s w : Bool) (rm : Rm) (imm : Imm) : Statement (.addImm s w rm imm) := all _
theorem subImm (s w : Bool) (rm : Rm) (imm : Imm) : Statement (.subImm s w rm imm) := all _
theorem cmpImm (s w : Bool) (rm : Rm) (imm : Imm) : Statement (.cmpImm s w rm imm) := all _
theorem addAcc (w : Bool) (imm : Imm) : Statement (.addAcc w imm) := all _
theorem subAcc (w : Bool) (imm : Imm) : Statement (.subAcc w imm) := all _
theorem cmpAcc (w : Bool) (imm : Imm) : Statement (.cmpAcc w imm) := all _
theorem jo (off : Byte) : Statement (.jo off) := all _
theorem jno (off : Byte) : Statement (.jno off) := all _
theorem jb (off : Byte) : Statement (.jb off) := all _
theorem jnb (off : Byte) : Statement (.jnb off) := all _
theorem je (off : Byte) : Statement (.je off) := all _
theorem jne (off : Byte) : Statement (.jne off) := all _
theorem jbe (off : Byte) : Statement (.jbe off) := all _
theorem jnbe (off : Byte) : Statement (.jnbe off) := all _
theorem js (off : Byte) : Statement (.js off) := all _
theorem jns (off : Byte) : Statement (.jns off) := all _
theorem jp (off : Byte) : Statement (.jp off) := all _
theorem jnp (off : Byte) : Statement (.jnp off) := all _
theorem jl (off : Byte) : Statement (.jl off) := all _
theorem jnl (off : Byte) : Statement (.jnl off) := all _
theorem jle (off : Byte) : Statement (.jle off) := all _
theorem jnle (off : Byte) : Statement (.jnle off) := all _
theorem loopnz (off : Byte) : Statement (.loopnz off) := all _
theorem loopz (off : Byte) : Statement (.loopz off) := all _
theorem loop (off : Byte) : Statement (.loop off) := all _
theorem jcxz (off : Byte) : Statement (.jcxz off) := all _

end Sys2Proof.Laws.EncodedLength
end

