-- ==== Sys2Proof/Tests/Slice0.lean ====
section
/-! SUPPORT. Tests: expected results from spec/ (the layouts of 30_encoding R59, the vectors of 95_test_vectors), and
for every statement with hypotheses a witness that meets them. -/

namespace Sys2Proof.Tests

open Sys2Proof.Machine

/-- A run at its start on the given stream. -/
def stream (bytes : List Byte) : State := State.startRun bytes State.reset

/-- The state after one step, where there is one. -/
def afterStep (s : State) : Option State :=
  match step s with
  | .next t => some t
  | _ => none

/-- The line of the first step on a stream, and the cursor after it. -/
def firstLine (bytes : List Byte) : Option (Text × Nat) :=
  (afterStep (stream bytes)).bind fun t => t.out.head?.map fun e => (e.2, t.pos)

/-- Where the first step on a stream ends: output, phase, diagnostic, cursor. -/
def firstEnd (bytes : List Byte) : Option (List (Instruction × Text) × Phase × Option Diagnostic × Nat) :=
  (afterStep (stream bytes)).map State.result

/-! ## Well-formedness: each check refuses a term -/

/-- R69, R72: `mod = 00` with `rm = 110` is the direct address. -/
theorem test_wf_noDisp : (Instr.movRm true true 0 (.noDisp 6)).wellFormed = false ∧
    (Instr.addImm false false (.noDisp 6) (.imm8 0)).wellFormed = false ∧
    (Instr.movRm true true 0 (.noDisp 5)).wellFormed = true := by decide

/-- R60: a word immediate with `s = 0` has two bytes. -/
theorem test_wf_imm8_for_word : (Instr.movImm true 0 (.imm8 5)).wellFormed = false ∧
    (Instr.subImm false true (.reg 0) (.imm8 5)).wellFormed = false ∧
    (Instr.subImm true true (.reg 0) (.imm8 5)).wellFormed = true := by decide

/-- R60: a byte immediate has one byte, and so has a sign-extended one. -/
theorem test_wf_imm16_for_byte : (Instr.addAcc false (.imm16 5)).wellFormed = false ∧
    (Instr.cmpImm true true (.reg 0) (.imm16 5)).wellFormed = false ∧
    (Instr.addAcc true (.imm16 5)).wellFormed = true := by decide

/-- Tables other than the defaults: two loop opcode bytes swapped, `cmp` at sub-opcode 1, another register name. -/
def otherTables : Tables := { defaultTables with
  loopOpcode := { loopnz := 0xE1, loopz := 0xE0, loop := 0xE2, jcxz := 0xF0 }
  aluSubop := { add := 0, sub := 5, cmp := 1 }
  reg16Name := defaultTables.reg16Name.set 3 "bX".toList }

/-- R52: no byte may have two readings: a loop opcode byte inside another pattern, two that are equal, two equal
sub-opcodes. -/
theorem test_unambiguous : unambiguous defaultTables = true ∧ unambiguous otherTables = true ∧
    unambiguous { defaultTables with loopOpcode := { loopnz := 0x75, loopz := 0xE1, loop := 0xE2, jcxz := 0xE3 } } = false ∧
    unambiguous { defaultTables with loopOpcode := { loopnz := 0xE3, loopz := 0xE1, loop := 0xE2, jcxz := 0xE3 } } = false ∧
    unambiguous { defaultTables with aluSubop := { add := 0, sub := 7, cmp := 7 } } = false := by decide

/-! ## Decoding: one word per constructor, written out from R59 -/

/-- MOV, `100010dw`: d=1, w=1; mod=10, reg=011, rm=011; disp16 0x8000. -/
theorem test_decode_movRm :
    decode defaultTables ([0b10001011, 0b10011011, 0x00, 0x80] ++ [0x55]) =
      .ok (.movRm true true 3 (.disp16 3 0x8000), [0x55]) ∧
    encode defaultTables (.movRm true true 3 (.disp16 3 0x8000)) = [0b10001011, 0b10011011, 0x00, 0x80] := by decide

/-- MOV, `1011wreg`: w=1, reg=100; imm16 0x0100. -/
theorem test_decode_movImm :
    decode defaultTables ([0b10111100, 0x00, 0x01] ++ [0x55]) =
      .ok (.movImm true 4 (.imm16 0x0100), [0x55]) ∧
    encode defaultTables (.movImm true 4 (.imm16 0x0100)) = [0b10111100, 0x00, 0x01] := by decide

/-- ADD, `000000dw`: d=1, w=0; mod=11, reg=011, rm=000. -/
theorem test_decode_addRm :
    decode defaultTables ([0b00000010, 0b11011000] ++ [0x55]) =
      .ok (.addRm true false 3 (.reg 0), [0x55]) ∧
    encode defaultTables (.addRm true false 3 (.reg 0)) = [0b00000010, 0b11011000] := by decide

/-- SUB, `001010dw`: d=0, w=1; mod=01, reg=010, rm=111; disp8 0xFE. -/
theorem test_decode_subRm :
    decode defaultTables ([0b00101001, 0b01010111, 0xFE] ++ [0x55]) =
      .ok (.subRm false true 2 (.disp8 7 0xFE), [0x55]) ∧
    encode defaultTables (.subRm false true 2 (.disp8 7 0xFE)) = [0b00101001, 0b01010111, 0xFE] := by decide

/-- CMP, `001110dw`: d=0, w=1; mod=00, reg=001, rm=110; address 0x1388. -/
theorem test_decode_cmpRm :
    decode defaultTables ([0b00111001, 0b00001110, 0x88, 0x13] ++ [0x55]) =
      .ok (.cmpRm false true 1 (.direct 0x1388), [0x55]) ∧
    encode defaultTables (.cmpRm false true 1 (.direct 0x1388)) = [0b00111001, 0b00001110, 0x88, 0x13] := by decide

/-- ADD immediate, `100000sw`: s=0, w=1; mod=00, sub-opcode 000, rm=110; address 0x0040; imm16 0x03E8. -/
theorem test_decode_addImm :
    decode defaultTables ([0b10000001, 0b00000110, 0x40, 0x00, 0xE8, 0x03] ++ [0x55]) =
      .ok (.addImm false true (.direct 0x0040) (.imm16 0x03E8), [0x55]) ∧
    encode defaultTables (.addImm false true (.direct 0x0040) (.imm16 0x03E8)) = [0b10000001, 0b00000110, 0x40, 0x00, 0xE8, 0x03] := by decide

/-- SUB immediate: s=1, w=1; mod=01, sub-opcode 101, rm=111; disp8 0x0A; imm8 0x03. -/
theorem test_decode_subImm :
    decode defaultTables ([0b10000011, 0b01101111, 0x0A, 0x03] ++ [0x55]) =
      .ok (.subImm true true (.disp8 7 0x0A) (.imm8 3), [0x55]) ∧
    encode defaultTables (.subImm true true (.disp8 7 0x0A) (.imm8 3)) = [0b10000011, 0b01101111, 0x0A, 0x03] := by decide

/-- CMP immediate: s=1, w=0; mod=00, sub-opcode 111, rm=001; imm8 0x05. -/
theorem test_decode_cmpImm :
    decode defaultTables ([0b10000010, 0b00111001, 0x05] ++ [0x55]) =
      .ok (.cmpImm true false (.noDisp 1) (.imm8 5), [0x55]) ∧
    encode defaultTables (.cmpImm true false (.noDisp 1) (.imm8 5)) = [0b10000010, 0b00111001, 0x05] := by decide

/-- ADD to accumulator, `0000010w`: w=0; imm8 0xFF. -/
theorem test_decode_addAcc :
    decode defaultTables ([0b00000100, 0xFF] ++ [0x55]) =
      .ok (.addAcc false (.imm8 0xFF), [0x55]) ∧
    encode defaultTables (.addAcc false (.imm8 0xFF)) = [0b00000100, 0xFF] := by decide

/-- SUB from accumulator, `0010110w`: w=1; imm16 0x1234. -/
theorem test_decode_subAcc :
    decode defaultTables ([0b00101101, 0x34, 0x12] ++ [0x55]) =
      .ok (.subAcc true (.imm16 0x1234), [0x55]) ∧
    encode defaultTables (.subAcc true (.imm16 0x1234)) = [0b00101101, 0x34, 0x12] := by decide

/-- CMP with accumulator, `0011110w`: w=1; imm16 0x8000. -/
theorem test_decode_cmpAcc :
    decode defaultTables ([0b00111101, 0x00, 0x80] ++ [0x55]) =
      .ok (.cmpAcc true (.imm16 0x8000), [0x55]) ∧
    encode defaultTables (.cmpAcc true (.imm16 0x8000)) = [0b00111101, 0x00, 0x80] := by decide

/-- `0111cccc` with cccc=0000 (R57). -/
theorem test_decode_jo :
    decode defaultTables [0b01110000, 0x80] = .ok (.jo 0x80, []) ∧ encode defaultTables (.jo 0x80) = [0b01110000, 0x80] := by decide

/-- `0111cccc` with cccc=0001 (R57). -/
theorem test_decode_jno :
    decode defaultTables [0b01110001, 0x87] = .ok (.jno 0x87, []) ∧ encode defaultTables (.jno 0x87) = [0b01110001, 0x87] := by decide

/-- `0111cccc` with cccc=0010 (R57). -/
theorem test_decode_jb :
    decode defaultTables [0b01110010, 0x8E] = .ok (.jb 0x8E, []) ∧ encode defaultTables (.jb 0x8E) = [0b01110010, 0x8E] := by decide

/-- `0111cccc` with cccc=0011 (R57). -/
theorem test_decode_jnb :
    decode defaultTables [0b01110011, 0x95] = .ok (.jnb 0x95, []) ∧ encode defaultTables (.jnb 0x95) = [0b01110011, 0x95] := by decide

/-- `0111cccc` with cccc=0100 (R57). -/
theorem test_decode_je :
    decode defaultTables [0b01110100, 0x9C] = .ok (.je 0x9C, []) ∧ encode defaultTables (.je 0x9C) = [0b01110100, 0x9C] := by decide

/-- `0111cccc` with cccc=0101 (R57). -/
theorem test_decode_jne :
    decode defaultTables [0b01110101, 0xA3] = .ok (.jne 0xA3, []) ∧ encode defaultTables (.jne 0xA3) = [0b01110101, 0xA3] := by decide

/-- `0111cccc` with cccc=0110 (R57). -/
theorem test_decode_jbe :
    decode defaultTables [0b01110110, 0xAA] = .ok (.jbe 0xAA, []) ∧ encode defaultTables (.jbe 0xAA) = [0b01110110, 0xAA] := by decide

/-- `0111cccc` with cccc=0111 (R57). -/
theorem test_decode_jnbe :
    decode defaultTables [0b01110111, 0xB1] = .ok (.jnbe 0xB1, []) ∧ encode defaultTables (.jnbe 0xB1) = [0b01110111, 0xB1] := by decide

/-- `0111cccc` with cccc=1000 (R57). -/
theorem test_decode_js :
    decode defaultTables [0b01111000, 0xB8] = .ok (.js 0xB8, []) ∧ encode defaultTables (.js 0xB8) = [0b01111000, 0xB8] := by decide

/-- `0111cccc` with cccc=1001 (R57). -/
theorem test_decode_jns :
    decode defaultTables [0b01111001, 0xBF] = .ok (.jns 0xBF, []) ∧ encode defaultTables (.jns 0xBF) = [0b01111001, 0xBF] := by decide

/-- `0111cccc` with cccc=1010 (R57). -/
theorem test_decode_jp :
    decode defaultTables [0b01111010, 0xC6] = .ok (.jp 0xC6, []) ∧ encode defaultTables (.jp 0xC6) = [0b01111010, 0xC6] := by decide

/-- `0111cccc` with cccc=1011 (R57). -/
theorem test_decode_jnp :
    decode defaultTables [0b01111011, 0xCD] = .ok (.jnp 0xCD, []) ∧ encode defaultTables (.jnp 0xCD) = [0b01111011, 0xCD] := by decide

/-- `0111cccc` with cccc=1100 (R57). -/
theorem test_decode_jl :
    decode defaultTables [0b01111100, 0xD4] = .ok (.jl 0xD4, []) ∧ encode defaultTables (.jl 0xD4) = [0b01111100, 0xD4] := by decide

/-- `0111cccc` with cccc=1101 (R57). -/
theorem test_decode_jnl :
    decode defaultTables [0b01111101, 0xDB] = .ok (.jnl 0xDB, []) ∧ encode defaultTables (.jnl 0xDB) = [0b01111101, 0xDB] := by decide

/-- `0111cccc` with cccc=1110 (R57). -/
theorem test_decode_jle :
    decode defaultTables [0b01111110, 0xE2] = .ok (.jle 0xE2, []) ∧ encode defaultTables (.jle 0xE2) = [0b01111110, 0xE2] := by decide

/-- `0111cccc` with cccc=1111 (R57). -/
theorem test_decode_jnle :
    decode defaultTables [0b01111111, 0xE9] = .ok (.jnle 0xE9, []) ∧ encode defaultTables (.jnle 0xE9) = [0b01111111, 0xE9] := by decide

/-- `111000cc` with cc=00 (R57). -/
theorem test_decode_loopnz :
    decode defaultTables [0b11100000, 0xFC] = .ok (.loopnz 0xFC, []) ∧ encode defaultTables (.loopnz 0xFC) = [0b11100000, 0xFC] := by decide

/-- `111000cc` with cc=01 (R57). -/
theorem test_decode_loopz :
    decode defaultTables [0b11100001, 0xFD] = .ok (.loopz 0xFD, []) ∧ encode defaultTables (.loopz 0xFD) = [0b11100001, 0xFD] := by decide

/-- `111000cc` with cc=10 (R57). -/
theorem test_decode_loop :
    decode defaultTables [0b11100010, 0xFE] = .ok (.loop 0xFE, []) ∧ encode defaultTables (.loop 0xFE) = [0b11100010, 0xFE] := by decide

/-- `111000cc` with cc=11 (R57). -/
theorem test_decode_jcxz :
    decode defaultTables [0b11100011, 0xFF] = .ok (.jcxz 0xFF, []) ∧ encode defaultTables (.jcxz 0xFF) = [0b11100011, 0xFF] := by decide

/-- R61, R62: the bytes beside the ranges of the opcode map are rejected by name. -/
theorem test_decode_unsupported :
    ∀ op ∈ ([0x06, 0x27, 0x2E, 0x37, 0x3E, 0x6F, 0x84, 0x87, 0x8C, 0xAF, 0xC0, 0xDF, 0xE4, 0xFF] : List Byte),
      decode defaultTables [op, 0xC0, 0x00, 0x00] = .error (.unsupportedOpcode op) := by decide

/-- R109, R192 (V8.23, V8.30): the sub-opcode is tested before any further byte is read. -/
theorem test_decode_subop : decode defaultTables [0x83, 0xC8] = .error (.unsupportedSubop 0xC8) ∧
    decode defaultTables [0x81, 0x0E, 0x00, 0x00] = .error (.unsupportedSubop 0x0E) ∧ decode defaultTables [0x83] = .error .truncated := by decide

/-- The opcode table's numbering: bit 0 is the least significant bit of the first byte; the bits above `nbits` are zero. -/
theorem test_decodeTableWord : decodeTableWord 16 0xD889 = some (.movRm false true 3 (.reg 0)) ∧
    decodeTableWord 8 0xB8 = some (.movImm true 0 (.imm16 0)) ∧
    decodeTableWord 16 0x3E83 = some (.cmpImm true true (.direct 0) (.imm8 0)) ∧
    decodeTableWord 8 0x90 = none := by decide

/-- R5, R20: the tables are arguments: what LOOP_OPCODE, ALU_SUBOP and a register name say decides. -/
theorem test_otherTables : decode otherTables [0xE0, 0x01] = .ok (.loopz 1, []) ∧
    decode otherTables [0xE3, 0x01] = .error (.unsupportedOpcode 0xE3) ∧
    decode otherTables [0x80, 0xCB, 0x05] = .ok (.cmpImm false false (.reg 3) (.imm8 5), []) ∧
    encode otherTables (.jcxz 1) = [0xF0, 0x01] ∧
    format otherTables ⟨.mov, [.register .word 3, .register .word 0]⟩ = "mov bX, ax".toList := by decide

/-! ## Steps: the vectors of 95_test_vectors -/

/-- V1.30. -/
theorem test_step_movRm : firstLine [0x8B, 0x9B, 0x00, 0x80] = some ("mov bx, [bp + di - 32768]".toList, 4) := by decide

/-- V1.21. -/
theorem test_step_movRm_swapped : firstLine [0x89, 0x0E, 0x01, 0x00] = some ("mov [1], cx".toList, 4) := by decide

/-- V2.10. -/
theorem test_step_movImm : firstLine [0xB8, 0x00, 0x80] = some ("mov ax, -32768".toList, 3) := by decide

/-- V2.6. -/
theorem test_step_movImm_byte : firstLine [0xB7, 0xFE] = some ("mov bh, -2".toList, 2) := by decide

/-- V3.15. -/
theorem test_step_addRm : firstLine [0x00, 0x00] = some ("add [bx + si], al".toList, 2) := by decide

/-- V3.16. -/
theorem test_step_subRm : firstLine [0x29, 0x57, 0xFE] = some ("sub [bx - 2], dx".toList, 3) := by decide

/-- V3.18. -/
theorem test_step_cmpRm : firstLine [0x3A, 0x8C, 0xD2, 0x04] = some ("cmp cl, [si + 1234]".toList, 4) := by decide

/-- V4.24. -/
theorem test_step_addImm : firstLine [0x81, 0x82, 0xFE, 0xFF, 0x00, 0x80] = some ("add word [bp + si - 2], -32768".toList, 6) := by decide

/-- V4.19. -/
theorem test_step_addImm_signExtended : firstLine [0x83, 0x07, 0xFF] = some ("add word [bx], -1".toList, 3) := by decide

/-- V4.25. -/
theorem test_step_subImm : firstLine [0x80, 0x2E, 0x34, 0x12, 0x01] = some ("sub byte [4660], 1".toList, 5) := by decide

/-- V4.29. -/
theorem test_step_cmpImm : firstLine [0x82, 0x3E, 0x00, 0x00, 0x00] = some ("cmp byte [0], 0".toList, 5) := by decide

/-- V5.3. -/
theorem test_step_addAcc : firstLine [0x05, 0x00, 0xFF] = some ("add ax, -256".toList, 3) := by decide

/-- V5.5. -/
theorem test_step_subAcc : firstLine [0x2C, 0x05] = some ("sub al, 5".toList, 2) := by decide

/-- V5.8. -/
theorem test_step_cmpAcc : firstLine [0x3C, 0x80] = some ("cmp al, -128".toList, 2) := by decide

/-- V6.1. -/
theorem test_step_jo : firstLine [0x70, 0x00] = some ("jo 0".toList, 2) := by decide

/-- V6.2. -/
theorem test_step_jno : firstLine [0x71, 0xFF] = some ("jno -1".toList, 2) := by decide

/-- V6.3. -/
theorem test_step_jb : firstLine [0x72, 0x05] = some ("jb 5".toList, 2) := by decide

/-- V6.4. -/
theorem test_step_jnb : firstLine [0x73, 0xFB] = some ("jnb -5".toList, 2) := by decide

/-- V6.5. -/
theorem test_step_je : firstLine [0x74, 0x80] = some ("je -128".toList, 2) := by decide

/-- V6.6. -/
theorem test_step_jne : firstLine [0x75, 0x7F] = some ("jne 127".toList, 2) := by decide

/-- V6.7. -/
theorem test_step_jbe : firstLine [0x76, 0xFE] = some ("jbe -2".toList, 2) := by decide

/-- V6.8. -/
theorem test_step_jnbe : firstLine [0x77, 0x02] = some ("jnbe 2".toList, 2) := by decide

/-- V6.9. -/
theorem test_step_js : firstLine [0x78, 0x00] = some ("js 0".toList, 2) := by decide

/-- V6.10. -/
theorem test_step_jns : firstLine [0x79, 0x00] = some ("jns 0".toList, 2) := by decide

/-- V6.11. -/
theorem test_step_jp : firstLine [0x7A, 0x00] = some ("jp 0".toList, 2) := by decide

/-- V6.12. -/
theorem test_step_jnp : firstLine [0x7B, 0x00] = some ("jnp 0".toList, 2) := by decide

/-- V6.13. -/
theorem test_step_jl : firstLine [0x7C, 0x00] = some ("jl 0".toList, 2) := by decide

/-- V6.14. -/
theorem test_step_jnl : firstLine [0x7D, 0x00] = some ("jnl 0".toList, 2) := by decide

/-- V6.15. -/
theorem test_step_jle : firstLine [0x7E, 0x00] = some ("jle 0".toList, 2) := by decide

/-- V6.16. -/
theorem test_step_jnle : firstLine [0x7F, 0x00] = some ("jnle 0".toList, 2) := by decide

/-- V7.1. -/
theorem test_step_loopnz : firstLine [0xE0, 0xFC] = some ("loopnz -4".toList, 2) := by decide

/-- V7.2. -/
theorem test_step_loopz : firstLine [0xE1, 0xFC] = some ("loopz -4".toList, 2) := by decide

/-- V7.3. -/
theorem test_step_loop : firstLine [0xE2, 0xFC] = some ("loop -4".toList, 2) := by decide

/-- V7.4. -/
theorem test_step_jcxz : firstLine [0xE3, 0xFC] = some ("jcxz -4".toList, 2) := by decide

/-- V1.24: a displacement of zero that was read is printed, one that was not is not. -/
theorem test_step_zero_displacement : firstLine [0x8B, 0x5B, 0x00] = some ("mov bx, [bp + di + 0]".toList, 3) ∧
    firstLine [0x8B, 0x03] = some ("mov ax, [bp + di]".toList, 2) := by decide

/-- Section 2.9 of 95_test_vectors: the `Instruction` value of `83 07 FF`. -/
theorem test_step_instruction : (afterStep (stream [0x83, 0x07, 0xFF])).map (fun t => t.out.map (·.1)) =
    some [⟨.add, [.memoryIndexed 7 none, .immediate (-1) .word]⟩] := by decide

/-- V8.1: the empty stream. -/
theorem test_end_empty : firstEnd [] = some ([], .done, none, 0) := by decide

/-- V8.4, V8.9: the bytes that were there are consumed. -/
theorem test_end_truncated :
    firstEnd [0x8B, 0x9B, 0x00] = some ([], .failed, some ⟨.truncatedInstruction, .none, none, 3, 0⟩, 3) ∧
    firstEnd [0xB8, 0x05] = some ([], .failed, some ⟨.truncatedInstruction, .none, none, 2, 0⟩, 2) :=
  ⟨by decide, by decide⟩

/-- V8.31: an unsupported first byte. -/
theorem test_end_opcode :
    firstEnd [0x90] = some ([], .failed, some ⟨.unsupportedOpcode, .opcode, some 0x90, 0, 0⟩, 1) := by decide

/-- V8.23, V8.30: an unsupported sub-opcode. -/
theorem test_end_subop :
    firstEnd [0x83, 0xC8] = some ([], .failed, some ⟨.unsupportedOpcode, .aluSubop, some 0xC8, 1, 0⟩, 2) ∧
    firstEnd [0x81, 0x0E, 0x00, 0x00] =
      some ([], .failed, some ⟨.unsupportedOpcode, .aluSubop, some 0x0E, 1, 0⟩, 2) := ⟨by decide, by decide⟩

/-- The text of a line ends in the byte 0x0A (R161): `jo 0`. -/
theorem test_outputBytes : (afterStep (stream [0x70, 0x00])).map (fun t => outputBytes defaultTables t.out) =
    some [0x6A, 0x6F, 0x20, 0x30, 0x0A] := by decide

/-- An instruction placed at the cursor is what the next step runs, from reset and over an older stream. -/
theorem test_withFetchWord : ((afterStep (State.reset.withFetchWord 16 0xF875)).bind fun t =>
      t.out.head?.map fun e => (e.2, t.pos)) = some ("jne -8".toList, 2) ∧
    ((afterStep ((stream [0x90, 0x90, 0x90]).withFetchWord 16 0xD889)).bind fun t =>
      t.out.head?.map fun e => (e.2, t.pos)) = some ("mov ax, bx".toList, 2) := by decide

/-- R171: the phases of `75 F8`, one transition at a time. -/
theorem test_phases : (List.range 6).map (fun n => (phaseRun n (stream [0x75, 0xF8])).phase) =
    [.readOpcode, .classify, .resolveOperands, .readImmediate, .emit, .readOpcode] := by decide

/-! ## Witnesses: states and operands that meet the hypotheses of each statement -/

/-- At an instruction boundary, with the opcode byte there. -/
abbrev OpcodeAt (bytes : List Byte) (op : Byte) : Prop :=
  (stream bytes).phase = .readOpcode ∧ (stream bytes).byteAt? (stream bytes).pos = some op

/-- The byte after the opcode byte. -/
abbrev SecondAt (bytes : List Byte) (m : Byte) : Prop :=
  (stream bytes).byteAt? ((stream bytes).pos + 1) = some m

/-- `n` bytes from the cursor on are in the stream. -/
abbrev Enough (bytes : List Byte) (n : Nat) : Prop := (stream bytes).pos + n ≤ (stream bytes).len

theorem witness_StepRunsTheDecodedInstruction : (stream [0x75, 0xF8]).phase = .readOpcode ∧
    decode defaultTables ((stream [0x75, 0xF8]).bytesFrom (stream [0x75, 0xF8]).pos maxLength) = .ok (.jne 0xF8, []) := by decide

theorem witness_DecodeOfEncodeIsTheInstruction : unambiguous defaultTables = true ∧ unambiguous otherTables = true ∧
    (Instr.addImm false true (.disp16 2 0xFFFE) (.imm16 0x8000)).wellFormed = true ∧
    (Instr.movRm true false 7 (.noDisp 7)).wellFormed = true ∧ (Instr.jcxz 0x80).wellFormed = true := by decide

theorem witness_EncodeOfDecodeIsTheBytes : decode defaultTables [0x83, 0x07, 0xFF, 0x90] = .ok (.addImm true true (.noDisp 7)
    (.imm8 0xFF), [0x90]) := by decide

/-- Each clause of the lengths, the shortest and the longest. -/
theorem witness_LengthIsDecidedByTheFirstBytes :
    decode defaultTables [0x89, 0xD8] = .ok (.movRm false true 3 (.reg 0), []) ∧
    decode defaultTables [0x8B, 0x16, 0xFF, 0xFF] = .ok (.movRm true true 2 (.direct 0xFFFF), []) ∧
    decode defaultTables [0x80, 0xC3, 0x05] = .ok (.addImm false false (.reg 3) (.imm8 5), []) ∧
    decode defaultTables [0x81, 0x06, 0x40, 0x00, 0xE8, 0x03] = .ok (.addImm false true (.direct 0x40) (.imm16 0x3E8), []) ∧
    decode defaultTables [0x04, 0xFF] = .ok (.addAcc false (.imm8 0xFF), []) ∧
    decode defaultTables [0x3D, 0x00, 0x80] = .ok (.cmpAcc true (.imm16 0x8000), []) ∧
    decode defaultTables [0xB0, 0x7F] = .ok (.movImm false 0 (.imm8 0x7F), []) ∧
    decode defaultTables [0xBF, 0x34, 0x12] = .ok (.movImm true 7 (.imm16 0x1234), []) ∧
    decode defaultTables [0x70, 0x00] = .ok (.jo 0, []) ∧ decode defaultTables [0xE3, 0xFC] = .ok (.jcxz 0xFC, []) := by decide

/-- The bounds of the ranges of the opcode map, inside and outside. -/
theorem witness_OpcodeMapDecidesTheFirstByte :
    (∀ n ∈ [0x00, 0x05, 0x28, 0x2D, 0x38, 0x3D, 0x70, 0x7F, 0x80, 0x83, 0x88, 0x8B, 0xB0, 0xBF, 0xE0, 0xE3],
      n ∈ supportedOpcodes defaultTables) ∧
    (∀ n ∈ [0x06, 0x27, 0x2E, 0x37, 0x3E, 0x6F, 0x84, 0x87, 0x8C, 0xAF, 0xC0, 0xDF, 0xE4], n ∉ supportedOpcodes defaultTables) := by
  decide

/-- For opcode byte `op` of a register/memory form: no addressing byte; one displacement byte short; just enough, with a
register operand, a displacement byte and a direct address. -/
abbrev RmWitness (base op : Byte) : Prop :=
  op &&& 0xFC = base ∧ (OpcodeAt [op] op ∧ (stream [op]).len = (stream [op]).pos + 1) ∧
  (OpcodeAt [op, 0x9B, 0x00] op ∧ SecondAt [op, 0x9B, 0x00] 0x9B ∧
    ¬ Enough [op, 0x9B, 0x00] (2 + dispLen (modField 0x9B) (rmField 0x9B))) ∧
  (OpcodeAt [op, 0xD8] op ∧ SecondAt [op, 0xD8] 0xD8 ∧ Enough [op, 0xD8] (2 + dispLen (modField 0xD8) (rmField 0xD8))) ∧
  (OpcodeAt [op, 0x5B, 0x80] op ∧ SecondAt [op, 0x5B, 0x80] 0x5B ∧
    Enough [op, 0x5B, 0x80] (2 + dispLen (modField 0x5B) (rmField 0x5B))) ∧
  (OpcodeAt [op, 0x16, 0xFF, 0xFF] op ∧ SecondAt [op, 0x16, 0xFF, 0xFF] 0x16 ∧
    Enough [op, 0x16, 0xFF, 0xFF] (2 + dispLen (modField 0x16) (rmField 0x16)))

theorem witness_MovRmFromBytes : RmWitness 0x88 0x88 ∧ RmWitness 0x88 0x8B := by decide

theorem witness_AluRmFromBytes : RmWitness 0x00 0x00 ∧ RmWitness 0x28 0x2B ∧ RmWitness 0x38 0x39 :=
  ⟨by decide, by decide, by decide⟩

/-- For opcode byte `op` that an immediate follows: one byte short, just enough. -/
abbrev ImmWitness (op : Byte) (w : Bool) : Prop :=
  (OpcodeAt [op] op ∧ ¬ Enough [op] (1 + immLen w false)) ∧
  (w = true → OpcodeAt [op, 0x05] op ∧ ¬ Enough [op, 0x05] (1 + immLen w false)) ∧
  (OpcodeAt ([op, 0x00, 0x80].take (1 + immLen w false)) op ∧
    Enough ([op, 0x00, 0x80].take (1 + immLen w false)) (1 + immLen w false))

theorem witness_MovImmFromBytes : ∀ r : BitVec 3, ImmWitness (BitVec.ofNat 8 (0xB0 + r.toNat)) false ∧
    ImmWitness (BitVec.ofNat 8 (0xB8 + r.toNat)) true := by decide

theorem witness_AluAccFromBytes : ImmWitness 0x04 false ∧ ImmWitness 0x05 true ∧ ImmWitness 0x2C false ∧
    ImmWitness 0x2D true ∧ ImmWitness 0x3C false ∧ ImmWitness 0x3D true :=
  ⟨by decide, by decide, by decide, by decide, by decide, by decide⟩

/-- For addressing byte `m` with the sub-opcode of `op`: the last immediate byte missing, and just enough. -/
abbrev AluImmWitness (op : AluOp) (m : Byte) : Prop :=
  (regField m = aluSubop State.reset.tables op ∧ unambiguous State.reset.tables = true) ∧
  (OpcodeAt [0x83, m, 0x40, 0x00] 0x83 ∧ SecondAt [0x83, m, 0x40, 0x00] m ∧
    ¬ Enough [0x83, m, 0x40, 0x00] (2 + dispLen (modField m) (rmField m) + immLen true true)) ∧
  (OpcodeAt [0x81, m, 0x40, 0x00, 0xE8, 0x03] 0x81 ∧ SecondAt [0x81, m, 0x40, 0x00, 0xE8, 0x03] m ∧
    Enough [0x81, m, 0x40, 0x00, 0xE8, 0x03] (2 + dispLen (modField m) (rmField m) + immLen true false))

theorem witness_AluImmFromBytes : AluImmWitness .add 0x06 ∧ AluImmWitness .sub 0xAA ∧ AluImmWitness .cmp 0x3E ∧
    (OpcodeAt [0x83] 0x83 ∧ (0x83 : Byte) &&& 0xFC = 0x80 ∧ (stream [0x83]).len = (stream [0x83]).pos + 1) := by decide

/-- For a jump or loop opcode byte: no offset byte, and the offset byte there. -/
abbrev JumpWitness (op : Byte) : Prop :=
  (OpcodeAt [op] op ∧ (stream [op]).len = (stream [op]).pos + 1) ∧
  (OpcodeAt [op, 0x80] op ∧ SecondAt [op, 0x80] 0x80)

theorem witness_JumpsLowFromBytes : ∀ op ∈ ([0x70, 0x71, 0x72, 0x73, 0x74, 0x75, 0x76, 0x77] : List Byte),
    JumpWitness op := by decide

theorem witness_JumpsHighFromBytes : ∀ op ∈ ([0x78, 0x79, 0x7A, 0x7B, 0x7C, 0x7D, 0x7E, 0x7F] : List Byte),
    JumpWitness op := by decide

theorem witness_LoopsFromBytes : unambiguous State.reset.tables = true ∧
    ∀ code, JumpWitness (loopOpcode State.reset.tables code) := by decide

theorem witness_UnsupportedOpcodeFailsTheRun :
    OpcodeAt [0x06] 0x06 ∧ (0x06 : Byte).toNat ∉ supportedOpcodes defaultTables ∧
    OpcodeAt [0xFF, 0x00] 0xFF ∧ (0xFF : Byte).toNat ∉ supportedOpcodes defaultTables := by decide

theorem witness_UnsupportedSubopFailsTheRun :
    (OpcodeAt [0x80] 0x80 ∧ (stream [0x80]).byteAt? ((stream [0x80]).pos + 1) = none) ∧
    (∀ m ∈ ([0xC8, 0x10, 0x5F, 0xA6, 0x36] : List Byte), OpcodeAt [0x83, m] 0x83 ∧ SecondAt [0x83, m] m ∧
      regField m ∉ supportedSubops defaultTables) := by decide

theorem witness_EndOfStreamAtBoundaryEndsTheRun :
    (stream []).phase = .readOpcode ∧ (stream []).byteAt? (stream []).pos = none ∧
    (afterStep (stream [])).map State.phase = some .done := by decide

theorem witness_FailureIsPrecise : (stream [0x81, 0x06, 0x40, 0x00, 0x01]).phase = .readOpcode ∧
    (afterStep (stream [0x81, 0x06, 0x40, 0x00, 0x01])).map State.phase = some .failed ∧
    (afterStep (stream [0x90])).map State.phase = some .failed := by decide

theorem witness_OnlyTheEndOfARunStopsIt : ({ State.reset with phase := .done } : State).phase.terminal = true ∧
    ({ State.reset with phase := .failed } : State).phase.terminal = true ∧
    State.reset.phase.terminal = false ∧ (phaseRun 4 (stream [0x75, 0xF8])).phase = .emit := by decide

/-- Both outcomes: an instruction of six bytes, and the end of the run. -/
theorem witness_StepAdvancesOrEnds : (stream [0x81, 0x06, 0x40, 0x00, 0xE8, 0x03]).phase = .readOpcode ∧
    (afterStep (stream [0x81, 0x06, 0x40, 0x00, 0xE8, 0x03])).map (fun t => (t.phase, t.pos)) = some (.readOpcode, 6) ∧
    (afterStep (stream [0x90])).map (fun t => (t.phase, t.pos)) = some (.failed, 1) := by decide

theorem witness_EveryRunEnds : (stream [0x00, 0x00, 0x00]).phase = .readOpcode ∧
    (stream [0x00, 0x00, 0x00]).pos ≤ (stream [0x00, 0x00, 0x00]).len := by decide

/-- A register operand and a displacement of two bytes, in streams of just the length. -/
theorem witness_RmFormsComplete : (stream [0x89, 0xD8]).phase = .readOpcode ∧
    Enough [0x89, 0xD8] (2 + (Rm.reg 0).bytes.length) ∧
    Enough [0x8B, 0x9B, 0x00, 0x80] (2 + (Rm.disp16 3 0x8000).bytes.length) := by decide

theorem witness_AluImmFormsComplete : (stream [0x80, 0xC3, 0x05]).phase = .readOpcode ∧
    Enough [0x80, 0xC3, 0x05] (2 + (Rm.reg 3).bytes.length + (Imm.imm8 5).bytes.length) ∧
    Enough [0x81, 0x06, 0x40, 0x00, 0xE8, 0x03] (2 + (Rm.direct 0x40).bytes.length + (Imm.imm16 0x3E8).bytes.length) := by
  decide

theorem witness_ImmFormsComplete : (stream [0xB0, 0x05]).phase = .readOpcode ∧
    Enough [0xB0, 0x05] (1 + (Imm.imm8 5).bytes.length) ∧ Enough [0x05, 0x00, 0xFF] (1 + (Imm.imm16 0xFF00).bytes.length) := by
  decide

theorem witness_ConditionalJumpsComplete : (stream [0x75, 0x80]).phase = .readOpcode ∧ Enough [0x75, 0x80] 2 := by decide

theorem witness_LoopFamilyCompletes : (stream [0xE2, 0x7F]).phase = .readOpcode ∧ Enough [0xE2, 0x7F] 2 := by decide

/-- One byte of two, and five of six. -/
theorem witness_EveryInstructionCanTruncate : (stream [0x75]).phase = .readOpcode ∧
    (stream [0x75]).pos < (stream [0x75]).len ∧
    (stream [0x75]).len < (stream [0x75]).pos + (Instr.jne 0).length ∧
    (stream [0x81, 0x06, 0x40, 0x00, 0x01]).len <
      (stream []).pos + (Instr.addImm false true (.direct 0x40) (.imm16 1)).length := by decide

/-- A next state on each path: the instruction, the truncation, and the normal end. -/
theorem witness_ExecFrame : (∃ t, exec (.jne 0xF8) (stream [0x75, 0xF8]) = .next t) ∧
    (∃ t, exec (.jne 0xF8) (stream [0x75]) = .next t ∧ t.phase = .failed) ∧
    (∃ t, exec (.jne 0xF8) (stream []) = .next t ∧ t.phase = .done) :=
  ⟨⟨_, rfl⟩, ⟨_, rfl, rfl⟩, ⟨_, rfl, rfl⟩⟩

/-- The state before each row of the table: the rows of ReadOpcode, Classify and Emit, and the terminal states. -/
theorem witness_TransitionTable_readOpcode_classify_emit :
    ((stream []).phase = .readOpcode ∧ (stream []).byteAt? 0 = none) ∧ OpcodeAt [0x90] 0x90 ∧
    ((phaseRun 1 (stream [0x75])).phase = .classify ∧ (phaseRun 1 (stream [0x75])).cur.op.toNat ∈ supportedOpcodes defaultTables) ∧
    ((phaseRun 1 (stream [0x90])).phase = .classify ∧ (phaseRun 1 (stream [0x90])).cur.op.toNat ∉ supportedOpcodes defaultTables) ∧
    (phaseRun 4 (stream [0x75, 0xF8])).phase = .emit ∧
    ({ State.reset with phase := .done } : State).phase.terminal = true := by decide

/-- The state after ReadOpcode and Classify. -/
def classified (bytes : List Byte) : State := phaseRun 2 (stream bytes)

theorem witness_TransitionTable_resolveOperands :
    (∀ bs ∈ ([[0x8B, 0x9B, 0x00, 0x80], [0x81, 0x06, 0x40, 0x00, 0xE8, 0x03], [0x75], [0x89], [0x8B, 0x9B, 0x00],
      [0x81, 0x06, 0x40], [0x83, 0xC8]] : List (List Byte)), (classified bs).phase = .resolveOperands) ∧
    ((classified [0x8B, 0x9B, 0x00, 0x80]).cur.form = .movRm ∧ (classified [0x8B, 0x9B, 0x00, 0x80]).byteAt? 1 = some 0x9B ∧
      1 + 1 + dispLen (modField 0x9B) (rmField 0x9B) ≤ (classified [0x8B, 0x9B, 0x00, 0x80]).len) ∧
    ((classified [0x81, 0x06, 0x40, 0x00, 0xE8, 0x03]).cur.form = .aluImmRm ∧ regField 0x06 ∈ supportedSubops defaultTables ∧
      (classified [0x81, 0x06, 0x40, 0x00, 0xE8, 0x03]).byteAt? 1 = some 0x06) ∧
    (classified [0x75]).cur.form = .jcc ∧ (classified [0x89]).byteAt? 1 = none ∧
    (classified [0x8B, 0x9B, 0x00]).len < 1 + 1 + dispLen (modField 0x9B) (rmField 0x9B) ∧
    (classified [0x81, 0x06, 0x40]).len < 1 + 1 + dispLen (modField 0x06) (rmField 0x06) ∧
    ((classified [0x83, 0xC8]).cur.form = .aluImmRm ∧ (classified [0x83, 0xC8]).byteAt? 1 = some 0xC8 ∧
      regField 0xC8 ∉ supportedSubops defaultTables) := by decide

/-- ReadImmediate with one byte and with two, each just enough and each one short. -/
theorem witness_TransitionTable_readImmediate :
    (∀ bs ∈ ([[0x75], [0x75, 0xF8], [0xB8, 0x05], [0xB8, 0x05, 0x00]] : List (List Byte)),
      (phaseRun 3 (stream bs)).phase = .readImmediate ∧ (phaseRun 3 (stream bs)).pos = 1) ∧
    (phaseRun 3 (stream [0x75])).cur.form = .jcc ∧ (phaseRun 3 (stream [0xB8, 0x05])).cur.form = .movImmReg ∧
    (phaseRun 3 (stream [0xB8, 0x05])).cur.w = true := by decide

/-- One opcode byte for each pattern. -/
theorem witness_ClassifyLatchesTheFields :
    (∀ op ∈ ([0x03, 0x2A, 0x39, 0x88, 0x82, 0x05, 0x2C, 0x3D, 0xBF, 0x7F, 0xE3, 0x06] : List Byte),
      (phaseRun 1 (stream [op])).phase = .classify ∧ (phaseRun 1 (stream [op])).cur.op = op) ∧
    ((0x03 : Byte) &&& 0xFC = 0x00 ∧ (0x2A : Byte) &&& 0xFC = 0x28 ∧ (0x39 : Byte) &&& 0xFC = 0x38 ∧
      (0x88 : Byte) &&& 0xFC = 0x88 ∧ (0x82 : Byte) &&& 0xFC = 0x80 ∧ (0x05 : Byte) &&& 0xFE = 0x04 ∧
      (0x2C : Byte) &&& 0xFE = 0x2C ∧ (0x3D : Byte) &&& 0xFE = 0x3C ∧ (0xBF : Byte) &&& 0xF0 = 0xB0 ∧
      (0x7F : Byte) &&& 0xF0 = 0x70 ∧ (0xE3 : Byte) = loopOpcode defaultTables 3 ∧ (0x06 : Byte).toNat ∉ supportedOpcodes defaultTables) := by decide

/-- From a boundary and from the middle of an instruction. -/
theorem witness_StepAgreesWithThePhases : (stream [0x75, 0xF8]).phase.terminal = false ∧
    (phaseRun 3 (stream [0x75])).phase.terminal = false := by decide

theorem witness_TheTwoGrainsAgree : ({ State.reset with phase := .done } : State).phase.terminal = true ∧
    phaseRun 1 State.reset = { State.reset with phase := .done } := by decide

theorem witness_NextByteReadsAndAdvances : OpcodeAt [0x42] 0x42 ∧ (stream []).byteAt? (stream []).pos = none ∧
    (stream []).pos = (stream []).len := by decide

theorem witness_Need16IsLittleEndian : Enough [0x34, 0x12] 2 ∧ (stream [0x34]).pos + 1 = (stream [0x34]).len := by decide

/-- Each row of the table: with just enough bytes and, where it has bytes, with one too few. -/
theorem witness_ResolverFollowsTheModeTable :
    (∀ m ∈ ([0xC3, 0x07] : List Byte), Enough [] (dispLen (modField m) (rmField m))) ∧
    (∀ m ∈ ([0x06, 0x86] : List Byte), Enough [0xFF, 0xFF] (dispLen (modField m) (rmField m)) ∧
      ¬ Enough [0xFF] (dispLen (modField m) (rmField m)) ∧ (stream [0xFF]).pos ≤ (stream [0xFF]).len) ∧
    Enough [0x80] (dispLen (modField 0x46) (rmField 0x46)) ∧ ¬ Enough [] (dispLen (modField 0x46) (rmField 0x46)) := by
  decide

theorem witness_ImmediateReaderFollowsTheTable :
    (∀ w sx, Enough ([0x00, 0x80].take (immLen w sx)) (immLen w sx)) ∧
    (∀ w sx, ¬ Enough ([0x00, 0x80].take (immLen w sx - 1)) (immLen w sx)) ∧ Enough [] 0 := by decide

theorem cursorInv_stream (bytes : List Byte) (h : Memory.wf (stream bytes).stream = true)
    (hl : ∀ c ∈ (stream bytes).stream, c.1 < (stream bytes).len) : CursorInv (stream bytes) :=
  ⟨⟨h, hl⟩, Nat.zero_le _, rfl⟩

/-- A state that meets the invariant and takes a step: an instruction, and a failure. -/
theorem witness_StepKeepsTheCursorInvariant :
    (CursorInv (stream [0x75, 0xF8]) ∧ (afterStep (stream [0x75, 0xF8])).isSome = true) ∧
    (CursorInv (stream [0x90]) ∧ (afterStep (stream [0x90])).map State.phase = some .failed) :=
  ⟨⟨cursorInv_stream _ (by decide) (by decide), by decide⟩, ⟨cursorInv_stream _ (by decide) (by decide), by decide⟩⟩

/-- Before Emit of `83 07 FF`, and at a boundary. -/
theorem witness_StepKeepsTheOutputInvariant :
    OutputInv (stream [0x83, 0x07, 0xFF]) ∧ (afterStep (stream [0x83, 0x07, 0xFF])).isSome = true ∧
    (phaseRun 4 (stream [0x83, 0x07, 0xFF])).phase = .emit ∧
    shapeOk (latchedInstruction (phaseRun 4 (stream [0x83, 0x07, 0xFF])).cur) = true :=
  ⟨⟨by decide, trivial⟩, by decide, by decide, by decide⟩

theorem witness_StreamNeverChanges_OutputOnlyGrows : (afterStep (stream [0x75, 0xF8])).isSome = true ∧
    (afterStep (phaseRun 2 (stream [0x75, 0xF8]))).isSome = true ∧ (afterStep (stream [0x90])).isSome = true := by decide

theorem witness_LatchesDoNotMatterAtABoundary : (stream [0x75, 0xF8]).phase = .readOpcode ∧
    (afterStep (stream [0x75, 0xF8])).isSome = true ∧ (afterStep (stream [0x83, 0xC8])).isSome = true := by decide

/-- The same instruction at offset 0 of one stream and at offset 3 of another. -/
theorem witness_DecodesFromItsOwnBytesAlone : unambiguous (stream [0x75, 0xF8]).tables = true ∧
    (Instr.jne 0xF8).wellFormed = true ∧
    (stream [0x75, 0xF8]).phase = .readOpcode ∧
    ∀ k, k < (Instr.jne 0xF8).length →
      (stream [0x75, 0xF8]).byteAt? (0 + k) = (encode defaultTables (.jne 0xF8))[k]? ∧
      ({ stream [0xB8, 0x05, 0x00, 0x75, 0xF8, 0x90] with pos := 3 } : State).byteAt? (3 + k) =
        (encode defaultTables (.jne 0xF8))[k]? := by decide

/-- A shape of each kind. -/
theorem witness_LinesUseTheCharacterSet :
    shapeOk ⟨.cmp, [.memoryDirect 65535, .immediate (-32768) .word]⟩ = true ∧
    shapeOk ⟨.mov, [.memoryIndexed 6 (some 0), .register .byte 7]⟩ = true ∧
    shapeOk ⟨.loopVariant 3, [.immediate (-128) .byte]⟩ = true := by decide

/-- The defaults and the same with another register name: both steps answer a next state. -/
theorem witness_NamesChangeOnlyTheLines :
    ({ otherTables with loopOpcode := defaultTables.loopOpcode, aluSubop := defaultTables.aluSubop } : Tables).loopOpcode =
      (stream [0x89, 0xD8]).tables.loopOpcode ∧
    ({ otherTables with loopOpcode := defaultTables.loopOpcode, aluSubop := defaultTables.aluSubop } : Tables).aluSubop =
      (stream [0x89, 0xD8]).tables.aluSubop ∧
    (afterStep (stream [0x89, 0xD8])).isSome = true := by decide

theorem witness_EndCodes : State.reset.phase.terminal = false := by decide

end Sys2Proof.Tests
end

section
/-! PROOFS. The signed readings and their ranges (00_scope R7, 30_encoding R80), and that the decoder answers
well-formed instructions only. -/

namespace Sys2Proof

open Sys2Proof.Machine

/-! ## Signed readings (R7, R80) -/

theorem signed8_bounds (b : Byte) : -128 ≤ signed8 b ∧ signed8 b ≤ 127 := by
  have := b.isLt
  unfold signed8; split <;> omega

theorem signed16_bounds (v : Word) : -32768 ≤ signed16 v ∧ signed16 v ≤ 32767 := by
  have := v.isLt
  unfold signed16; split <;> omega

/-- R80: sign extension keeps the signed value. -/
theorem signed16_signExtend (b : Byte) : signed16 (b.signExtend 16) = signed8 b := by
  rw [signed16_eq_toInt, signed8_eq_toInt, BitVec.toInt_signExtend_of_le (by decide)]

/-! ## The decoder's answers are well formed -/

theorem wellFormed_aluImmInstr (op : AluOp) (sx w : Bool) (rm : Rm) (imm : Imm) :
    (aluImmInstr op sx w rm imm).wellFormed = (rm.wellFormed && imm.wellFormed sx w) := by
  cases op <;> rfl

theorem wellFormed_aluAccInstr (op : AluOp) (w : Bool) (imm : Imm) :
    (aluAccInstr op w imm).wellFormed = imm.wellFormed false w := by
  cases op <;> rfl

theorem wellFormed_jccInstr (code : BitVec 4) (off : Byte) : (jccInstr code off).wellFormed = true := by
  unfold jccInstr; split <;> rfl

theorem wellFormed_loopInstr (code : BitVec 2) (off : Byte) : (loopInstr code off).wellFormed = true := by
  unfold loopInstr; split <;> rfl

theorem wellFormed_of_takeForm {t : Tables} {c : OpClass} {bs r : List Byte} {i : Instr}
    (h : takeForm t c bs = .ok (i, r)) : i.wellFormed = true := by
  cases c with
  | movRm d w | addRm d w | subRm d w | cmpRm d w =>
    obtain ⟨reg, rm, hrm, rfl, -⟩ := takeRmForm_ok h
    exact hrm
  | aluImmRm sx w =>
    obtain ⟨op, rm, imm, -, hrm, himm, rfl, -⟩ := takeAluImm_ok h
    simp [wellFormed_aluImmInstr, hrm, himm]
  | aluImmAcc op w =>
    obtain ⟨p, hp, he⟩ := map_ok h
    cases he
    simpa [wellFormed_aluAccInstr] using (takeImm_ok hp).1
  | movImmReg w oreg =>
    obtain ⟨p, hp, he⟩ := map_ok h
    cases he
    exact (takeImm_ok hp).1
  | jcc code =>
    obtain ⟨p, -, he⟩ := map_ok h
    cases he
    exact wellFormed_jccInstr code p.1
  | loop code =>
    obtain ⟨p, -, he⟩ := map_ok h
    cases he
    exact wellFormed_loopInstr code p.1

/-- The decoder answers well-formed instructions only, over any tables. -/
theorem wellFormed_of_decode {t : Tables} {bs r : List Byte} {i : Instr} (h : decode t bs = .ok (i, r)) :
    i.wellFormed = true := by
  unfold decode at h
  split at h
  · cases h
  · split at h
    · cases h
    · exact wellFormed_of_takeForm h

end Sys2Proof
end

section
/-! PROOFS. The invariant of the output side: every instruction the decoder can emit has a shape of 00_scope R9, by the
whole-instruction meanings and by the phases alike. -/

namespace Sys2Proof.Machine

/-! ## The shapes the decoder builds (R9) -/

/-- A signed byte lies in the range of both widths, R75 and R76 with sign extension. -/
theorem inRange_signed8 (width : Width) (b : Byte) : inRange width (signed8 b) = true := by
  have := signed8_bounds b
  cases width <;> simp [inRange] <;> omega

theorem inRange_signed16 (v : Word) : inRange .word (signed16 v) = true := by
  have := signed16_bounds v
  simp [inRange]; omega

/-- What an addressing byte can give for operand width `w`: a register of that width, or a memory operand. It is
`rmopOk` as a property of the operand alone (`rmopOk_eq`). -/
def fitsRm (w : Bool) : Operand → Bool
  | .register w' _ => w' == widthOf w
  | o => memoryOk o

theorem rmopOk_eq (l : Latches) : rmopOk l = fitsRm l.w l.rmop := by
  unfold rmopOk; cases l.rmop <;> rfl

theorem shapeOk_rmReg {mn : Mnemonic} {w : Bool} {o : Operand} (d : Bool) (reg : BitVec 3)
    (hmn : isAlu mn = true) (ho : fitsRm w o = true) :
    shapeOk ⟨mn, rmRegOperands d (.register (widthOf w) reg) o⟩ = true := by
  cases o with
  | immediate v w' => cases ho
  | register w' k =>
    have hw : w' = widthOf w := by simpa [fitsRm] using ho
    cases d <;> cases mn <;> simp_all [isAlu, shapeOk, rmRegOperands]
  | memoryDirect a | memoryIndexed base disp =>
    cases d <;> cases mn <;> simp_all [isAlu, shapeOk, rmRegOperands, fitsRm]

theorem shapeOk_regImm {mn : Mnemonic} {w : Bool} {v : Int} (k : BitVec 3)
    (hmn : isAlu mn = true) (hv : inRange (widthOf w) v = true) :
    shapeOk ⟨mn, [.register (widthOf w) k, immOperand w v]⟩ = true := by
  cases mn <;> simp_all [isAlu, shapeOk, immOperand]

/-- R92: the destination may be memory, so MOV is not among the mnemonics. -/
theorem shapeOk_rmImm {mn : Mnemonic} {w : Bool} {o : Operand} {v : Int}
    (hmn : mn = .add ∨ mn = .sub ∨ mn = .cmp) (ho : fitsRm w o = true) (hv : inRange (widthOf w) v = true) :
    shapeOk ⟨mn, [o, immOperand w v]⟩ = true := by
  cases o with
  | immediate v w' => cases ho
  | register w' k =>
    have hw : w' = widthOf w := by simpa [fitsRm] using ho
    subst hw
    exact shapeOk_regImm k (by rcases hmn with rfl | rfl | rfl <;> rfl) hv
  | memoryDirect a | memoryIndexed base disp =>
    rcases hmn with rfl | rfl | rfl <;> simp_all [isAlu, shapeOk, immOperand, fitsRm]

/-- A conditional jump or a loop-family instruction. -/
def isJump : Mnemonic → Bool
  | .conditionalJump _ | .loopVariant _ => true
  | .mov | .add | .sub | .cmp => false

theorem shapeOk_jump {mn : Mnemonic} (hmn : isJump mn = true) (b : Byte) :
    shapeOk ⟨mn, jumpOperands (signed8 b)⟩ = true := by
  cases mn with
  | conditionalJump code | loopVariant code => exact inRange_signed8 .byte b
  | _ => cases hmn

/-! ## A whole instruction -/

theorem fitsRm_rmOperand {rm : Rm} (w : Bool) (h : rm.wellFormed = true) : fitsRm w (rmOperand w rm) = true := by
  cases rm with
  | reg k => simp [fitsRm, rmOperand]
  | direct a => rfl
  | noDisp k => exact h
  | disp8 k d => exact inRange_signed8 .word d
  | disp16 k d => exact inRange_signed16 d

theorem inRange_immValue {sx w : Bool} {imm : Imm} (h : imm.wellFormed sx w = true) :
    inRange (widthOf w) (immValue imm) = true := by
  cases imm with
  | imm8 b => exact inRange_signed8 _ b
  | imm16 v =>
    obtain ⟨rfl, -⟩ : w = true ∧ sx = false := by simpa [Imm.wellFormed] using h
    exact inRange_signed16 v

/-- What a well-formed encoded instruction decodes to has a shape of R9. -/
theorem shapeOk_decodedOf {i : Instr} (h : i.wellFormed = true) : shapeOk (decodedOf i) = true := by
  cases i with
  | movRm d w reg rm | addRm d w reg rm | subRm d w reg rm | cmpRm d w reg rm =>
    exact shapeOk_rmReg d reg rfl (fitsRm_rmOperand w h)
  | addImm sx w rm imm | subImm sx w rm imm | cmpImm sx w rm imm =>
    obtain ⟨hrm, himm⟩ : rm.wellFormed = true ∧ imm.wellFormed sx w = true := by simpa [Instr.wellFormed] using h
    exact shapeOk_rmImm (by simp) (fitsRm_rmOperand w hrm) (inRange_immValue himm)
  | movImm w k imm => exact shapeOk_regImm k rfl (inRange_immValue h)
  | addAcc w imm | subAcc w imm | cmpAcc w imm => exact shapeOk_regImm 0 rfl (inRange_immValue h)
  | _ off => exact shapeOk_jump rfl off

/-! ## One transition keeps the invariant -/

/-- Every entry has a shape of R9 and its rendering: the first half of `OutputInv`. -/
def EntriesOk (s : State) : Prop := ∀ e ∈ s.out, shapeOk e.1 = true ∧ e.2 = format s.tables e.1

theorem EntriesOk.of_eq {s t : State} (h : EntriesOk s) (hout : t.out = s.out) (ht : t.tables = s.tables) :
    EntriesOk t := by
  unfold EntriesOk; rwa [hout, ht]

/-- R176: emitting an instruction of a shape of R9 keeps the invariant, whatever the latches hold. -/
theorem outputInv_emit {i : Instruction} {s : State} (h : EntriesOk s) (hi : shapeOk i = true) :
    OutputInv (emit i s) := by
  refine ⟨fun e he => ?_, trivial⟩
  rcases List.mem_append.mp he with he | he
  · exact h e he
  · obtain rfl := List.mem_singleton.mp he
    exact ⟨hi, rfl⟩

/-- A cursor operation reads a value with property `P`, moving the cursor only, or fails with a truncation. -/
def Yields {α : Type} (P : α → Prop) (s : State) (r : Except State (α × State)) : Prop :=
  (∃ x p, P x ∧ r = .ok (x, { s with pos := p })) ∨ ∃ p, r = .error (raiseTruncated { s with pos := p })

theorem Reads.yields_map {α β : Type} {P : β → Prop} {s : State} {r : Except State (α × State)} {f : α → β}
    (h : Reads s r) (hf : ∀ x, P (f x)) : Yields P s (r.map fun p => (f p.1, p.2)) := by
  obtain ⟨p, -, ⟨x, rfl⟩ | rfl⟩ := h
  · exact .inl ⟨f x, p, hf x, rfl⟩
  · exact .inr ⟨p, rfl⟩

theorem need_yields (s : State) : Yields (fun _ => True) s (need s) := by
  obtain ⟨p, -, ⟨x, h⟩ | h⟩ := need_reads s
  · exact .inl ⟨x, p, trivial, h⟩
  · exact .inr ⟨p, h⟩

/-- R70 to R72: every operand that ResolveRM answers fits the width. -/
theorem resolveRm_yields (mod : BitVec 2) (rm : BitVec 3) (w : Bool) (s : State) :
    Yields (fun o => fitsRm w o = true) s (resolveRm mod rm w s) := by
  unfold resolveRm
  split
  · exact .inl ⟨_, s.pos, by simp [fitsRm], rfl⟩
  split
  · exact (need16_reads s).yields_map fun _ => rfl
  split
  · next hdirect hmod =>
    have hrm : rm ≠ 6#3 := fun h => hdirect ⟨hmod, h⟩
    exact .inl ⟨_, s.pos, by simpa [fitsRm, memoryOk] using hrm, rfl⟩
  split
  · exact (need_reads s).yields_map (f := fun d => Operand.memoryIndexed rm (some (signed8 d)))
      fun d => inRange_signed8 .word d
  · exact (need16_reads s).yields_map (f := fun d => Operand.memoryIndexed rm (some (signed16 d)))
      fun d => inRange_signed16 d

/-- R75, R76: every value that ReadImm answers lies in the range of the width. -/
theorem readImm_yields (w sx : Bool) (s : State) :
    Yields (fun v => inRange (widthOf w) v = true) s (readImm w sx s) := by
  unfold readImm
  split
  · exact (need_reads s).yields_map fun b => inRange_signed8 _ b
  split
  · exact (need_reads s).yields_map fun b => inRange_signed8 _ b
  · next hw _ =>
    obtain rfl : w = true := by simpa using hw
    exact (need16_reads s).yields_map fun v => inRange_signed16 v

/-- A phase that reads a value leaves fitting latches if it does so for every value it can read: where it fails, the
run is over and no later phase reads a latch. -/
theorem latchesOk_settle {α : Type} {P : α → Prop} {s : State} {r : Except State (α × State)} {f : α × State → State}
    (h : Yields P s r) (hf : ∀ x p, P x → LatchesOk (f (x, { s with pos := p }))) :
    LatchesOk (settle (r.map f)) := by
  obtain ⟨x, p, hx, rfl⟩ | ⟨p, rfl⟩ := h
  · exact hf x p hx
  · exact trivial

/-- Classify leaves the form and a mnemonic of that form. -/
theorem formOk_latchClass (c : OpClass) (l : Latches) : formOk (latchClass c l) = true := by
  cases c with
  | aluImmAcc op w => cases op <;> rfl
  | _ => rfl

/-- After Classify, the mnemonic of a register/memory form has two operands (R100 to R102, R90). -/
theorem isAlu_of_formOk {l : Latches} (h : formOk l = true) (hf : l.form ∈ [Form.addRm, .subRm, .cmpRm, .movRm]) :
    isAlu l.mn = true := by
  unfold formOk at h
  split at h <;> simp_all [isAlu]

/-- R74, R176: the instruction of a register/memory form has a shape of R9 once the operand latch fits. -/
theorem shapeOk_latched_rm {l : Latches} (h : formOk l = true) (hf : l.form ∈ [Form.addRm, .subRm, .cmpRm, .movRm])
    (ho : fitsRm l.w l.rmop = true) : shapeOk (latchedInstruction l) = true := by
  have hi : latchedInstruction l = ⟨l.mn, rmRegOperands l.d (.register (widthOf l.w) l.reg) l.rmop⟩ := by
    simp only [List.mem_cons, List.not_mem_nil, or_false] at hf
    rcases hf with hf | hf | hf | hf <;> simp only [latchedInstruction, hf]
  rw [hi]
  exact shapeOk_rmReg l.d l.reg (isAlu_of_formOk h hf) ho

/-- R111, R91, R176: the instruction of a form with a register and an immediate. -/
theorem shapeOk_latched_regImm {l : Latches} (h : formOk l = true) (hf : l.form = .aluImmAcc ∨ l.form = .movImmReg)
    (hv : inRange (widthOf l.w) l.imm = true) : shapeOk (latchedInstruction l) = true := by
  have hmn : isAlu l.mn = true := by
    unfold formOk at h
    rcases hf with hf | hf <;> simp only [hf, Bool.or_eq_true, beq_iff_eq] at h
    · rcases h with (h | h) | h <;> rw [h] <;> rfl
    · rw [h]; rfl
  rcases hf with hf | hf <;> simp only [latchedInstruction, hf] <;> exact shapeOk_regImm _ hmn hv

/-- R120, R176: the instruction of a jump or loop form. -/
theorem shapeOk_latched_jump {l : Latches} {b : Byte} (h : formOk l = true) (hf : l.form = .jcc ∨ l.form = .loop)
    (hv : l.imm = signed8 b) : shapeOk (latchedInstruction l) = true := by
  have hmn : isJump l.mn = true := by
    unfold formOk at h
    rcases hf with hf | hf <;> simp only [hf] at h <;> split at h <;> simp_all [isJump]
  rcases hf with hf | hf <;> simp only [latchedInstruction, hf, hv] <;> exact shapeOk_jump hmn b

/-- Reading the addressing byte latches it, or fails with a truncation. -/
theorem readModrm_cases (s : State) :
    (∃ m, readModrm s = .ok { s with pos := s.pos + 1, cur := latchModrm m s.cur }) ∨
    readModrm s = .error (raiseTruncated s) := by
  rcases need_cases s with ⟨m, -, h⟩ | ⟨-, h⟩
  · exact .inl ⟨m, by simp [readModrm, h, Except.map]⟩
  · exact .inr (by simp [readModrm, h, Except.map])

/-- ResolveRM on the latched addressing byte leaves fitting latches if every fitting operand leads to such latches. -/
theorem resolveLatched_latchesOk {next : Phase} {s : State}
    (h : ∀ o p, fitsRm s.cur.w o = true → LatchesOk { s with pos := p, cur := latchRmop o s.cur, phase := next }) :
    LatchesOk (settle (resolveLatched next s)) :=
  latchesOk_settle (resolveRm_yields _ _ _ s) h

theorem mnemonic_aluMnemonic (op : AluOp) :
    aluMnemonic op = .add ∨ aluMnemonic op = .sub ∨ aluMnemonic op = .cmp := by
  cases op <;> simp [aluMnemonic]

/-- ResolveOperands, by form: an addressing byte and its operand (R74); the same with a sub-opcode (R110); nothing. -/
theorem resolveOperands_latchesOk {s : State} (h : formOk s.cur = true) :
    LatchesOk (settle (resolveOperands s)) := by
  have hm := readModrm_cases s
  cases hform : s.cur.form with
  | movRm | addRm | subRm | cmpRm =>
    have hf : s.cur.form ∈ [Form.addRm, .subRm, .cmpRm, .movRm] := by simp [hform]
    rw [resolveOperands_rm hf]
    obtain ⟨m, hm⟩ | hm := hm <;> rw [hm]
    · exact resolveLatched_latchesOk fun o p ho => shapeOk_latched_rm (l := latchRmop o (latchModrm m s.cur)) h hf ho
    · exact trivial
  | aluImmRm =>
    simp only [resolveOperands, hform]
    obtain ⟨m, hm⟩ | hm := hm <;> simp only [hm]
    · split
      · exact trivial
      · next op _ =>
        refine resolveLatched_latchesOk fun o p ho => ⟨?_, fun _ => ⟨?_, mnemonic_aluMnemonic op⟩, ?_⟩
        · simp [formOk, latchRmop, latchMn, latchModrm, hform]
        · rw [rmopOk_eq]; exact ho
        · simp [latchRmop, latchMn, latchModrm, hform]
    · exact trivial
  | aluImmAcc | movImmReg | jcc | loop =>
    simp only [resolveOperands, hform]
    exact ⟨h, by simp [settle, hform]⟩

/-- ReadImmediate, by form: what it reads makes the latched instruction complete. -/
theorem readImmediate_latchesOk {s : State} (hp : s.phase = .readImmediate) (h : LatchesOk s) :
    LatchesOk (settle (readImmediate s)) := by
  simp only [LatchesOk, hp] at h
  obtain ⟨hok, halu, hmov, hadd, hsub, hcmp⟩ := h
  cases hform : s.cur.form with
  | movRm => exact absurd hform hmov
  | addRm => exact absurd hform hadd
  | subRm => exact absurd hform hsub
  | cmpRm => exact absurd hform hcmp
  | aluImmRm =>
    obtain ⟨ho, hmn⟩ := halu hform
    rw [rmopOk_eq] at ho
    simp only [readImmediate, hform]
    refine latchesOk_settle (readImm_yields _ _ s) fun v p hv => ?_
    simp only [LatchesOk, latchedInstruction, latchImm, hform]
    exact shapeOk_rmImm hmn ho hv
  | aluImmAcc | movImmReg =>
    simp only [readImmediate, hform]
    exact latchesOk_settle (readImm_yields _ _ s) fun v p hv =>
      shapeOk_latched_regImm (l := latchImm v s.cur) hok (by simp [latchImm, hform]) hv
  | jcc | loop =>
    simp only [readImmediate, hform]
    exact latchesOk_settle (need_yields s) fun b p _ =>
      shapeOk_latched_jump (l := latchImm (signed8 b) s.cur) hok (by simp [latchImm, hform]) rfl

/-- Every transition keeps the invariant. Emit is the only one that writes the output, and then no latch matters; every
other one leaves the output alone and latches what its next phase needs. -/
theorem phaseStep_keeps_outputInv (s : State) (h : OutputInv s) : OutputInv (phaseStep s) := by
  obtain ⟨hout, hl⟩ := h
  by_cases he : s.phase = .emit
  · rw [phaseStep_emit he]
    exact outputInv_emit hout (by simpa [LatchesOk, he] using hl)
  obtain ⟨-, -, -, hframe⟩ := phaseStep_frame s he
  refine ⟨EntriesOk.of_eq hout (by rw [hframe]) (by rw [hframe]), ?_⟩
  cases hp : s.phase with
  | emit => exact absurd hp he
  | done | failed => rwa [phaseStep_terminal (by rw [hp]; rfl)]
  | readOpcode =>
    rcases hb : s.byteAt? s.pos with _ | b
    · rw [phaseStep_readOpcode_end hp ((byteAt?_eq_none _ _).mp hb)]; exact trivial
    · rw [phaseStep_readOpcode hp hb]; exact trivial
  | classify =>
    rcases hc : classify s.tables s.cur.op with _ | c
    · rw [phaseStep_classify_unsupported hp hc]; exact trivial
    · rw [phaseStep_classify hp hc]; exact formOk_latchClass c s.cur
  | resolveOperands =>
    simp only [phaseStep, hp]
    exact resolveOperands_latchesOk (by simpa [LatchesOk, hp] using hl)
  | readImmediate =>
    simp only [phaseStep, hp]
    exact readImmediate_latchesOk hp hl

/-! ## One step keeps the invariant -/

/-- All that a step can do when it answers a next state: at an instruction boundary, the instruction that the decoder
reads at the cursor, or, where it reads none, the phases carried to rest; in the middle of an instruction, the rest of
it (R179; log entry 1). -/
theorem step_cases {s t : State} (h : step s = .next t) :
    (s.phase = .readOpcode ∧ ((∃ i r, fetch s = .ok (i, r) ∧ exec i s = .next t) ∨
      ((∃ e, fetch s = .error e) ∧ t = finish s))) ∨
    (s.phase.atRest = false ∧ t = finish s) := by
  unfold step at h
  cases hp : s.phase with
  | readOpcode =>
    simp only [hp] at h
    cases hf : fetch s with
    | ok p => exact .inl ⟨rfl, .inl ⟨p.1, p.2, rfl, by simpa [hf] using h⟩⟩
    | error e => simp only [hf] at h; cases h; exact .inl ⟨rfl, .inr ⟨⟨e, rfl⟩, rfl⟩⟩
  | classify | resolveOperands | readImmediate | emit => simp only [hp] at h; cases h; exact .inr ⟨rfl, rfl⟩
  | done | failed => simp only [hp] at h; cases h

theorem finish_keeps_outputInv {s : State} (h : OutputInv s) : OutputInv (finish s) :=
  finishWithin_keeps OutputInv phaseStep_keeps_outputInv 5 s h

theorem exec_keeps_outputInv {i : Instr} {s t : State} (hi : i.wellFormed = true) (h : OutputInv s)
    (he : exec i s = .next t) : OutputInv t := by
  obtain ⟨hout, -⟩ := h
  rw [exec_eq] at he
  obtain ⟨-, ⟨-, -, rfl⟩ | ⟨-, rfl⟩ | ⟨-, -, rfl⟩⟩ := complete_cases he
  · exact outputInv_emit hout (shapeOk_decodedOf hi)
  · exact ⟨hout, trivial⟩
  · exact ⟨hout, trivial⟩

end Sys2Proof.Machine
end

section
/-! PROOFS. The statements of 00_scope, settled. -/

namespace Sys2Proof.Scope

open Sys2Proof.Machine

/-- Settles O38, from the readings as `BitVec.toInt` and the bounds of each. -/
theorem signedReadings : Obligations.SignedReadings := fun b v =>
  ⟨signed8_eq_toInt b, signed16_eq_toInt v, signed16_signExtend b,
    (signed8_bounds b).1, (signed8_bounds b).2, (signed16_bounds v).1, (signed16_bounds v).2⟩

/-- Settles O54: each table is read out entry by entry; that no byte has two readings is `unambiguous_default`. -/
theorem defaultTables : Obligations.DefaultTables := by
  refine ⟨?reg8, ?reg16, ?ea, ?cc, ?loopNames, ?loopBytes, ?subops, rfl, unambiguous_default, ?words⟩
  case words => exact fun _ => ⟨rfl, rfl, rfl, rfl⟩
  all_goals decide

/-- Settles O42: a step is `exec` of a well-formed instruction, or transitions that each keep the invariant. -/
theorem stepKeepsTheOutputInvariant : Obligations.StepKeepsTheOutputInvariant := by
  intro s t h hs
  obtain ⟨-, ⟨i, r, hf, he⟩ | ⟨-, rfl⟩⟩ | ⟨-, rfl⟩ := step_cases hs
  · exact exec_keeps_outputInv (wellFormed_of_decode hf) h he
  · exact finish_keeps_outputInv h
  · exact finish_keeps_outputInv h

end Sys2Proof.Scope
end

section
/-! PROOFS. The invariant of the input side: every transition, and every whole instruction, keeps stream, cursor, phase
and diagnostic fitting together. -/

namespace Sys2Proof.Machine

/-! ## How far a cursor operation reads -/

/-- A cursor operation reads at most `n` bytes, all of them in the stream, or it fails for lack of the `n` bytes with
every byte of the stream consumed (R32, R187). It is `Reads` with its bounds. -/
def ReadsWithin {α : Type} (n : Nat) (s : State) (r : Except State (α × State)) : Prop :=
  (∃ x p, s.pos ≤ p ∧ p ≤ s.pos + n ∧ p ≤ s.len ∧ r = .ok (x, { s with pos := p })) ∨
  (s.len < s.pos + n ∧ r = .error (raiseTruncated { s with pos := s.len }))

theorem need_readsWithin {s : State} (hp : s.pos ≤ s.len) : ReadsWithin 1 s (need s) := by
  rcases need_cases s with ⟨b, hb, h⟩ | ⟨hl, h⟩
  · have := ((byteAt?_eq_some s s.pos b).mp hb).1
    exact .inl ⟨b, s.pos + 1, by omega, by omega, by omega, h⟩
  · have he : s.pos = s.len := by omega
    exact .inr ⟨by omega, by rw [h, raiseTruncated_at_end he]⟩

theorem resolveRm_readsWithin (mod : BitVec 2) (rm : BitVec 3) (w : Bool) {s : State} (hp : s.pos ≤ s.len) :
    ReadsWithin 2 s (resolveRm mod rm w s) := by
  rcases resolveRm_cases mod rm w s hp with ⟨r, -, -, -, hr, h⟩ | ⟨hl, h⟩
  · have hlen := Laws.EncodedLength.rm_bytes_length_le r
    exact .inl ⟨_, _, by omega, by omega, holds_length hr hp, h⟩
  · have := dispLen_le mod rm
    exact .inr ⟨by omega, h⟩

theorem readImm_readsWithin (w sx : Bool) {s : State} (hp : s.pos ≤ s.len) :
    ReadsWithin 2 s (readImm w sx s) := by
  rcases readImm_cases w sx s hp with ⟨imm, -, hi, h⟩ | ⟨hl, h⟩
  · have hlen := (Laws.EncodedLength.imm_bytes_length_bounds imm).2
    exact .inl ⟨_, _, by omega, by omega, holds_length hi hp, h⟩
  · have := immLen_le w sx
    exact .inr ⟨by omega, h⟩

/-! ## One transition keeps the invariant -/

/-- The record of R187 fits a state whose bytes are all consumed, the opcode byte among them. -/
theorem cursorInv_raiseTruncated {s : State} (hs : StreamOk s) (hp : s.pos = s.len) (hlt : s.start < s.pos)
    (hle : s.pos ≤ s.start + 5) : CursorInv (raiseTruncated s) :=
  ⟨hs, Nat.le_of_eq hp, _, rfl, rfl, rfl, rfl, hp, hlt, hle⟩

/-- The record of R188 fits a state whose cursor is one past an opcode byte. -/
theorem cursorInv_raiseOpcode {s : State} {op : Byte} (hs : StreamOk s) (hp : s.pos ≤ s.len)
    (hpos : s.pos = s.start + 1) (hb : s.byteAt? s.start = some op) : CursorInv (raiseOpcode op s) :=
  ⟨hs, hp, _, rfl, rfl, rfl, hb.symm, rfl, hpos⟩

/-- The record of R109 fits a state whose cursor is one past the addressing byte. -/
theorem cursorInv_raiseSubop {s : State} {m : Byte} (hs : StreamOk s) (hp : s.pos ≤ s.len)
    (hpos : s.pos = s.start + 2) (hb : s.byteAt? (s.start + 1) = some m) :
    CursorInv (raiseSubop m (s.start + 1) s) :=
  ⟨hs, hp, _, rfl, rfl, rfl, hb.symm, rfl, hpos⟩

/-- A phase that reads at most `n` bytes keeps the invariant if it does so for every value and cursor it can reach:
where it fails, the record fits, because the longest instruction has six bytes (R60). -/
theorem cursorInv_settle {α : Type} {n : Nat} {s : State} {r : Except State (α × State)} {f : α × State → State}
    (h : ReadsWithin n s r) (hs : StreamOk s) (hp : s.pos ≤ s.len) (hlt : s.start < s.pos)
    (hn : s.pos + n ≤ s.start + 6)
    (hf : ∀ x p, s.pos ≤ p → p ≤ s.pos + n → p ≤ s.len → CursorInv (f (x, { s with pos := p }))) :
    CursorInv (settle (r.map f)) := by
  obtain ⟨x, p, hle, hpn, hpl, rfl⟩ | ⟨hl, rfl⟩ := h
  · exact hf x p hle hpn hpl
  · exact cursorInv_raiseTruncated hs rfl (Nat.lt_of_lt_of_le hlt hp) (show s.len ≤ s.start + 5 by omega)

/-- R172: ReadOpcode ends the run at LEN, or moves past an opcode byte. -/
theorem doReadOpcode_keeps_cursorInv {s : State} (hs : StreamOk s) (hp : s.pos ≤ s.len) (herr : s.err = none) :
    CursorInv (doReadOpcode s) := by
  rw [doReadOpcode, nextByte_eq]
  cases hb : s.byteAt? s.pos with
  | none => exact ⟨hs, hp, herr, Nat.le_antisymm hp ((byteAt?_eq_none s _).mp hb)⟩
  | some b => exact ⟨hs, ((byteAt?_eq_some s _ b).mp hb).1, herr, rfl, hb⟩

/-- R173: Classify reads no byte; the opcode byte it rejects is the one at `start`. -/
theorem doClassify_keeps_cursorInv {s : State} (hs : StreamOk s) (hp : s.pos ≤ s.len) (herr : s.err = none)
    (hpos : s.pos = s.start + 1) (hb : s.byteAt? s.start = some s.cur.op) : CursorInv (doClassify s) := by
  unfold doClassify
  split
  · exact cursorInv_raiseOpcode hs hp hpos hb
  · exact ⟨hs, hp, herr, hpos⟩

/-- After the addressing byte, ResolveRM reads at most two bytes more. -/
theorem resolveLatched_keeps_cursorInv {next : Phase} {s : State} (hnext : next = .emit ∨ next = .readImmediate)
    (hs : StreamOk s) (hp : s.pos ≤ s.len) (herr : s.err = none) (hpos : s.pos = s.start + 2) :
    CursorInv (settle (resolveLatched next s)) := by
  refine cursorInv_settle (resolveRm_readsWithin _ _ _ hp) hs hp (by omega) (by omega) fun o p hle hpn hpl => ?_
  obtain rfl | rfl := hnext
  · exact ⟨hs, hpl, herr, show s.start < p by omega, show p ≤ s.start + 6 by omega⟩
  · exact ⟨hs, hpl, herr, show s.start < p by omega, show p ≤ s.start + 4 by omega⟩

/-- R174, by form: an addressing byte and its operand; the same with a sub-opcode, which may be unsupported (R109);
nothing. -/
theorem resolveOperands_keeps_cursorInv {s : State} (hs : StreamOk s) (hp : s.pos ≤ s.len) (herr : s.err = none)
    (hpos : s.pos = s.start + 1) : CursorInv (settle (resolveOperands s)) := by
  have hm := need_cases s
  have htrunc : s.len ≤ s.pos → CursorInv (raiseTruncated s) := fun hl =>
    cursorInv_raiseTruncated hs (by omega) (by omega) (by omega)
  cases hform : s.cur.form with
  | movRm | addRm | subRm | cmpRm =>
    rw [resolveOperands_rm (by simp [hform]), readModrm]
    obtain ⟨m, hb, hm⟩ | ⟨hl, hm⟩ := hm <;> rw [hm]
    · have hlt := ((byteAt?_eq_some s _ m).mp hb).1
      exact resolveLatched_keeps_cursorInv (.inl rfl) hs hlt herr (show s.pos + 1 = s.start + 2 by omega)
    · exact htrunc hl
  | aluImmRm =>
    simp only [resolveOperands, hform, readModrm]
    obtain ⟨m, hb, hm⟩ | ⟨hl, hm⟩ := hm <;> simp only [hm, Except.map]
    · have hlt := ((byteAt?_eq_some s _ m).mp hb).1
      have hpos' : s.pos + 1 = s.start + 2 := by omega
      split
      · rw [hpos] at hb ⊢
        exact cursorInv_raiseSubop hs (show s.start + 1 + 1 ≤ s.len by omega) rfl hb
      · exact resolveLatched_keeps_cursorInv (.inr rfl) hs hlt herr hpos'
    · exact htrunc hl
  | aluImmAcc | movImmReg | jcc | loop =>
    simp only [resolveOperands, hform]
    exact ⟨hs, hp, herr, show s.start < s.pos by omega, show s.pos ≤ s.start + 4 by omega⟩

/-- R175, by form: an immediate, an offset byte, or nothing. -/
theorem readImmediate_keeps_cursorInv {s : State} (hs : StreamOk s) (hp : s.pos ≤ s.len) (herr : s.err = none)
    (hlt : s.start < s.pos) (hle : s.pos ≤ s.start + 4) : CursorInv (settle (readImmediate s)) := by
  have hemit : ∀ (l : Latches) (p : Nat), s.pos ≤ p → p ≤ s.start + 6 → p ≤ s.len →
      CursorInv { s with pos := p, cur := l, phase := .emit } :=
    fun l p h1 h2 h3 => ⟨hs, h3, herr, Nat.lt_of_lt_of_le hlt h1, h2⟩
  cases hform : s.cur.form with
  | aluImmRm | aluImmAcc | movImmReg =>
    simp only [readImmediate, hform]
    exact cursorInv_settle (readImm_readsWithin _ _ hp) hs hp hlt (by omega)
      fun v p h1 h2 h3 => hemit _ p h1 (by omega) h3
  | jcc | loop =>
    simp only [readImmediate, hform]
    exact cursorInv_settle (need_readsWithin hp) hs hp hlt (by omega)
      fun b p h1 h2 h3 => hemit _ p h1 (by omega) h3
  | movRm | addRm | subRm | cmpRm =>
    simp only [readImmediate, hform]
    exact hemit s.cur s.pos (Nat.le_refl _) (by omega) hp

/-- Every transition keeps the invariant of the input side (R171). -/
theorem phaseStep_keeps_cursorInv (s : State) (h : CursorInv s) : CursorInv (phaseStep s) := by
  have hinv := h
  obtain ⟨hs, hp, hphase⟩ := h
  unfold PhaseOk at hphase
  cases hph : s.phase <;> simp only [hph] at hphase
  case readOpcode =>
    simp only [phaseStep, hph]
    exact doReadOpcode_keeps_cursorInv hs hp hphase
  case classify =>
    obtain ⟨herr, hpos, hb⟩ := hphase
    simp only [phaseStep, hph]
    exact doClassify_keeps_cursorInv hs hp herr hpos hb
  case resolveOperands =>
    obtain ⟨herr, hpos⟩ := hphase
    simp only [phaseStep, hph]
    exact resolveOperands_keeps_cursorInv hs hp herr hpos
  case readImmediate =>
    obtain ⟨herr, hlt, hle⟩ := hphase
    simp only [phaseStep, hph]
    exact readImmediate_keeps_cursorInv hs hp herr hlt hle
  case emit =>
    obtain ⟨herr, -, -⟩ := hphase
    rw [phaseStep_emit hph]
    exact ⟨hs, hp, herr⟩
  case done | failed => rwa [phaseStep_terminal (by rw [hph]; rfl)]

/-! ## One step keeps the invariant -/

theorem finish_keeps_cursorInv {s : State} (h : CursorInv s) : CursorInv (finish s) :=
  finishWithin_keeps CursorInv phaseStep_keeps_cursorInv 5 s h

/-- R187: the bytes there are fewer than the six of the longest instruction, so the record of a truncation fits. -/
theorem exec_keeps_cursorInv {i : Instr} {s t : State} (hi : i.wellFormed = true) (h : CursorInv s)
    (he : exec i s = .next t) : CursorInv t := by
  obtain ⟨hs, hp, hphase⟩ := h
  obtain ⟨-, -, hlen⟩ := Laws.EncodedLength.all i hi
  rw [exec_eq] at he
  obtain ⟨hph, hcases⟩ := complete_cases he
  have herr : s.err = none := by simpa only [PhaseOk, hph] using hphase
  obtain ⟨-, hl, rfl⟩ | ⟨hl, rfl⟩ | ⟨hlt, hl, rfl⟩ := hcases
  · exact ⟨hs, hl, herr⟩
  · exact ⟨hs, hp, herr, Nat.le_antisymm hp hl⟩
  · exact cursorInv_raiseTruncated hs rfl hlt (show s.len ≤ s.pos + 5 by omega)

end Sys2Proof.Machine
end

section
/-! PROOFS. What no step changes: the stream and the tables (10_state R20), and what the output already holds (R19). -/

namespace Sys2Proof.Machine

/-! ## The stream and the tables -/

/-- `t` reads the same stream under the same tables as `s`. -/
structure SameInput (s t : State) : Prop where
  stream : t.stream = s.stream
  len : t.len = s.len
  tables : t.tables = s.tables

theorem SameInput.byteAt? {s t : State} (h : SameInput s t) (a : Nat) : t.byteAt? a = s.byteAt? a := by
  simp only [State.byteAt?, h.stream, h.len]

theorem finish_sameInput (s : State) : SameInput s (finish s) := by
  refine finishWithin_keeps (SameInput s) (fun u hu => ?_) 5 s ⟨rfl, rfl, rfl⟩
  obtain ⟨hs, hl, ht⟩ := phaseStep_stream u
  exact ⟨hs.trans hu.stream, hl.trans hu.len, ht.trans hu.tables⟩

theorem exec_sameInput {i : Instr} {s t : State} (he : exec i s = .next t) : SameInput s t := by
  rw [exec_eq] at he
  obtain ⟨-, ⟨-, -, rfl⟩ | ⟨-, rfl⟩ | ⟨-, -, rfl⟩⟩ := complete_cases he <;> exact ⟨rfl, rfl, rfl⟩

theorem step_sameInput {s t : State} (h : step s = .next t) : SameInput s t := by
  obtain ⟨-, ⟨i, r, -, he⟩ | ⟨-, rfl⟩⟩ | ⟨-, rfl⟩ := step_cases h
  · exact exec_sameInput he
  · exact finish_sameInput s
  · exact finish_sameInput s

/-! ## The output -/

/-- `t` has the output of `s`, or that and one entry more, with its line (R19, R176). -/
def AppendsAtMostOne (s t : State) : Prop := t.out = s.out ∨ ∃ i, t.out = s.out ++ [(i, format s.tables i)]

/-- Only Emit writes the output, and Emit comes to rest: so however many transitions there are, one entry at most. -/
theorem finishWithin_appendsAtMostOne (n : Nat) (s : State) : AppendsAtMostOne s (finishWithin n s) := by
  induction n generalizing s with
  | zero => exact .inl rfl
  | succ n ih =>
    by_cases he : s.phase = .emit
    · rw [finishWithin_rest (by rw [phaseStep_emit he]; rfl), phaseStep_emit he]
      exact .inr ⟨_, rfl⟩
    · obtain ⟨-, -, -, hframe⟩ := phaseStep_frame s he
      have hout : (phaseStep s).out = s.out := by rw [hframe]
      have htab : (phaseStep s).tables = s.tables := by rw [hframe]
      simp only [finishWithin]
      split
      · exact .inl hout
      · simpa only [AppendsAtMostOne, hout, htab] using ih (phaseStep s)

theorem exec_appendsAtMostOne {i : Instr} {s t : State} (he : exec i s = .next t) : AppendsAtMostOne s t := by
  rw [exec_eq] at he
  obtain ⟨-, ⟨-, -, rfl⟩ | ⟨-, rfl⟩ | ⟨-, -, rfl⟩⟩ := complete_cases he
  · exact .inr ⟨_, rfl⟩
  · exact .inl rfl
  · exact .inl rfl

end Sys2Proof.Machine
end

section
/-! PROOFS. Other names: what reads no name table is the same under any tables with the same LOOP_OPCODE and ALU_SUBOP
(10_state R20), and what reads one is the line only (42_jumps_loops R120). -/

namespace Sys2Proof

open Sys2Proof.Machine

/-! ## The decoder reads the opcode tables only -/

/-- The tables agree on LOOP_OPCODE and ALU_SUBOP: names and NEWLINE may differ. -/
structure SameOpcodes (t t' : Tables) : Prop where
  loops : t'.loopOpcode = t.loopOpcode
  subops : t'.aluSubop = t.aluSubop

section
variable {t t' : Tables} (h : SameOpcodes t t')
include h

theorem SameOpcodes.loopOpcode (code : BitVec 2) : Machine.loopOpcode t' code = Machine.loopOpcode t code := by
  simp only [Machine.loopOpcode, h.loops]

theorem SameOpcodes.aluSubop (op : AluOp) : Machine.aluSubop t' op = Machine.aluSubop t op := by
  cases op <;> simp only [Machine.aluSubop, h.subops]

theorem SameOpcodes.classify (op : Byte) : Sys2Proof.classify t' op = Sys2Proof.classify t op := by
  simp only [Sys2Proof.classify, loopCode?, h.loopOpcode]

theorem SameOpcodes.aluOp? (sub : BitVec 3) : Sys2Proof.aluOp? t' sub = Sys2Proof.aluOp? t sub := by
  simp only [Sys2Proof.aluOp?, h.aluSubop]

theorem SameOpcodes.takeForm (c : OpClass) (bs : List Byte) :
    Sys2Proof.takeForm t' c bs = Sys2Proof.takeForm t c bs := by
  cases c with
  | aluImmRm sx w => simp only [Sys2Proof.takeForm, takeAluImm, h.aluOp?]
  | _ => rfl

theorem SameOpcodes.decode (bytes : List Byte) : Sys2Proof.decode t' bytes = Sys2Proof.decode t bytes := by
  cases bytes with
  | nil => rfl
  | cons op bs => simp only [Sys2Proof.decode, h.classify, h.takeForm]

end

end Sys2Proof

namespace Sys2Proof.Machine

/-! ## The machine under other tables -/

/-- The state configured with other tables. -/
def State.withTables (t : Tables) (s : State) : State := { s with tables := t }

@[simp] theorem withTables_tables (t : Tables) (s : State) : (s.withTables t).tables = t := rfl
@[simp] theorem withTables_pos (t : Tables) (s : State) : (s.withTables t).pos = s.pos := rfl
@[simp] theorem withTables_len (t : Tables) (s : State) : (s.withTables t).len = s.len := rfl
@[simp] theorem withTables_phase (t : Tables) (s : State) : (s.withTables t).phase = s.phase := rfl
@[simp] theorem withTables_cur (t : Tables) (s : State) : (s.withTables t).cur = s.cur := rfl
@[simp] theorem withTables_byteAt? (t : Tables) (s : State) (a : Nat) : (s.withTables t).byteAt? a = s.byteAt? a := rfl

theorem bytesFrom_withTables (t : Tables) (s : State) (a n : Nat) :
    (s.withTables t).bytesFrom a n = s.bytesFrom a n := by
  induction n generalizing a with
  | zero => rfl
  | succ n ih => simp only [State.bytesFrom, withTables_byteAt?, ih]

theorem fetch_withTables {t : Tables} {s : State} (h : SameOpcodes s.tables t) : fetch (s.withTables t) = fetch s := by
  simp only [fetch, withTables_tables, withTables_pos, bytesFrom_withTables, h.decode]

/-- The answer of a cursor operation, its state configured with other tables. -/
def answerWithTables {α : Type} (t : Tables) : Except State (α × State) → Except State (α × State)
  | .ok (x, s) => .ok (x, s.withTables t)
  | .error s => .error (s.withTables t)

theorem answerWithTables_map {α β : Type} (t : Tables) (r : Except State (α × State)) (f : α → β) :
    answerWithTables t (r.map fun p => (f p.1, p.2)) = (answerWithTables t r).map fun p => (f p.1, p.2) := by
  cases r <;> rfl

theorem settle_answerWithTables {α : Type} {t : Tables} {f : α × State → State} (r : Except State (α × State))
    (hf : ∀ x s, f (x, s.withTables t) = (f (x, s)).withTables t) :
    settle ((answerWithTables t r).map f) = (settle (r.map f)).withTables t := by
  cases r with
  | ok p => exact hf p.1 p.2
  | error e => rfl

/-- No cursor operation reads a table (R31 to R33, R73, R78). -/
theorem need_withTables (t : Tables) (s : State) : need (s.withTables t) = answerWithTables t (need s) := by
  rcases need_cases s with ⟨b, hb, h⟩ | ⟨hl, h⟩
  · rw [h, need_of_byteAt? (s := s.withTables t) hb]; rfl
  · rw [h, need_of_end (s := s.withTables t) hl]; rfl

theorem need16_withTables (t : Tables) (s : State) : need16 (s.withTables t) = answerWithTables t (need16 s) := by
  simp only [need16, need_withTables]
  cases need s with
  | error e => rfl
  | ok p =>
    simp only [answerWithTables, need_withTables]
    cases need p.2 <;> rfl

theorem resolveRm_withTables (mod : BitVec 2) (rm : BitVec 3) (w : Bool) (t : Tables) (s : State) :
    resolveRm mod rm w (s.withTables t) = answerWithTables t (resolveRm mod rm w s) := by
  simp only [resolveRm, need_withTables, need16_withTables]
  split_ifs
  · rfl
  · exact (answerWithTables_map t _ _).symm
  · rfl
  · exact (answerWithTables_map t _ fun d => Operand.memoryIndexed rm (some (signed8 d))).symm
  · exact (answerWithTables_map t _ fun d => Operand.memoryIndexed rm (some (signed16 d))).symm

theorem readImm_withTables (w sx : Bool) (t : Tables) (s : State) :
    readImm w sx (s.withTables t) = answerWithTables t (readImm w sx s) := by
  simp only [readImm, need_withTables, need16_withTables]
  split_ifs <;> exact (answerWithTables_map t _ _).symm

theorem resolveLatched_withTables (next : Phase) (t : Tables) (s : State) :
    settle (resolveLatched next (s.withTables t)) = (settle (resolveLatched next s)).withTables t := by
  simp only [resolveLatched, withTables_cur, resolveRm_withTables]
  exact settle_answerWithTables _ fun _ _ => rfl

theorem readModrm_withTables (t : Tables) (s : State) :
    (∃ u, readModrm s = .ok u ∧ u.tables = s.tables ∧ readModrm (s.withTables t) = .ok (u.withTables t)) ∨
    (∃ u, readModrm s = .error u ∧ readModrm (s.withTables t) = .error (u.withTables t)) := by
  simp only [readModrm, need_withTables]
  rcases need_cases s with ⟨m, -, h⟩ | ⟨-, h⟩ <;> rw [h]
  · exact .inl ⟨_, rfl, rfl, rfl⟩
  · exact .inr ⟨_, rfl, rfl⟩

/-- R174: of the tables, only ALU_SUBOP is read. -/
theorem resolveOperands_withTables {t : Tables} {s : State} (h : SameOpcodes s.tables t) :
    settle (resolveOperands (s.withTables t)) = (settle (resolveOperands s)).withTables t := by
  have hm := readModrm_withTables t s
  cases hform : s.cur.form with
  | movRm | addRm | subRm | cmpRm =>
    rw [resolveOperands_rm (s := s) (by simp [hform]), resolveOperands_rm (s := s.withTables t) (by simp [hform])]
    obtain ⟨u, hu, -, hu'⟩ | ⟨u, hu, hu'⟩ := hm <;> rw [hu, hu']
    · exact resolveLatched_withTables .emit t u
    · rfl
  | aluImmRm =>
    simp only [resolveOperands, withTables_cur, hform]
    obtain ⟨u, hu, htab, hu'⟩ | ⟨u, hu, hu'⟩ := hm <;> simp only [hu, hu']
    · rw [← htab] at h
      simp only [withTables_tables, withTables_cur, h.aluOp?]
      cases aluOp? u.tables u.cur.reg with
      | none => rfl
      | some op => exact resolveLatched_withTables .readImmediate t { u with cur := latchMn (aluMnemonic op) u.cur }
    · rfl
  | aluImmAcc | movImmReg | jcc | loop =>
    simp only [resolveOperands, withTables_cur, hform]
    rfl

/-- R175: no table is read. -/
theorem readImmediate_withTables (t : Tables) (s : State) :
    settle (readImmediate (s.withTables t)) = (settle (readImmediate s)).withTables t := by
  cases hform : s.cur.form with
  | aluImmRm | aluImmAcc | movImmReg =>
    simp only [readImmediate, withTables_cur, hform, readImm_withTables]
    exact settle_answerWithTables _ fun _ _ => rfl
  | jcc | loop =>
    simp only [readImmediate, withTables_cur, hform, need_withTables]
    exact settle_answerWithTables _ fun _ _ => rfl
  | movRm | addRm | subRm | cmpRm =>
    simp only [readImmediate, withTables_cur, hform]
    rfl

/-- Every transition but Emit reads the opcode tables only (R171). -/
theorem phaseStep_withTables {t : Tables} {s : State} (h : SameOpcodes s.tables t) (he : s.phase ≠ .emit) :
    phaseStep (s.withTables t) = (phaseStep s).withTables t := by
  cases hp : s.phase with
  | emit => exact absurd hp he
  | done | failed => simp only [phaseStep, withTables_phase, hp]
  | readOpcode =>
    simp only [phaseStep, withTables_phase, hp, doReadOpcode, nextByte_eq, withTables_byteAt?, withTables_pos]
    cases s.byteAt? s.pos <;> rfl
  | classify =>
    simp only [phaseStep, withTables_phase, hp, doClassify, withTables_tables, withTables_cur, h.classify]
    split <;> rfl
  | resolveOperands =>
    simp only [phaseStep, withTables_phase, hp]
    exact resolveOperands_withTables h
  | readImmediate =>
    simp only [phaseStep, withTables_phase, hp]
    exact readImmediate_withTables t s

/-- The two states agree on the cursor, the phase, the diagnostic and the emitted instructions, their lines apart. -/
def SameButLines (t t' : State) : Prop :=
  t'.pos = t.pos ∧ t'.phase = t.phase ∧ t'.err = t.err ∧ t'.out.map Prod.fst = t.out.map Prod.fst

theorem sameButLines_withTables (t : Tables) (s : State) : SameButLines s (s.withTables t) := ⟨rfl, rfl, rfl, rfl⟩

/-- Under other names an instruction is emitted with another line, the rest of the output being the same. -/
theorem sameButLines_emit {s s' : State} (i : Instruction) (h : SameButLines s s') :
    SameButLines (emit i s) (emit i s') := by
  obtain ⟨hpos, -, herr, hout⟩ := h
  exact ⟨hpos, rfl, herr, by simp [hout]⟩

/-- Emit is the last transition, so all before it run under the other tables as they do under the first. -/
theorem finishWithin_sameButLines {t : Tables} (n : Nat) {s : State} (h : SameOpcodes s.tables t) :
    SameButLines (finishWithin n s) (finishWithin n (s.withTables t)) := by
  induction n generalizing s with
  | zero => exact sameButLines_withTables t s
  | succ n ih =>
    by_cases he : s.phase = .emit
    · have he' : (s.withTables t).phase = .emit := he
      rw [finishWithin_rest (by rw [phaseStep_emit he]; rfl), finishWithin_rest (by rw [phaseStep_emit he']; rfl),
        phaseStep_emit he, phaseStep_emit he']
      exact sameButLines_emit _ (sameButLines_withTables t s)
    · obtain ⟨-, -, htab⟩ := phaseStep_stream s
      simp only [finishWithin, phaseStep_withTables h he, withTables_phase]
      split
      · exact sameButLines_withTables t _
      · exact ih (by rwa [htab])

/-- A whole instruction completes under any tables as it does under the first, its line and the latches apart. -/
theorem exec_sameButLines {i : Instr} {s u : State} (t : Tables) (he : exec i s = .next u) :
    ∃ u', exec i (s.withTables t) = .next u' ∧ SameButLines u u' := by
  rw [exec_eq] at he
  rw [exec_eq, complete]
  obtain ⟨hp, ⟨h0, hl, rfl⟩ | ⟨h0, rfl⟩ | ⟨h0, hl, rfl⟩⟩ := complete_cases he <;>
    simp only [withTables_phase, hp, withTables_len, withTables_pos]
  · rw [if_neg (by omega), if_pos hl]
    exact ⟨_, rfl, sameButLines_emit _ ⟨rfl, rfl, rfl, rfl⟩⟩
  · rw [if_pos h0]
    exact ⟨_, rfl, rfl, rfl, rfl, rfl⟩
  · rw [if_neg (by omega), if_neg (by omega)]
    exact ⟨_, rfl, rfl, rfl, rfl, rfl⟩

/-! ## A step, by what stands at the cursor -/

theorem step_of_fetch_ok {s : State} {i : Instr} {r : List Byte} (hp : s.phase = .readOpcode)
    (hf : fetch s = .ok (i, r)) : step s = exec i s := by
  simp only [step, hp, hf]

theorem step_of_fetch_error {s : State} {e : DecodeError} (hp : s.phase = .readOpcode) (hf : fetch s = .error e) :
    step s = .next (finish s) := by
  simp only [step, hp, hf]

theorem step_of_midInstruction {s : State} (hrest : s.phase.atRest = false) : step s = .next (finish s) := by
  cases hp : s.phase with
  | readOpcode | done | failed => rw [hp] at hrest; cases hrest
  | classify | resolveOperands | readImmediate | emit => simp only [step, hp]

/-- R20, R120: a step under other names reads the same instruction or runs the same transitions. -/
theorem step_sameButLines {t : Tables} {s u : State} (h : SameOpcodes s.tables t) (hs : step s = .next u) :
    ∃ u', step (s.withTables t) = .next u' ∧ SameButLines u u' := by
  have hfetch := fetch_withTables h
  obtain ⟨hp, ⟨i, r, hf, he⟩ | ⟨⟨e, hf⟩, rfl⟩⟩ | ⟨hrest, rfl⟩ := step_cases hs
  · rw [step_of_fetch_ok (s := s.withTables t) hp (hfetch.trans hf)]
    exact exec_sameButLines t he
  · exact ⟨_, step_of_fetch_error (s := s.withTables t) hp (hfetch.trans hf), finishWithin_sameButLines 5 h⟩
  · exact ⟨_, step_of_midInstruction (s := s.withTables t) hrest, finishWithin_sameButLines 5 h⟩

end Sys2Proof.Machine
end

section
/-! PROOFS. The statements of 10_state, settled. -/

namespace Sys2Proof.DecoderState

open Sys2Proof.Machine

/-- Settles O41: a step is `exec` of a well-formed instruction, or transitions that each keep the invariant. -/
theorem stepKeepsTheCursorInvariant : Obligations.StepKeepsTheCursorInvariant := by
  intro s t h hs
  obtain ⟨-, ⟨i, r, hf, he⟩ | ⟨-, rfl⟩⟩ | ⟨-, rfl⟩ := step_cases hs
  · exact exec_keeps_cursorInv (wellFormed_of_decode hf) h he
  · exact finish_keeps_cursorInv h
  · exact finish_keeps_cursorInv h

/-- Settles O44: a step leaves the input as it is, so every offset holds the byte it held. -/
theorem streamNeverChanges : Obligations.StreamNeverChanges := by
  intro s t h
  have hin := step_sameInput h
  exact ⟨hin.stream, hin.len, hin.tables, hin.byteAt?⟩

/-- Settles O45: a whole instruction is one entry, and of the transitions of a step only the last can be Emit. -/
theorem outputOnlyGrows : Obligations.OutputOnlyGrows := by
  intro s t h
  obtain ⟨-, ⟨i, r, -, he⟩ | ⟨-, rfl⟩⟩ | ⟨-, rfl⟩ := step_cases h
  · exact exec_appendsAtMostOne he
  · exact finishWithin_appendsAtMostOne 5 s
  · exact finishWithin_appendsAtMostOne 5 s

/-- Settles O55: the decoder and every transition but Emit run under the other tables as they do under the first. -/
theorem namesChangeOnlyTheLines : Obligations.NamesChangeOnlyTheLines := by
  intro s t other hloop halu h
  exact step_sameButLines ⟨hloop, halu⟩ h

end Sys2Proof.DecoderState
end

section
/-! PROOFS. The diagnostic of a run: a whole instruction writes it on a failure only (60_exceptions R190). -/

namespace Sys2Proof.Machine

/-- Of the three ends of a whole instruction, the truncation alone writes the diagnostic. -/
theorem exec_err_of_not_failed {i : Instr} {s t : State} (he : exec i s = .next t) (ht : t.phase ≠ .failed) :
    t.err = s.err := by
  rw [exec_eq] at he
  obtain ⟨-, ⟨-, -, rfl⟩ | ⟨-, rfl⟩ | ⟨-, -, rfl⟩⟩ := complete_cases he
  case inl => rw [emit_err]
  case inr.inl => rw [endRun_err]
  case inr.inr => exact absurd (raiseTruncated_phase _) ht

end Sys2Proof.Machine
end

section
/-! PROOFS. The statements of 20_memory, settled. -/

namespace Sys2Proof.StreamMemory

open Sys2Proof.Machine

/-- Settles O29: an instruction leaves the input as it is and appends one entry at most; the diagnostic is
`exec_err_of_not_failed`. -/
theorem execFrame : Obligations.ExecFrame := by
  intro i s t he
  have hin := exec_sameInput he
  have hout : t.out = s.out ∨ ∃ e, t.out = s.out ++ [e] :=
    (exec_appendsAtMostOne he).imp_right fun ⟨j, hj⟩ => ⟨_, hj⟩
  exact ⟨hin.stream, hin.len, hin.tables, hin.byteAt?, hout, exec_err_of_not_failed he⟩

/-- Settles O34: NextByte is the byte at the cursor, paired with the moved cursor (`nextByte_eq`). -/
theorem nextByteReadsAndAdvances : Obligations.NextByteReadsAndAdvances := by
  intro s
  refine ⟨fun b hb => ?byte, fun hnone => ?noByte, fun hend => ?atEnd⟩
  case byte => rw [nextByte_eq, hb, Option.map_some]
  case noByte => rw [nextByte_eq, hnone, Option.map_none]
  case atEnd => exact (byteAt?_eq_none s s.pos).mpr hend.ge

/-- Settles O35: of the two ends of Need16 (`need16_cases`), the number of bytes left rules one out. -/
theorem need16IsLittleEndian : Obligations.Need16IsLittleEndian := by
  intro s
  refine ⟨fun htwo => ?both, fun hone => ?oneLeft⟩
  case both =>
    obtain ⟨lo, hi, hlo, hhi, hread⟩ | ⟨hshort, -⟩ := need16_cases s (by omega)
    · obtain ⟨-, rfl⟩ := (byteAt?_eq_some s _ lo).mp hlo
      obtain ⟨-, rfl⟩ := (byteAt?_eq_some s _ hi).mp hhi
      exact ⟨_, hread, word16_toNat _ _⟩
    · omega
  case oneLeft =>
    obtain ⟨lo, hi, -, hhi, -⟩ | ⟨-, hfail⟩ := need16_cases s (by omega)
    · obtain ⟨hlt, -⟩ := (byteAt?_eq_some s _ hi).mp hhi
      omega
    · exact hfail

end Sys2Proof.StreamMemory
end

section
/-! PROOFS. The decoder and the encoder are inverse to each other (30_encoding R59, R64): what the bytes after the opcode
byte decode to, form by form. -/

namespace Sys2Proof

open Sys2Proof.Machine

/-! ## The instructions that a code or an operation selects -/

theorem encode_jccInstr (t : Tables) (code : BitVec 4) (off : Byte) :
    encode t (jccInstr code off) = [opByte t (.jcc code), off] := by
  obtain ⟨n, hn⟩ := code
  interval_cases n <;> rfl

theorem encode_loopInstr (t : Tables) (code : BitVec 2) (off : Byte) :
    encode t (loopInstr code off) = [opByte t (.loop code), off] := by
  obtain ⟨n, hn⟩ := code
  interval_cases n <;> rfl

theorem encode_aluImmInstr (t : Tables) (op : AluOp) (sx w : Bool) (rm : Rm) (imm : Imm) :
    encode t (aluImmInstr op sx w rm imm) =
      opByte t (.aluImmRm sx w) :: modrmByte rm.modBits (aluSubop t op) rm.rmBits :: (rm.bytes ++ imm.bytes) := by
  cases op <;> rfl

theorem encode_aluAccInstr (t : Tables) (op : AluOp) (w : Bool) (imm : Imm) :
    encode t (aluAccInstr op w imm) = opByte t (.aluImmAcc op w) :: imm.bytes := by
  cases op <;> rfl

theorem length_jccInstr (code : BitVec 4) (off : Byte) : (jccInstr code off).length = 2 := by
  unfold jccInstr; split <;> rfl

theorem length_loopInstr (code : BitVec 2) (off : Byte) : (loopInstr code off).length = 2 := by
  unfold loopInstr; split <;> rfl

theorem length_aluImmInstr (op : AluOp) (sx w : Bool) (rm : Rm) (imm : Imm) :
    (aluImmInstr op sx w rm imm).length = 2 + rm.bytes.length + imm.bytes.length := by
  cases op <;> rfl

theorem length_aluAccInstr (op : AluOp) (w : Bool) (imm : Imm) :
    (aluAccInstr op w imm).length = 1 + imm.bytes.length := by
  cases op <;> rfl

/-! ## From the instruction to its bytes and back -/

theorem takeForm_aluImmAcc_bytes (t : Tables) (op : AluOp) {w : Bool} {imm : Imm} (r : List Byte)
    (h : imm.wellFormed false w = true) :
    takeForm t (.aluImmAcc op w) (imm.bytes ++ r) = .ok (aluAccInstr op w imm, r) := by
  simp only [takeForm, takeImm_bytes _ _ _ _ h, Except.map]

theorem takeForm_movImmReg_bytes (t : Tables) {w : Bool} (oreg : BitVec 3) {imm : Imm} (r : List Byte)
    (h : imm.wellFormed false w = true) :
    takeForm t (.movImmReg w oreg) (imm.bytes ++ r) = .ok (.movImm w oreg imm, r) := by
  simp only [takeForm, takeImm_bytes _ _ _ _ h, Except.map]

theorem takeForm_aluImmRm_bytes {t : Tables} (ht : unambiguous t = true) (op : AluOp) {sx w : Bool} {rm : Rm}
    {imm : Imm} (r : List Byte) (h : (rm.wellFormed && imm.wellFormed sx w) = true) :
    takeForm t (.aluImmRm sx w) (modrmByte rm.modBits (aluSubop t op) rm.rmBits :: (rm.bytes ++ imm.bytes ++ r)) =
      .ok (aluImmInstr op sx w rm imm, r) := by
  obtain ⟨hrm, himm⟩ := Bool.and_eq_true_iff.mp h
  rw [List.append_assoc]
  exact takeAluImm_bytes op sx w rm imm r hrm himm (aluOp?_aluSubop ht op)

/-- Under unambiguous tables the opcode byte of a form leads to that form. -/
theorem decode_opByte {t : Tables} (ht : unambiguous t = true) (c : OpClass) (bs : List Byte) :
    decode t (opByte t c :: bs) = takeForm t c bs := by
  simp only [decode, classify_opByte ht c]

/-- R59: the round trip from an instruction, whatever bytes follow its own. -/
theorem decode_encode {t : Tables} {i : Instr} (ht : unambiguous t = true) (hi : i.wellFormed = true) (r : List Byte) :
    decode t (encode t i ++ r) = .ok (i, r) := by
  cases i with
  | movRm d w reg rm | addRm d w reg rm | subRm d w reg rm | cmpRm d w reg rm =>
    exact (decode_opByte ht _ _).trans (takeRmForm_bytes _ reg rm r hi)
  | addImm sx w rm imm => exact (decode_opByte ht _ _).trans (takeForm_aluImmRm_bytes ht .add r hi)
  | subImm sx w rm imm => exact (decode_opByte ht _ _).trans (takeForm_aluImmRm_bytes ht .sub r hi)
  | cmpImm sx w rm imm => exact (decode_opByte ht _ _).trans (takeForm_aluImmRm_bytes ht .cmp r hi)
  | movImm w oreg imm => exact (decode_opByte ht _ _).trans (takeForm_movImmReg_bytes t oreg r hi)
  | addAcc w imm => exact (decode_opByte ht _ _).trans (takeForm_aluImmAcc_bytes t .add r hi)
  | subAcc w imm => exact (decode_opByte ht _ _).trans (takeForm_aluImmAcc_bytes t .sub r hi)
  | cmpAcc w imm => exact (decode_opByte ht _ _).trans (takeForm_aluImmAcc_bytes t .cmp r hi)
  | _ => exact decode_opByte ht _ _

/-! ## From the bytes to the instruction and back -/

/-- All that `decode` can answer an instruction from: an opcode byte of some form, and what that form calls for. -/
theorem decode_ok {t : Tables} {bytes r : List Byte} {i : Instr} (h : decode t bytes = .ok (i, r)) :
    ∃ op bs c, bytes = op :: bs ∧ classify t op = some c ∧ takeForm t c bs = .ok (i, r) := by
  cases bytes with
  | nil => cases h
  | cons op bs =>
    rw [decode] at h
    cases hc : classify t op with
    | none => simp only [hc] at h; cases h
    | some c => exact ⟨op, bs, c, rfl, hc, by simpa only [hc] using h⟩

/-- A form's reader answers the instruction whose bytes it has consumed. -/
theorem opByte_cons_of_takeForm {t : Tables} {c : OpClass} {bs r : List Byte} {i : Instr}
    (h : takeForm t c bs = .ok (i, r)) : opByte t c :: bs = encode t i ++ r := by
  cases c with
  | movRm d w | addRm d w | subRm d w | cmpRm d w =>
    obtain ⟨reg, rm, -, rfl, rfl⟩ := takeRmForm_ok h
    rfl
  | aluImmRm sx w =>
    obtain ⟨op, rm, imm, -, -, -, rfl, rfl⟩ := takeAluImm_ok h
    simp only [encode_aluImmInstr, List.cons_append, List.append_assoc]
  | aluImmAcc op w =>
    obtain ⟨p, hp, he⟩ := map_ok h
    cases he
    rw [encode_aluAccInstr, (takeImm_ok hp).2, List.cons_append]
  | movImmReg w oreg =>
    obtain ⟨p, hp, he⟩ := map_ok h
    cases he
    rw [(takeImm_ok hp).2]
    rfl
  | jcc code =>
    obtain ⟨p, hp, he⟩ := map_ok h
    cases he
    rw [encode_jccInstr, takeByte_ok hp]
    rfl
  | loop code =>
    obtain ⟨p, hp, he⟩ := map_ok h
    cases he
    rw [encode_loopInstr, takeByte_ok hp]
    rfl

/-- R59, R64: the round trip from the bytes: the decoder consumes exactly the bytes of the instruction it answers. -/
theorem eq_encode_append_of_decode {t : Tables} {bytes r : List Byte} {i : Instr} (h : decode t bytes = .ok (i, r)) :
    bytes = encode t i ++ r := by
  obtain ⟨op, bs, c, rfl, hc, hf⟩ := decode_ok h
  rw [← opByte_of_classify hc, opByte_cons_of_takeForm hf]

/-! ## The length (R60) -/

/-- The length of an instruction of a form with `m` after its opcode byte: 30_encoding R60 on the classified opcode
byte. -/
def formLength : OpClass → Byte → Nat
  | .movRm _ _, m | .addRm _ _, m | .subRm _ _, m | .cmpRm _ _, m => 2 + dispLen (modField m) (rmField m)
  | .aluImmRm sx w, m => 2 + dispLen (modField m) (rmField m) + immLen w sx
  | .aluImmAcc _ w, _ | .movImmReg w _, _ => 1 + immLen w false
  | .jcc _, _ | .loop _, _ => 2

theorem Imm.bytes_append_eq_cons (imm : Imm) (r : List Byte) : ∃ m tail, imm.bytes ++ r = m :: tail := by
  cases imm <;> exact ⟨_, _, rfl⟩

/-- A form's reader answers an instruction of the form's length, and it has read at least one byte. -/
theorem length_of_takeForm {t : Tables} {c : OpClass} {bs r : List Byte} {i : Instr}
    (h : takeForm t c bs = .ok (i, r)) : ∃ m tail, bs = m :: tail ∧ i.length = formLength c m := by
  cases c with
  | movRm d w | addRm d w | subRm d w | cmpRm d w =>
    obtain ⟨reg, rm, hrm, rfl, rfl⟩ := takeRmForm_ok h
    exact ⟨_, _, rfl, by simp [Instr.length, formLength, Rm.bytes_length rm hrm]⟩
  | aluImmRm sx w =>
    obtain ⟨op, rm, imm, -, hrm, himm, rfl, rfl⟩ := takeAluImm_ok h
    exact ⟨_, _, rfl, by
      simp [length_aluImmInstr, formLength, Rm.bytes_length rm hrm, Imm.bytes_length sx w imm himm]⟩
  | aluImmAcc op w =>
    obtain ⟨⟨imm, r'⟩, hp, he⟩ := map_ok h
    cases he
    obtain ⟨himm, rfl⟩ := takeImm_ok hp
    obtain ⟨m, tail, hbs⟩ := imm.bytes_append_eq_cons _
    exact ⟨m, tail, hbs, by rw [length_aluAccInstr, Imm.bytes_length _ _ _ himm, formLength]⟩
  | movImmReg w oreg =>
    obtain ⟨⟨imm, r'⟩, hp, he⟩ := map_ok h
    cases he
    obtain ⟨himm, rfl⟩ := takeImm_ok hp
    obtain ⟨m, tail, hbs⟩ := imm.bytes_append_eq_cons _
    exact ⟨m, tail, hbs, by rw [Instr.length, Imm.bytes_length _ _ _ himm, formLength]⟩
  | jcc code =>
    obtain ⟨p, hp, he⟩ := map_ok h
    cases he
    exact ⟨_, _, takeByte_ok hp, length_jccInstr code p.1⟩
  | loop code =>
    obtain ⟨p, hp, he⟩ := map_ok h
    cases he
    exact ⟨_, _, takeByte_ok hp, length_loopInstr code p.1⟩

/-- An opcode byte that Classify leaves to LOOP_OPCODE matches no pattern with an operand other than an offset. -/
theorem not_pattern_of_classifyFixed_none : ∀ op : Byte, classifyFixed op = none →
    ¬ (op &&& 0xFC = 0x00 ∨ op &&& 0xFC = 0x28 ∨ op &&& 0xFC = 0x38 ∨ op &&& 0xFC = 0x88) ∧ ¬ op &&& 0xFC = 0x80 ∧
    ¬ (op &&& 0xFE = 0x04 ∨ op &&& 0xFE = 0x2C ∨ op &&& 0xFE = 0x3C) ∧ ¬ op &&& 0xF0 = 0xB0 := by
  decide

/-- The length of R60 by the opcode byte's pattern, row by row: the patterns are tested in the order of Classify. -/
theorem formLength_of_classify {t : Tables} {op : Byte} {c : OpClass} (h : classify t op = some c) (m : Byte) :
    formLength c m =
      if op &&& 0xFC = 0x00 ∨ op &&& 0xFC = 0x28 ∨ op &&& 0xFC = 0x38 ∨ op &&& 0xFC = 0x88
      then 2 + dispLen (modField m) (rmField m)
      else if op &&& 0xFC = 0x80
      then 2 + dispLen (modField m) (rmField m) + immLen (op.getLsbD 0) (op.getLsbD 1)
      else if op &&& 0xFE = 0x04 ∨ op &&& 0xFE = 0x2C ∨ op &&& 0xFE = 0x3C then 1 + immLen (op.getLsbD 0) false
      else if op &&& 0xF0 = 0xB0 then 1 + immLen (op.getLsbD 3) false
      else 2 := by
  unfold classify at h
  split at h
  case h_1 c' hfixed =>
    cases h
    unfold classifyFixed at hfixed
    split_ifs at hfixed
    all_goals cases hfixed; simp only [formLength, *, BitVec.reduceEq, true_or, or_true, or_self, ↓reduceIte]
  case h_2 hnone =>
    obtain ⟨code, -, rfl⟩ := Option.map_eq_some_iff.mp h
    obtain ⟨hrm, halu, hacc, hmov⟩ := not_pattern_of_classifyFixed_none op hnone
    rw [formLength, if_neg hrm, if_neg halu, if_neg hacc, if_neg hmov]

/-! ## The opcode map (R61) -/

/-- The rows of the opcode map that no table gives. -/
def fixedOpcodes : List Nat :=
  List.range' 0x00 6 ++ List.range' 0x28 6 ++ List.range' 0x38 6 ++ List.range' 0x70 16 ++ List.range' 0x80 4 ++
    List.range' 0x88 4 ++ List.range' 0xB0 16

theorem classifyFixed_eq_none (op : Byte) : classifyFixed op = none ↔ op.toNat ∉ fixedOpcodes := by
  revert op; decide

theorem mem_supportedOpcodes (t : Tables) (op : Byte) :
    op.toNat ∈ supportedOpcodes t ↔ op.toNat ∈ fixedOpcodes ∨ ∃ code, op = loopOpcode t code := by
  have hcode : (∃ code, op = loopOpcode t code) ↔ op = t.loopOpcode.loopnz ∨ op = t.loopOpcode.loopz ∨
      op = t.loopOpcode.loop ∨ op = t.loopOpcode.jcxz := by
    constructor
    · rintro ⟨code, rfl⟩
      unfold loopOpcode
      split_ifs <;> simp
    · rintro (h | h | h | h)
      exacts [⟨0, h⟩, ⟨1, h⟩, ⟨2, h⟩, ⟨3, h⟩]
  rw [hcode, supportedOpcodes, ← fixedOpcodes, List.mem_append]
  simp only [List.mem_cons, List.not_mem_nil, or_false, BitVec.toNat_inj]

/-- R61, R62: Classify knows exactly the opcode bytes of the map. -/
theorem classify_eq_none (t : Tables) (op : Byte) : classify t op = none ↔ op.toNat ∉ supportedOpcodes t := by
  rw [mem_supportedOpcodes, not_or, ← classifyFixed_eq_none, not_exists, ← loopCode?_eq_none, classify]
  cases classifyFixed op <;> simp

/-- Past the opcode byte nothing is reported as an unsupported opcode. -/
theorem takeForm_ne_unsupportedOpcode (t : Tables) (c : OpClass) (bs : List Byte) (op : Byte) :
    takeForm t c bs ≠ .error (.unsupportedOpcode op) := by
  intro h
  cases c with
  | movRm d w | addRm d w | subRm d w | cmpRm d w => cases (takeRmForm_error h).1
  | aluImmRm sx w => obtain ⟨he, -⟩ | ⟨m, r, -, -, he⟩ := takeAluImm_error h <;> cases he
  | aluImmAcc op w | movImmReg w oreg => cases (takeImm_error (map_error h)).2
  | jcc code | loop code => cases (takeByte_error (map_error h)).2

theorem decode_unsupportedOpcode (t : Tables) (op : Byte) (tail : List Byte) :
    decode t (op :: tail) = .error (.unsupportedOpcode op) ↔ classify t op = none := by
  rw [decode]
  cases hc : classify t op with
  | none => simp
  | some c => simpa using takeForm_ne_unsupportedOpcode t c tail op

end Sys2Proof
end

section
/-! PROOFS. A step on bytes that stand at the cursor: a whole instruction, or an unsupported opcode byte. -/

namespace Sys2Proof.Machine

/-- Bytes read one by one from an offset on stand there. -/
theorem holds_of_byteAt? {s : State} {a : Nat} {bs : List Byte}
    (h : ∀ k, k < bs.length → s.byteAt? (a + k) = bs[k]?) : Holds s a bs := by
  induction bs generalizing a with
  | nil => trivial
  | cons b bs ih =>
    refine ⟨h 0 (Nat.zero_lt_succ _), ih fun k hk => ?_⟩
    have hnext := h (k + 1) (Nat.succ_lt_succ hk)
    rwa [List.getElem?_cons_succ, Nat.add_comm k 1, ← Nat.add_assoc] at hnext

/-- Bytes that stand in the stream are inside it, the offset too when there is one. -/
theorem holds_length_of_pos {s : State} {a : Nat} {bs : List Byte} (h : Holds s a bs) (hbs : 0 < bs.length) :
    a + bs.length ≤ s.len := by
  cases bs with
  | nil => cases hbs
  | cons b bs =>
    obtain ⟨ha, -⟩ := (byteAt?_eq_some s a b).mp h.1
    exact holds_length h ha.le

/-- R180: an instruction with all its bytes in the stream completes. -/
theorem exec_next {i : Instr} {s : State} (hp : s.phase = .readOpcode) (hi : 0 < i.length)
    (hl : s.pos + i.length ≤ s.len) :
    exec i s = .next (emit (decodedOf i)
      { s with pos := s.pos + i.length, start := s.pos, cur := latchOf s.tables i s.cur }) := by
  rw [exec_eq, complete_next _ _ hp hi hl]

/-- The bytes of an instruction at the cursor are what is fetched there. -/
theorem fetch_of_holds_encode {i : Instr} {s : State} (ht : unambiguous s.tables = true) (hi : i.wellFormed = true)
    (h : Holds s s.pos (encode s.tables i)) : ∃ r, fetch s = .ok (i, r) := by
  obtain ⟨hlen, -, hmax⟩ := Laws.EncodedLength.all i hi
  obtain ⟨r, hr⟩ := bytesFrom_of_holds (n := maxLength) h (by rwa [hlen])
  exact ⟨r, by rw [fetch, hr, decode_encode ht hi]⟩

/-- R64, R180: a step on the bytes of an instruction decodes that instruction, whatever else the state holds. -/
theorem step_of_holds_encode {i : Instr} {s : State} (ht : unambiguous s.tables = true) (hi : i.wellFormed = true)
    (hp : s.phase = .readOpcode) (h : Holds s s.pos (encode s.tables i)) :
    step s = .next (emit (decodedOf i)
      { s with pos := s.pos + i.length, start := s.pos, cur := latchOf s.tables i s.cur }) := by
  obtain ⟨hlen, hmin, -⟩ := Laws.EncodedLength.all i hi
  obtain ⟨r, hf⟩ := fetch_of_holds_encode ht hi h
  have hin := holds_length_of_pos h (by rw [hlen]; omega)
  rw [hlen] at hin
  rw [step_of_fetch_ok hp hf, exec_next hp (by omega) hin]

/-- Fetching at an opcode byte outside the map. -/
theorem fetch_of_unsupported {s : State} {op : Byte} (hop : s.byteAt? s.pos = some op)
    (hc : classify s.tables op = none) : fetch s = .error (.unsupportedOpcode op) := by
  have hheld : Holds s s.pos [op] := ⟨hop, trivial⟩
  obtain ⟨r, hr⟩ := bytesFrom_of_holds (n := maxLength) hheld (by simp [maxLength])
  rw [fetch, hr, List.singleton_append, decode_unsupportedOpcode, hc]

/-- R62, R188: ReadOpcode and Classify on an opcode byte outside the map. -/
theorem finish_of_unsupported {s : State} {op : Byte} (hp : s.phase = .readOpcode) (hop : s.byteAt? s.pos = some op)
    (hc : classify s.tables op = none) :
    finish s = raiseOpcode op
      { s with pos := s.pos + 1, start := s.pos, cur := latchOp op s.cur, phase := .classify } := by
  have hread := phaseStep_readOpcode hp hop
  rw [finish, finishWithin_busy (by rw [hread]; rfl), hread,
    finishWithin_rest (by rw [phaseStep_classify_unsupported rfl hc]; rfl), phaseStep_classify_unsupported rfl hc]
  rfl

/-- The opcode byte of formats RM and IRM, as a number. -/
theorem opByte6_eq (op : BitVec 6) (bit1 bit0 : Bool) :
    opByte6 op bit1 bit0 = BitVec.ofNat 8 (4 * op.toNat + 2 * bit1.toNat + bit0.toNat) := by
  revert op bit1 bit0; decide

/-- R74: a register/memory form with all its bytes in the stream; `hc` is what its opcode byte latches. -/
theorem runRmReg_next {c : OpClass} {mn : Mnemonic} {form : Form} {op : Byte} {d w : Bool} {reg : BitVec 3} {rm : Rm}
    {s : State} (hc : ∀ l, latchHead s.tables c l = { l with op := op, form := form, d := d, w := w, mn := mn })
    (hp : s.phase = .readOpcode) (hl : s.pos + 2 + rm.bytes.length ≤ s.len) :
    runRmReg c mn d w reg rm s = .next { s with
      pos := s.pos + 2 + rm.bytes.length
      start := s.pos
      cur := { s.cur with
        op := op, form := form, d := d, w := w, mn := mn
        modrm := modrmByte rm.modBits reg rm.rmBits, mod := rm.modBits, reg := reg, rm := rm.rmBits
        rmop := rmOperand w rm }
      out := s.out ++ [
        let i : Instruction := ⟨mn, rmRegOperands d (.register (widthOf w) reg) (rmOperand w rm)⟩
        (i, format s.tables i)] } := by
  rw [runRmReg, complete_next _ _ hp (by omega) (by omega), hc]
  simp [emit, latchRmop, latchModrm, hp, Nat.add_assoc]

end Sys2Proof.Machine
end

section
/-! PROOFS. The statements of 30_encoding, settled. -/

namespace Sys2Proof.Encoding

open Sys2Proof.Machine

/-- Settles O3: the opcode byte leads to the form (`decode_opByte`), and the form's reader gives the fields back. -/
theorem decodeOfEncodeIsTheInstruction : Obligations.DecodeOfEncodeIsTheInstruction :=
  fun _ _ rest ht hi => decode_encode ht hi rest

/-- Settles O4, from what each reader's answer says of the bytes it consumed. -/
theorem encodeOfDecodeIsTheBytes : Obligations.EncodeOfDecodeIsTheBytes :=
  fun _ _ _ _ h => ⟨wellFormed_of_decode h, eq_encode_append_of_decode h⟩

/-- Settles O5: the form decides the length (`length_of_takeForm`), and the first byte decides the form. -/
theorem lengthIsDecidedByTheFirstBytes : Obligations.LengthIsDecidedByTheFirstBytes := by
  intro t bytes rest i h
  obtain ⟨-, hmin, hmax⟩ := Laws.EncodedLength.all i (wellFormed_of_decode h)
  have htotal : bytes.length = i.length + rest.length := by
    rw [eq_encode_append_of_decode h, List.length_append, encode_length]
  obtain ⟨op, bs, c, rfl, hc, hf⟩ := decode_ok h
  obtain ⟨m, tail, rfl, hlen⟩ := length_of_takeForm hf
  exact ⟨op, m, tail, rfl, hmin, hmax, htotal, hlen.trans (formLength_of_classify hc m)⟩

/-- Settles O7: `decode` reports an unsupported opcode where Classify has no form, and that is where the map has no
entry. -/
theorem opcodeMapDecidesTheFirstByte : Obligations.OpcodeMapDecidesTheFirstByte := by
  refine ⟨by decide, by decide, fun t op tail => ?_⟩
  rw [decode_unsupportedOpcode, classify_eq_none]

/-- Settles O16: nothing is fetched at such a byte, and the phases fail in Classify. -/
theorem unsupportedOpcodeFailsTheRun : Obligations.UnsupportedOpcodeFailsTheRun := by
  intro s op hp hop hmap
  have hc := (classify_eq_none s.tables op).mpr hmap
  exact ⟨latchOp op s.cur, by
    rw [step_of_fetch_error hp (fetch_of_unsupported hop hc), finish_of_unsupported hp hop hc]; rfl⟩

/-- Settles O36: with enough bytes the operand of the table stands at the cursor (`exists_rm`); with too few, the failure
is the one end left (`resolveRm_cases`). -/
theorem resolverFollowsTheModeTable : Obligations.ResolverFollowsTheModeTable := by
  intro m w s hp
  refine ⟨fun henough => ?enough, fun hshort => ?short⟩
  case enough =>
    obtain ⟨rm, hrm, hmod, hrmb, hheld, htable⟩ := exists_rm s m w s.pos hp henough
    rw [← htable, ← hmod, ← hrmb, resolveRm_of_holds rm w hrm hheld, Rm.bytes_length rm hrm]
  case short =>
    obtain ⟨rm, hrm, hmod, hrmb, hheld, -⟩ | ⟨-, hfail⟩ := resolveRm_cases (modField m) (rmField m) w s hp
    · have := holds_length hheld hp
      rw [Rm.bytes_length rm hrm, hmod, hrmb] at this
      omega
    · exact hfail

/-- Settles O37: with enough bytes the immediate of the table stands at the cursor (`exists_imm`); with too few, the
failure is the one end left (`readImm_cases`). -/
theorem immediateReaderFollowsTheTable : Obligations.ImmediateReaderFollowsTheTable := by
  intro w sx s hp
  refine ⟨fun henough => ?enough, fun hshort => ?short⟩
  case enough =>
    obtain ⟨imm, himm, hheld, htable⟩ := exists_imm s w sx s.pos hp henough
    refine ⟨immValue imm, ?_, htable⟩
    rw [readImm_of_holds w sx imm himm hheld, Imm.bytes_length sx w imm himm]
  case short =>
    obtain ⟨imm, himm, hheld, -⟩ | ⟨-, hfail⟩ := readImm_cases w sx s hp
    · have := holds_length hheld hp
      rw [Imm.bytes_length sx w imm himm] at this
      omega
    · exact hfail

/-- Settles O47: in both states the bytes of the instruction stand at the cursor, so both steps decode it. -/
theorem decodesFromItsOwnBytesAlone : Obligations.DecodesFromItsOwnBytesAlone := by
  intro i s s' ht htab hi hp hp' hbytes
  have hheld : Holds s s.pos (encode s.tables i) :=
    holds_of_byteAt? fun k hk => (hbytes k (encode_length _ i ▸ hk)).1
  have hheld' : Holds s' s'.pos (encode s'.tables i) :=
    htab ▸ holds_of_byteAt? fun k hk => (hbytes k (encode_length _ i ▸ hk)).2
  exact ⟨_, _, (decodedOf i, format s.tables (decodedOf i)), step_of_holds_encode ht hi hp hheld,
    step_of_holds_encode (htab ▸ ht) hi hp' hheld', rfl, by rw [emit_out, htab], rfl, rfl⟩

/-- Settles O2, by running the decoder on the eight words. -/
theorem sampleWordsDecode : Obligations.SampleWordsDecode :=
  ⟨rfl, rfl, rfl, rfl, rfl, rfl, rfl, rfl⟩

/-- Settles O6, by trying the 256 values of a byte. -/
theorem opcodePatternsAreDisjoint : Obligations.OpcodePatternsAreDisjoint := by
  refine ⟨?disjoint, ?count⟩
  case disjoint => decide
  case count => decide

/-- Settles O23: the four forms are one run of `runRmReg`, and differ in what the opcode byte latches. -/
theorem rmFormsComplete : Obligations.RmFormsComplete := by
  intro d w reg rm s hp hl p hmem
  simp only [List.mem_cons, List.not_mem_nil, or_false] at hmem
  obtain rfl | rfl | rfl | rfl := hmem
  all_goals exact runRmReg_next (fun _ => by simp [latchHead, latchClass, latchOp, opByte, opByte6_eq]) hp hl

end Sys2Proof.Encoding
end

section
/-! PROOFS. A step on the bytes of a form, under any tables (49_decode_loop R179, R180): the form's instruction when
they are all there, and a truncation when one is missing. The forms with a register and an r/m operand or an immediate,
and the lines of two operands. -/

namespace Sys2Proof.Machine

/-! ## The bytes of a form, all there -/

/-- R179, R180: a step where a form's opcode byte stands, with bytes after it that the form's reader takes. -/
theorem decodesTo_of_takeForm {s : State} {op : Byte} {c : OpClass} {i : Instr} {bs : List Byte}
    (hp : s.phase = .readOpcode) (hc : classify s.tables op = some c) (h : Holds s s.pos (op :: bs))
    (htake : ∀ r, takeForm s.tables c (bs ++ r) = .ok (i, r)) : DecodesTo s i.length (decodedOf i) := by
  obtain ⟨hlen, hmin, hmax⟩ := Laws.EncodedLength.all i (wellFormed_of_takeForm (htake []))
  have hbytes : op :: bs = encode s.tables i := by
    simpa [opByte_of_classify hc] using opByte_cons_of_takeForm (htake [])
  have hcount : (op :: bs).length = i.length := by rw [hbytes, hlen]
  obtain ⟨r, hr⟩ := bytesFrom_of_holds (n := maxLength) h (by rwa [hcount])
  have hfetch : fetch s = .ok (i, r) := by
    rw [fetch, hr, List.cons_append, decode]
    simp only [hc, htake]
  have hin := holds_length_of_pos h (by simp)
  rw [hcount] at hin
  refine ⟨latchOf s.tables i s.cur, ?_⟩
  rw [step_of_fetch_ok hp hfetch, exec_next hp (by omega) hin, emit, ← hp]

/-! ## The bytes of a form, one missing -/

/-- Nothing is fetched where a form's opcode byte stands and the stream ends before the form's length (R60). -/
theorem fetch_error_of_short {s : State} {op : Byte} {c : OpClass} (hop : s.byteAt? s.pos = some op)
    (hc : classify s.tables op = some c)
    (hshort : ∀ m, s.byteAt? (s.pos + 1) = some m → s.len < s.pos + formLength c m) :
    ∃ e, fetch s = .error e := by
  cases hf : fetch s with
  | error e => exact ⟨e, rfl⟩
  | ok p =>
    obtain ⟨i, r⟩ := p
    have hheld := holds_bytesFrom s s.pos maxLength
    have hin := holds_length hheld ((byteAt?_eq_some s _ _).mp hop).1.le
    rw [eq_encode_append_of_decode hf, List.length_append, encode_length] at hin
    obtain ⟨op', bs, c', hbs, hc', htake⟩ := decode_ok hf
    obtain ⟨m, tail, rfl, hlen⟩ := length_of_takeForm htake
    rw [hbs] at hheld
    obtain ⟨hop', hm, -⟩ := hheld
    obtain rfl : op = op' := Option.some.inj (hop.symm.trans hop')
    obtain rfl : c = c' := Option.some.inj (hc.symm.trans hc')
    have := hshort m hm
    omega

/-- Where nothing is fetched, the step truncates if the phases do. -/
theorem truncates_of_finish {s : State} {e : DecodeError} {l : Latches} {p : Phase} (hp : s.phase = .readOpcode)
    (hf : fetch s = .error e)
    (h : finish s = raiseTruncated { s with pos := s.len, start := s.pos, cur := l, phase := p }) : Truncates s :=
  ⟨l, by rw [step_of_fetch_error hp hf, h]; rfl⟩

/-- The phases from the opcode byte of a form on: ReadOpcode and Classify, then at most three more. -/
theorem finish_of_classify {s : State} {op : Byte} {c : OpClass} (hp : s.phase = .readOpcode)
    (hop : s.byteAt? s.pos = some op) (hc : classify s.tables op = some c) :
    finish s = finishWithin 3 { s with
      pos := s.pos + 1, start := s.pos, cur := latchHead s.tables c s.cur, phase := .resolveOperands } := by
  obtain ⟨hread, hclassify⟩ := phaseStep_head hp hop hc
  rw [finish, finishWithin_busy (by rw [hread]; rfl), finishWithin_busy (by rw [hclassify]; rfl), hclassify]

/-- R174, R187: ResolveOperands of a register/memory form that lacks the addressing byte or a byte it calls for. -/
theorem phaseStep_rm_truncated {s : State} (hp : s.phase = .resolveOperands)
    (hf : s.cur.form ∈ [Form.addRm, .subRm, .cmpRm, .movRm]) (hpos : s.pos ≤ s.len)
    (hshort : ∀ m, s.byteAt? s.pos = some m → s.len < s.pos + 1 + dispLen (modField m) (rmField m)) :
    ∃ l, phaseStep s = raiseTruncated { s with pos := s.len, cur := l } := by
  have hstep : phaseStep s = settle (resolveOperands s) := by simp only [phaseStep, hp]
  rw [hstep, resolveOperands_rm hf, readModrm]
  obtain ⟨m, hm, hneed⟩ | ⟨hend, hneed⟩ := need_cases s
  · have hafter : s.pos + 1 ≤ s.len := ((byteAt?_eq_some s _ _).mp hm).1
    obtain ⟨rm, hrm, hmod, hrmb, hheld, -⟩ | ⟨-, hfail⟩ := resolveRm_cases (modField m) (rmField m) s.cur.w
      { s with pos := s.pos + 1, cur := latchModrm m s.cur } hafter
    · have hin := holds_length hheld hafter
      have := hshort m hm
      simp only [Rm.bytes_length rm hrm, hmod, hrmb] at hin
      omega
    · refine ⟨latchModrm m s.cur, ?_⟩
      simp only [latchModrm] at hfail
      simp only [hneed, Except.map, resolveLatched, latchModrm, hfail, settle]
  · exact ⟨s.cur, by simp only [hneed, Except.map, settle, raiseTruncated_at_end (le_antisymm hpos hend)]⟩

/-- R175, R187: ReadImmediate of a form with an immediate only, when one of its bytes is missing. -/
theorem phaseStep_imm_truncated {s : State} (hp : s.phase = .readImmediate)
    (hf : s.cur.form ∈ [Form.aluImmAcc, .movImmReg]) (hpos : s.pos ≤ s.len)
    (hshort : s.len < s.pos + immLen s.cur.w false) : phaseStep s = raiseTruncated { s with pos := s.len } := by
  obtain ⟨imm, himm, hheld, -⟩ | ⟨-, hfail⟩ := readImm_cases s.cur.w false s hpos
  · have hin := holds_length hheld hpos
    rw [Imm.bytes_length _ _ imm himm] at hin
    omega
  · simp only [List.mem_cons, List.not_mem_nil, or_false] at hf
    obtain hf | hf := hf <;> simp only [phaseStep, hp, readImmediate, hf, hfail, Except.map, settle]

/-! ## The lines of two operands (R150, R152 to R160) -/

theorem operandText_of_sizeKeyword_nil {i : Instruction} (t : Tables) (h : sizeKeyword i = []) (o : Operand) :
    operandText t i o = plainText t o := by
  cases o with
  | register width k => cases width <;> rfl
  | memoryDirect a => simp [operandText, plainText, directText, h]
  | memoryIndexed base disp =>
    cases disp with
    | none => simp [operandText, plainText, indexedText, displacementText, h]
    | some d =>
      simp only [operandText, plainText, indexedText, displacementText, h]
      split <;> simp
  | immediate v width => rfl

theorem format_of_sizeKeyword_nil {mn : Mnemonic} {dst src : Operand} (t : Tables)
    (h : sizeKeyword ⟨mn, [dst, src]⟩ = []) :
    format t ⟨mn, [dst, src]⟩ =
      mnemonicText t mn ++ " ".toList ++ plainText t dst ++ ", ".toList ++ plainText t src := by
  simp [format, operandsText, operandText_of_sizeKeyword_nil t h]

theorem sizeKeyword_register_left (mn : Mnemonic) (width : Width) (k : BitVec 3) (o : Operand) :
    sizeKeyword ⟨mn, [.register width k, o]⟩ = [] := rfl

theorem sizeKeyword_register_right (mn : Mnemonic) (o : Operand) (width : Width) (k : BitVec 3) :
    sizeKeyword ⟨mn, [o, .register width k]⟩ = [] := by
  cases o <;> rfl

/-! ## The register/memory forms (R74) -/

/-- The form with the field bits `d` and `w` that a class stands for, with its instruction by `reg` and r/m operand, and
its mnemonic (R90, R100 to R102). -/
inductive RmForm (d w : Bool) : OpClass → (BitVec 3 → Rm → Instr) → Mnemonic → Prop
  | mov : RmForm d w (.movRm d w) (.movRm d w) .mov
  | add : RmForm d w (.addRm d w) (.addRm d w) .add
  | sub : RmForm d w (.subRm d w) (.subRm d w) .sub
  | cmp : RmForm d w (.cmpRm d w) (.cmpRm d w) .cmp

theorem rmRegOperands_eq (d : Bool) (regop rmop : Operand) :
    rmRegOperands d regop rmop = [if d then regop else rmop, if d then rmop else regop] := by
  cases d <;> rfl

section
variable {d w : Bool} {c : OpClass} {mk : BitVec 3 → Rm → Instr} {mn : Mnemonic}

theorem RmForm.takeForm_eq (h : RmForm d w c mk mn) (t : Tables) (bs : List Byte) :
    takeForm t c bs = takeRmForm mk bs := by
  cases h <;> rfl

theorem RmForm.formLength_eq (h : RmForm d w c mk mn) (m : Byte) :
    formLength c m = 2 + dispLen (modField m) (rmField m) := by
  cases h <;> rfl

theorem RmForm.length_eq (h : RmForm d w c mk mn) (reg : BitVec 3) (rm : Rm) :
    (mk reg rm).length = 2 + rm.bytes.length := by
  cases h <;> rfl

theorem RmForm.decodedOf_eq (h : RmForm d w c mk mn) (reg : BitVec 3) (rm : Rm) :
    decodedOf (mk reg rm) = ⟨mn, rmRegOperands d (.register (widthOf w) reg) (rmOperand w rm)⟩ := by
  cases h <;> rfl

theorem RmForm.form_latchHead (h : RmForm d w c mk mn) (t : Tables) (l : Latches) :
    (latchHead t c l).form ∈ [Form.addRm, .subRm, .cmpRm, .movRm] := by
  cases h <;> simp [latchHead, latchClass]

variable {s : State} {op : Byte}

/-- R74, R187: a step of a register/memory form without all its bytes. -/
theorem RmForm.truncates (h : RmForm d w c mk mn) (hp : s.phase = .readOpcode) (hop : s.byteAt? s.pos = some op)
    (hc : classify s.tables op = some c)
    (hshort : ∀ m, s.byteAt? (s.pos + 1) = some m → s.len < s.pos + 2 + dispLen (modField m) (rmField m)) :
    Truncates s := by
  obtain ⟨e, hf⟩ := fetch_error_of_short hop hc fun m hm => by
    rw [h.formLength_eq, ← Nat.add_assoc]; exact hshort m hm
  obtain ⟨l, hl⟩ := phaseStep_rm_truncated
    (s := { s with pos := s.pos + 1, start := s.pos, cur := latchHead s.tables c s.cur, phase := .resolveOperands })
    rfl (h.form_latchHead _ _) ((byteAt?_eq_some s _ _).mp hop).1 hshort
  exact truncates_of_finish hp hf (by
    rw [finish_of_classify hp hop hc, finishWithin_rest (by rw [hl]; rfl), hl])

/-- R74, R83: a step of a register/memory form with all its bytes: the operands of the table, ordered by `d`. -/
theorem RmForm.decodesTo {m : Byte} (h : RmForm d w c mk mn) (hp : s.phase = .readOpcode)
    (hop : s.byteAt? s.pos = some op) (hc : classify s.tables op = some c) (hm : s.byteAt? (s.pos + 1) = some m)
    (hlen : s.pos + 2 + dispLen (modField m) (rmField m) ≤ s.len) :
    DecodesTo s (2 + dispLen (modField m) (rmField m)) ⟨mn, rmRegOperands d (.register (widthOf w) (regField m))
      (operandTable m w (memRead s.stream (s.pos + 2)) (memRead s.stream (s.pos + 3)))⟩ := by
  obtain ⟨rm, hrm, hmod, hrmb, hheld, htable⟩ := exists_rm s m w (s.pos + 2) (by omega) hlen
  have hmodrm : modrmByte rm.modBits (regField m) rm.rmBits = m := by rw [hmod, hrmb, modrmByte_fields]
  have htake (r : List Byte) : takeForm s.tables c ((m :: rm.bytes) ++ r) = .ok (mk (regField m) rm, r) := by
    rw [h.takeForm_eq, List.cons_append, ← hmodrm, regField_modrmByte]
    exact takeRmForm_bytes mk _ rm r hrm
  have hstep := decodesTo_of_takeForm (bs := m :: rm.bytes) hp hc ⟨hop, hm, hheld⟩ htake
  rwa [h.length_eq, h.decodedOf_eq, Rm.bytes_length rm hrm, hmod, hrmb, htable] at hstep

end

/-- A register/memory form does what R74 says with the bytes, whatever its opcode pattern. -/
theorem rmFormFromBytes {base : Byte} {mn : Mnemonic} {name : Text} {c : Bool → Bool → OpClass}
    {mk : Bool → Bool → BitVec 3 → Rm → Instr} (h : ∀ d w, RmForm d w (c d w) (mk d w) mn)
    (hc : ∀ t op, op &&& 0xFC = base → classify t op = some (c (op.getLsbD 1) (op.getLsbD 0)))
    (hname : ∀ t, mnemonicText t mn = name) : RmFormFromBytes base mn name := by
  intro s op hp hop hbase
  have hclass := hc s.tables op hbase
  refine ⟨fun hend => ?noModrm, fun m hm => ⟨fun hshort => ?short, fun hlen => ⟨?decodes, ?line⟩⟩⟩
  case noModrm =>
    refine (h _ _).truncates hp hop hclass fun m hm => ?_
    have := ((byteAt?_eq_some s _ _).mp hm).1
    omega
  case short =>
    refine (h _ _).truncates hp hop hclass fun m' hm' => ?_
    obtain rfl : m = m' := Option.some.inj (hm.symm.trans hm')
    exact hshort
  case decodes =>
    have hstep := (h _ _).decodesTo hp hop hclass hm hlen
    rwa [rmRegOperands_eq] at hstep
  case line =>
    rw [← hname s.tables]
    refine format_of_sizeKeyword_nil _ ?_
    cases op.getLsbD 1
    · exact sizeKeyword_register_right _ _ _ _
    · exact sizeKeyword_register_left _ _ _ _

/-! ## The forms with an immediate only (R91, R111) -/

/-- The form with the width bit `w` that a class stands for, with its instruction by immediate, its mnemonic, and its
destination register (R91, R106 to R108). -/
inductive ImmForm (w : Bool) : OpClass → (Imm → Instr) → Mnemonic → BitVec 3 → Prop
  | mov (oreg : BitVec 3) : ImmForm w (.movImmReg w oreg) (.movImm w oreg) .mov oreg
  | add : ImmForm w (.aluImmAcc .add w) (.addAcc w) .add 0
  | sub : ImmForm w (.aluImmAcc .sub w) (.subAcc w) .sub 0
  | cmp : ImmForm w (.aluImmAcc .cmp w) (.cmpAcc w) .cmp 0

section
variable {w : Bool} {c : OpClass} {mk : Imm → Instr} {mn : Mnemonic} {dst : BitVec 3}

theorem ImmForm.isFixed_eq (h : ImmForm w c mk mn dst) : isFixed c = true := by
  cases h <;> rfl

theorem ImmForm.takeForm_bytes (h : ImmForm w c mk mn dst) (t : Tables) {imm : Imm}
    (himm : imm.wellFormed false w = true) (r : List Byte) : takeForm t c (imm.bytes ++ r) = .ok (mk imm, r) := by
  cases h with
  | mov => exact takeForm_movImmReg_bytes t dst r himm
  | add => exact takeForm_aluImmAcc_bytes t .add r himm
  | sub => exact takeForm_aluImmAcc_bytes t .sub r himm
  | cmp => exact takeForm_aluImmAcc_bytes t .cmp r himm

theorem ImmForm.formLength_eq (h : ImmForm w c mk mn dst) (m : Byte) : formLength c m = 1 + immLen w false := by
  cases h <;> rfl

theorem ImmForm.length_eq (h : ImmForm w c mk mn dst) (imm : Imm) : (mk imm).length = 1 + imm.bytes.length := by
  cases h <;> rfl

theorem ImmForm.decodedOf_eq (h : ImmForm w c mk mn dst) (imm : Imm) :
    decodedOf (mk imm) = ⟨mn, [.register (widthOf w) dst, immOperand w (immValue imm)]⟩ := by
  cases h <;> rfl

theorem ImmForm.form_latchHead (h : ImmForm w c mk mn dst) (t : Tables) (l : Latches) :
    (latchHead t c l).form ∈ [Form.aluImmAcc, .movImmReg] := by
  cases h <;> simp [latchHead, latchClass]

theorem ImmForm.w_latchHead (h : ImmForm w c mk mn dst) (t : Tables) (l : Latches) : (latchHead t c l).w = w := by
  cases h <;> rfl

variable {s : State} {op : Byte}

/-- R91, R111, R187: a step of a form with an immediate only, without all its bytes. -/
theorem ImmForm.truncates (h : ImmForm w c mk mn dst) (hp : s.phase = .readOpcode) (hop : s.byteAt? s.pos = some op)
    (hc : classify s.tables op = some c) (hshort : s.len < s.pos + 1 + immLen w false) : Truncates s := by
  obtain ⟨e, hf⟩ := fetch_error_of_short hop hc fun m _ => by rwa [h.formLength_eq, ← Nat.add_assoc]
  have hresolve := phaseStep_noModrm
    (s := { s with pos := s.pos + 1, start := s.pos, cur := latchHead s.tables c s.cur, phase := .resolveOperands })
    rfl (List.mem_append_left [Form.jcc, .loop] (h.form_latchHead _ _))
  have hread := phaseStep_imm_truncated
    (s := { s with pos := s.pos + 1, start := s.pos, cur := latchHead s.tables c s.cur, phase := .readImmediate })
    rfl (h.form_latchHead _ _) ((byteAt?_eq_some s _ _).mp hop).1 (by rwa [h.w_latchHead])
  exact truncates_of_finish hp hf (by
    rw [finish_of_classify hp hop hc, finishWithin_busy (by rw [hresolve]; rfl), hresolve,
      finishWithin_rest (by rw [hread]; rfl), hread])

/-- R91, R111, R55: a step of a form with an immediate only, with all its bytes: the register and the immediate of the
table. -/
theorem ImmForm.decodesTo (h : ImmForm w c mk mn dst) (hp : s.phase = .readOpcode) (hop : s.byteAt? s.pos = some op)
    (hc : classify s.tables op = some c) (hlen : s.pos + 1 + immLen w false ≤ s.len) :
    DecodesTo s (1 + immLen w false) ⟨mn, [.register (widthOf w) dst,
      immediateTable w false (memRead s.stream (s.pos + 1)) (memRead s.stream (s.pos + 2))]⟩ := by
  obtain ⟨imm, himm, hheld, htable⟩ := exists_imm s w false (s.pos + 1) (by omega) hlen
  have hstep := decodesTo_of_takeForm hp hc ⟨hop, hheld⟩ (h.takeForm_bytes s.tables himm)
  rwa [h.length_eq, h.decodedOf_eq, Imm.bytes_length _ _ imm himm, htable] at hstep

/-- A form with an immediate only does what R91 and R111 say with the bytes; `hop` is R59 for its opcode
byte. -/
theorem ImmForm.fromBytes {name : Text} (h : ImmForm w c mk mn dst) (hop : ∀ t, opByte t c = op)
    (hname : ∀ t, mnemonicText t mn = name) : ImmFormFromBytes op w mn name dst := by
  intro s hp hbyte
  have hclass : classify s.tables op = some c := by rw [← hop s.tables, classify_of_isFixed _ h.isFixed_eq]
  refine ⟨h.truncates hp hbyte hclass, fun hlen => ⟨h.decodesTo hp hbyte hclass hlen, ?_⟩⟩
  rw [← hname s.tables]
  exact format_of_sizeKeyword_nil _ (sizeKeyword_register_left _ _ _ _)

end

/-- The opcode byte of format IR, as a number. -/
theorem opByte_movImmReg (t : Tables) (w : Bool) (oreg : BitVec 3) :
    opByte t (.movImmReg w oreg) = BitVec.ofNat 8 (0xB0 + 8 * w.toNat + oreg.toNat) := by
  simp only [opByte]
  revert w oreg; decide

/-- The opcode byte of format IA, as a number. -/
theorem opByte7_eq (op : BitVec 7) (w : Bool) : opByte7 op w = BitVec.ofNat 8 (2 * op.toNat + w.toNat) := by
  revert op w; decide

/-- R91, R111: a form with an immediate only, with all its bytes in the stream; `hc` is what its bytes latch. -/
theorem runImm_next {c : OpClass} {mn : Mnemonic} {w : Bool} {dst : BitVec 3} {imm : Imm} {s : State} {cur : Latches}
    (hc : latchImm (immValue imm) (latchHead s.tables c s.cur) = cur) (hp : s.phase = .readOpcode)
    (hl : s.pos + 1 + imm.bytes.length ≤ s.len) :
    runImm c mn w dst imm s = .next { s with
      pos := s.pos + 1 + imm.bytes.length
      start := s.pos
      cur := cur
      out := s.out ++ [
        let i : Instruction := ⟨mn, [.register (widthOf w) dst, immOperand w (immValue imm)]⟩
        (i, format s.tables i)] } := by
  rw [runImm, complete_next _ _ hp (by omega) (by omega), hc]
  simp [emit, hp, Nat.add_assoc]

end Sys2Proof.Machine
end

section
/-! PROOFS. The statements of 40_mov, settled. -/

namespace Sys2Proof.Mov

open Sys2Proof.Machine

/-- R51: 0x88 to 0x8B are the opcode bytes of MOV register with register/memory. -/
theorem classify_movRm (t : Tables) (op : Byte) (h : op &&& 0xFC = 0x88) :
    classify t op = some (.movRm (op.getLsbD 1) (op.getLsbD 0)) := by
  simp only [classify, classifyFixed, h, BitVec.reduceEq, ↓reduceIte]

/-- Settles O8: MOV is one of the register/memory forms, by its opcode bytes (`classify_movRm`). -/
theorem movRmFromBytes : Obligations.MovRmFromBytes :=
  rmFormFromBytes (fun _ _ => .mov) classify_movRm fun _ => rfl

/-- Settles O9: MOV is one of the forms with an immediate only, and `1011`, `w`, `oreg` is its opcode byte. -/
theorem movImmFromBytes : Obligations.MovImmFromBytes :=
  fun w oreg => (ImmForm.mov oreg).fromBytes (opByte_movImmReg · w oreg) fun _ => rfl

/-- Settles O25: the four forms are one run of `runImm`, and differ in what the opcode byte latches. -/
theorem immFormsComplete : Obligations.ImmFormsComplete := by
  intro w oreg imm s hp hl
  refine ⟨?mov, fun p hmem => ?acc⟩
  case mov => exact runImm_next (by simp [latchImm, latchHead, latchClass, latchOp, opByte_movImmReg]) hp hl
  case acc =>
    simp only [List.mem_cons, List.not_mem_nil, or_false] at hmem
    obtain rfl | rfl | rfl := hmem
    all_goals
      exact runImm_next (by simp [latchImm, latchHead, latchClass, latchOp, aluMnemonic, opByte, opByte7_eq]) hp hl

end Sys2Proof.Mov
end

section
/-! PROOFS. A step on the bytes of an immediate-to-register/memory form (41_add_sub_cmp R103 to R105, R109, R110): the
form's instruction, a truncation, or an unsupported sub-opcode; and the line with its size keyword. -/

namespace Sys2Proof

open Sys2Proof.Machine

/-! ## The opcode bytes and the sub-opcodes -/

/-- R51: 0x00 to 0x03 are the opcode bytes of ADD register with register/memory. -/
theorem classify_addRm (t : Tables) (op : Byte) (h : op &&& 0xFC = 0x00) :
    classify t op = some (.addRm (op.getLsbD 1) (op.getLsbD 0)) := by
  simp only [classify, classifyFixed, h, ↓reduceIte]

/-- R51: 0x28 to 0x2B are the opcode bytes of SUB register with register/memory. -/
theorem classify_subRm (t : Tables) (op : Byte) (h : op &&& 0xFC = 0x28) :
    classify t op = some (.subRm (op.getLsbD 1) (op.getLsbD 0)) := by
  simp only [classify, classifyFixed, h, BitVec.reduceEq, ↓reduceIte]

/-- R51: 0x38 to 0x3B are the opcode bytes of CMP register with register/memory. -/
theorem classify_cmpRm (t : Tables) (op : Byte) (h : op &&& 0xFC = 0x38) :
    classify t op = some (.cmpRm (op.getLsbD 1) (op.getLsbD 0)) := by
  simp only [classify, classifyFixed, h, BitVec.reduceEq, ↓reduceIte]

/-- R51: 0x80 to 0x83 are the opcode bytes of the immediate-to-register/memory forms. -/
theorem classify_aluImmRm (t : Tables) (op : Byte) (h : op &&& 0xFC = 0x80) :
    classify t op = some (.aluImmRm (op.getLsbD 1) (op.getLsbD 0)) := by
  simp only [classify, classifyFixed, h, BitVec.reduceEq, ↓reduceIte]

/-- The opcode bytes 0x80 to 0x83 as a range. -/
theorem and_0xFC_eq_0x80 : ∀ op : Byte, 0x80 ≤ op.toNat → op.toNat ≤ 0x83 → op &&& 0xFC = 0x80 := by
  decide

/-- R109, R110: the sub-opcodes without an operation are those that ALU_SUBOP does not list. -/
theorem aluOp?_eq_none_iff_not_mem_supportedSubops (t : Tables) (sub : BitVec 3) :
    aluOp? t sub = none ↔ sub ∉ supportedSubops t := by
  rw [aluOp?_eq_none]
  constructor
  · intro h hmem
    simp only [supportedSubops, List.mem_cons, List.not_mem_nil, or_false] at hmem
    obtain hadd | hsub | hcmp := hmem
    exacts [h .add hadd, h .sub hsub, h .cmp hcmp]
  · rintro h op rfl
    cases op <;> simp [supportedSubops, aluSubop] at h

end Sys2Proof

namespace Sys2Proof.Machine

theorem decodedOf_aluImmInstr (op : AluOp) (sx w : Bool) (rm : Rm) (imm : Imm) :
    decodedOf (aluImmInstr op sx w rm imm) = ⟨aluMnemonic op, [rmOperand w rm, immOperand w (immValue imm)]⟩ := by
  cases op <;> rfl

/-! ## The phases of the form -/

/-- The state after ReadOpcode and Classify on an opcode byte of the class `c` (R172, R173). -/
def State.classified (c : OpClass) (s : State) : State :=
  { s with pos := s.pos + 1, start := s.pos, cur := latchHead s.tables c s.cur, phase := .resolveOperands }

/-- `finish_of_classify`, by the name of the state it leads to. -/
theorem finish_eq_finishWithin_classified {s : State} {op : Byte} {c : OpClass} (hp : s.phase = .readOpcode)
    (hop : s.byteAt? s.pos = some op) (hc : classify s.tables op = some c) :
    finish s = finishWithin 3 (s.classified c) :=
  finish_of_classify hp hop hc

section
variable {s : State}

/-- R174, R187: ResolveOperands of the form without an addressing byte. -/
theorem phaseStep_aluImm_noModrm (hp : s.phase = .resolveOperands) (hf : s.cur.form = .aluImmRm)
    (hend : s.len ≤ s.pos) : phaseStep s = raiseTruncated s := by
  simp only [phaseStep, hp, resolveOperands, hf, readModrm, need_of_end hend, Except.map, settle]

/-- R109: ResolveOperands of the form when the sub-opcode has no operation. -/
theorem phaseStep_aluImm_unsupported {m : Byte} (hp : s.phase = .resolveOperands) (hf : s.cur.form = .aluImmRm)
    (hm : s.byteAt? s.pos = some m) (hsub : aluOp? s.tables (regField m) = none) :
    phaseStep s = raiseSubop m s.pos { s with pos := s.pos + 1, cur := latchModrm m s.cur } := by
  simp only [phaseStep, hp, resolveOperands, hf, readModrm, need_of_byteAt? hm, Except.map, latchModrm, hsub, settle]

/-- ResolveRM on the latched addressing byte: the operand is latched with the cursor past its bytes, or one of them is
missing (R73, R187). -/
theorem resolveLatched_cases (next : Phase) (hpos : s.pos ≤ s.len) :
    (s.pos + dispLen s.cur.mod s.cur.rm ≤ s.len ∧ ∃ o, settle (resolveLatched next s) =
      { s with pos := s.pos + dispLen s.cur.mod s.cur.rm, cur := latchRmop o s.cur, phase := next }) ∨
    settle (resolveLatched next s) = raiseTruncated { s with pos := s.len } := by
  obtain ⟨rm, hrm, hmod, hrmb, hheld, hok⟩ | ⟨-, hfail⟩ := resolveRm_cases s.cur.mod s.cur.rm s.cur.w s hpos
  · have hlen : rm.bytes.length = dispLen s.cur.mod s.cur.rm := by rw [Rm.bytes_length rm hrm, hmod, hrmb]
    rw [hlen] at hok
    exact .inl ⟨hlen ▸ holds_length hheld hpos, rmOperand s.cur.w rm, by
      simp only [resolveLatched, hok, Except.map, settle]⟩
  · exact .inr (by simp only [resolveLatched, hfail, Except.map, settle])

/-- R110: ResolveOperands of the form when the sub-opcode has an operation: what ResolveRM does, after the mnemonic is
latched. -/
theorem phaseStep_aluImm_supported {m : Byte} {aop : AluOp} (hp : s.phase = .resolveOperands)
    (hf : s.cur.form = .aluImmRm) (hm : s.byteAt? s.pos = some m) (hsub : aluOp? s.tables (regField m) = some aop) :
    (s.pos + 1 + dispLen (modField m) (rmField m) ≤ s.len ∧ ∃ o, phaseStep s = { s with
      pos := s.pos + 1 + dispLen (modField m) (rmField m)
      cur := latchRmop o (latchMn (aluMnemonic aop) (latchModrm m s.cur))
      phase := .readImmediate }) ∨
    ∃ l, phaseStep s = raiseTruncated { s with pos := s.len, cur := l } := by
  have hstep : phaseStep s = settle (resolveLatched .readImmediate
      { s with pos := s.pos + 1, cur := latchMn (aluMnemonic aop) (latchModrm m s.cur) }) := by
    simp only [phaseStep, hp, resolveOperands, hf, readModrm, need_of_byteAt? hm, Except.map, latchModrm, hsub]
  rw [hstep]
  obtain hok | hfail := resolveLatched_cases .readImmediate
    (s := { s with pos := s.pos + 1, cur := latchMn (aluMnemonic aop) (latchModrm m s.cur) })
    ((byteAt?_eq_some s _ _).mp hm).1
  · exact .inl hok
  · exact .inr ⟨_, hfail⟩

/-- R175, R187: ReadImmediate of the form when a byte of the immediate is missing. -/
theorem phaseStep_aluImm_immTruncated (hp : s.phase = .readImmediate) (hf : s.cur.form = .aluImmRm)
    (hpos : s.pos ≤ s.len) (hshort : s.len < s.pos + immLen s.cur.w s.cur.s) :
    phaseStep s = raiseTruncated { s with pos := s.len } := by
  obtain ⟨imm, himm, hheld, -⟩ | ⟨-, hfail⟩ := readImm_cases s.cur.w s.cur.s s hpos
  · have hin := holds_length hheld hpos
    rw [Imm.bytes_length _ _ imm himm] at hin
    omega
  · simp only [phaseStep, hp, readImmediate, hf, hfail, Except.map, settle]

end

/-! ## A step of the form -/

section
variable {s : State} {op m : Byte} {sx w : Bool}

/-- R109: without an addressing byte the form truncates, whatever its operation would be. -/
theorem aluImm_truncates_of_noModrm (hp : s.phase = .readOpcode) (hop : s.byteAt? s.pos = some op)
    (hc : classify s.tables op = some (.aluImmRm sx w)) (hm : s.byteAt? (s.pos + 1) = none) : Truncates s := by
  obtain ⟨e, hf⟩ := fetch_error_of_short hop hc fun m h => by rw [hm] at h; cases h
  have hend : s.len = s.pos + 1 :=
    le_antisymm ((byteAt?_eq_none s _).mp hm) ((byteAt?_eq_some s _ _).mp hop).1
  have hread := phaseStep_aluImm_noModrm (s := s.classified (.aluImmRm sx w)) rfl rfl hend.le
  exact truncates_of_finish hp hf (by
    rw [finish_eq_finishWithin_classified hp hop hc, finishWithin_rest (by rw [hread]; rfl), hread,
      State.classified, ← hend])

/-- R110, R187: with a supported sub-opcode the form truncates when a byte after the addressing byte is missing, be it
one that ResolveRM or one that ReadImm calls for. -/
theorem aluImm_truncates_of_modrm {aop : AluOp} (hp : s.phase = .readOpcode) (hop : s.byteAt? s.pos = some op)
    (hc : classify s.tables op = some (.aluImmRm sx w)) (hm : s.byteAt? (s.pos + 1) = some m)
    (hsub : aluOp? s.tables (regField m) = some aop)
    (hshort : s.len < s.pos + 2 + dispLen (modField m) (rmField m) + immLen w sx) : Truncates s := by
  obtain ⟨e, hf⟩ := fetch_error_of_short hop hc fun m' hm' => by
    obtain rfl : m = m' := Option.some.inj (hm.symm.trans hm')
    simp only [formLength]
    omega
  have hhead := finish_eq_finishWithin_classified hp hop hc
  have hresolve := phaseStep_aluImm_supported (s := s.classified (.aluImmRm sx w)) rfl rfl hm hsub
  obtain ⟨hin, o, hok⟩ | ⟨l, hfail⟩ := hresolve
  · have himm := phaseStep_aluImm_immTruncated (s := phaseStep (s.classified (.aluImmRm sx w)))
      (by rw [hok]) (by rw [hok]; rfl) (by rw [hok]; exact hin) (by rw [hok]; exact hshort)
    exact truncates_of_finish hp hf (by
      rw [hhead, finishWithin_busy (by rw [hok]; rfl), finishWithin_rest (by rw [himm]; rfl), himm, hok]
      rfl)
  · exact truncates_of_finish hp hf (by
      rw [hhead, finishWithin_rest (by rw [hfail]; rfl), hfail]
      rfl)

/-- R109: with an unsupported sub-opcode the form fails straight after the addressing byte. -/
theorem aluImm_failsWith_of_unsupported (hp : s.phase = .readOpcode) (hop : s.byteAt? s.pos = some op)
    (hc : classify s.tables op = some (.aluImmRm sx w)) (hm : s.byteAt? (s.pos + 1) = some m)
    (hsub : aluOp? s.tables (regField m) = none) :
    FailsWith s (s.pos + 2) .unsupportedOpcode .aluSubop (some m) (s.pos + 1) := by
  obtain ⟨r, hr⟩ := bytesFrom_of_holds (n := maxLength) (bs := [op, m]) ⟨hop, hm, trivial⟩ (by simp [maxLength])
  have hf : fetch s = .error (.unsupportedSubop m) := by
    simp [fetch, hr, decode, hc, takeForm, takeAluImm, hsub]
  have hfail := phaseStep_aluImm_unsupported (s := s.classified (.aluImmRm sx w)) rfl rfl hm hsub
  exact ⟨_, by
    rw [step_of_fetch_error hp hf, finish_eq_finishWithin_classified hp hop hc,
      finishWithin_rest (by rw [hfail]; rfl), hfail]
    rfl⟩

/-- R103 to R105, R83, R55: a step of the form with all its bytes: the operands of the tables, r/m operand first. -/
theorem aluImm_decodesTo {aop : AluOp} (hp : s.phase = .readOpcode) (hop : s.byteAt? s.pos = some op)
    (hc : classify s.tables op = some (.aluImmRm sx w)) (hm : s.byteAt? (s.pos + 1) = some m)
    (hsub : regField m = aluSubop s.tables aop) (ht : unambiguous s.tables = true)
    (hlen : s.pos + 2 + dispLen (modField m) (rmField m) + immLen w sx ≤ s.len) :
    let a := s.pos + 2 + dispLen (modField m) (rmField m)
    DecodesTo s (2 + dispLen (modField m) (rmField m) + immLen w sx) ⟨aluMnemonic aop,
      [operandTable m w (memRead s.stream (s.pos + 2)) (memRead s.stream (s.pos + 3)),
        immediateTable w sx (memRead s.stream a) (memRead s.stream (a + 1))]⟩ := by
  intro a
  obtain ⟨rm, hrm, hmod, hrmb, hheldRm, htableRm⟩ := exists_rm s m w (s.pos + 2) (by omega) (by omega)
  obtain ⟨imm, himm, hheldImm, htableImm⟩ := exists_imm s w sx a (by omega) hlen
  have hmodrm : modrmByte rm.modBits (aluSubop s.tables aop) rm.rmBits = m := by
    rw [hmod, hrmb, ← hsub, modrmByte_fields]
  have hrmLen : rm.bytes.length = dispLen (modField m) (rmField m) := by rw [Rm.bytes_length rm hrm, hmod, hrmb]
  have hheld : Holds s (s.pos + 2) (rm.bytes ++ imm.bytes) :=
    (holds_append _ _ _ _).mpr ⟨hheldRm, by rwa [hrmLen]⟩
  have htake (r : List Byte) : takeForm s.tables (.aluImmRm sx w) ((m :: (rm.bytes ++ imm.bytes)) ++ r) =
      .ok (aluImmInstr aop sx w rm imm, r) := by
    rw [List.cons_append, ← hmodrm]
    exact takeForm_aluImmRm_bytes ht aop r (by rw [hrm, himm]; rfl)
  have hstep := decodesTo_of_takeForm (bs := m :: (rm.bytes ++ imm.bytes)) hp hc ⟨hop, hm, hheld⟩ htake
  rwa [length_aluImmInstr, decodedOf_aluImmInstr, hrmLen, Imm.bytes_length _ _ imm himm, htableRm, htableImm] at hstep

end

/-! ## The line of a destination and an immediate (R158) -/

/-- Before an immediate, the text of a destination is its size keyword, if any, and its plain text. -/
theorem operandText_destination (t : Tables) (mn : Mnemonic) (dst : Operand) (v : Int) (width : Width) :
    operandText t ⟨mn, [dst, .immediate v width]⟩ dst =
      sizeKeyword ⟨mn, [dst, .immediate v width]⟩ ++ plainText t dst := by
  rw [← operandText_of_sizeKeyword_nil t (i := ⟨mn, []⟩) rfl dst]
  cases dst <;> rfl

theorem format_immediate (t : Tables) (mn : Mnemonic) (dst : Operand) (v : Int) (width : Width) :
    format t ⟨mn, [dst, .immediate v width]⟩ =
      mnemonicText t mn ++ " ".toList ++ sizeKeyword ⟨mn, [dst, .immediate v width]⟩ ++ plainText t dst ++
        ", ".toList ++ plainText t (.immediate v width) := by
  have hsrc : operandText t ⟨mn, [dst, .immediate v width]⟩ (.immediate v width) =
      plainText t (.immediate v width) := rfl
  simp [format, operandsText, operandText_destination, hsrc]

theorem immediateTable_width (w sx : Bool) (b0 b1 : Byte) :
    ∃ v, immediateTable w sx b0 b1 = .immediate v (widthOf w) := by
  cases w <;> cases sx <;> exact ⟨_, rfl⟩

/-- R158: the size keyword stands before a memory destination, and it is the width of the form. -/
theorem sizeKeyword_operandTable (mn : Mnemonic) (m : Byte) (w : Bool) (b0 b1 : Byte) (v : Int) :
    sizeKeyword ⟨mn, [operandTable m w b0 b1, .immediate v (widthOf w)]⟩ =
      if modField m = 0b11 then [] else if w then "word ".toList else "byte ".toList := by
  by_cases hmod : modField m = 0b11
  case pos =>
    rw [operandTable, if_pos hmod, if_pos hmod, sizeKeyword_register_left]
  case neg =>
    have hmem : sizeKeyword ⟨mn, [operandTable m w b0 b1, .immediate v (widthOf w)]⟩ =
        widthText (widthOf w) ++ [' '] := by
      rw [operandTable, if_neg hmod]
      split_ifs <;> rfl
    rw [hmem, if_neg hmod]
    cases w <;> rfl

/-- An immediate-to-register/memory form does what R103 to R105 say with the bytes, whatever its operation. -/
theorem aluImmFormFromBytes (aop : AluOp) {name : Text} (hname : ∀ t, mnemonicText t (aluMnemonic aop) = name) :
    AluImmFormFromBytes aop (aluMnemonic aop) name := by
  intro s op m hp hop hbase hm hsub ht a n
  have hc := classify_aluImmRm s.tables op hbase
  refine ⟨fun hshort => ?short, fun hlen => ⟨?decodes, ?line⟩⟩
  case short =>
    exact aluImm_truncates_of_modrm hp hop hc hm (by rw [hsub, aluOp?_aluSubop ht]) hshort
  case decodes => exact aluImm_decodesTo hp hop hc hm hsub ht hlen
  case line =>
    obtain ⟨v, hv⟩ :=
      immediateTable_width (op.getLsbD 0) (op.getLsbD 1) (memRead s.stream a) (memRead s.stream (a + 1))
    rw [hv, format_immediate, sizeKeyword_operandTable, hname]

/-- R110: an immediate-to-register/memory form with all its bytes in the stream. -/
theorem runAluImm_next {op : AluOp} {sx w : Bool} {rm : Rm} {imm : Imm} {s : State} (hp : s.phase = .readOpcode)
    (hl : s.pos + 2 + rm.bytes.length + imm.bytes.length ≤ s.len) :
    runAluImm op sx w rm imm s = .next { s with
      pos := s.pos + 2 + rm.bytes.length + imm.bytes.length
      start := s.pos
      cur := { s.cur with
        op := BitVec.ofNat 8 (0x80 + 2 * sx.toNat + w.toNat), form := .aluImmRm, s := sx, w := w
        mn := aluMnemonic op
        modrm := modrmByte rm.modBits (aluSubop s.tables op) rm.rmBits
        mod := rm.modBits, reg := aluSubop s.tables op, rm := rm.rmBits
        rmop := rmOperand w rm, imm := immValue imm }
      out := s.out ++ [
        let i : Instruction := ⟨aluMnemonic op, [rmOperand w rm, immOperand w (immValue imm)]⟩
        (i, format s.tables i)] } := by
  rw [runAluImm, complete_next _ _ hp (by omega) (by omega)]
  simp [emit, latchImm, latchRmop, latchMn, latchModrm, latchHead, latchClass, latchOp, opByte, opByte6_eq, hp,
    Nat.add_assoc]

end Sys2Proof.Machine
end

section
/-! PROOFS. The statements of 41_add_sub_cmp, settled. -/

namespace Sys2Proof.AddSubCmp

open Sys2Proof.Machine

/-- Settles O10: ADD, SUB and CMP are register/memory forms, each by its opcode bytes. -/
theorem aluRmFromBytes : Obligations.AluRmFromBytes :=
  ⟨rmFormFromBytes (fun _ _ => .add) classify_addRm fun _ => rfl,
    rmFormFromBytes (fun _ _ => .sub) classify_subRm fun _ => rfl,
    rmFormFromBytes (fun _ _ => .cmp) classify_cmpRm fun _ => rfl⟩

/-- Settles O11: one argument for the three operations (`aluImmFormFromBytes`), and the truncation before the addressing
byte, which comes before any of them. -/
theorem aluImmFromBytes : Obligations.AluImmFromBytes := by
  refine ⟨aluImmFormFromBytes .add fun _ => rfl, aluImmFormFromBytes .sub fun _ => rfl,
    aluImmFormFromBytes .cmp fun _ => rfl, ⟨rfl, rfl, rfl⟩, fun s op hp hop hbase hend => ?noModrm⟩
  case noModrm =>
    exact aluImm_truncates_of_noModrm hp hop (classify_aluImmRm _ _ hbase) ((byteAt?_eq_none s _).mpr hend.le)

/-- Settles O12: ADD, SUB and CMP are forms with an immediate only, to register 0, each by its two opcode bytes. -/
theorem aluAccFromBytes : Obligations.AluAccFromBytes :=
  ⟨ImmForm.add.fromBytes (fun _ => rfl) fun _ => rfl, ImmForm.add.fromBytes (fun _ => rfl) fun _ => rfl,
    ImmForm.sub.fromBytes (fun _ => rfl) fun _ => rfl, ImmForm.sub.fromBytes (fun _ => rfl) fun _ => rfl,
    ImmForm.cmp.fromBytes (fun _ => rfl) fun _ => rfl, ImmForm.cmp.fromBytes (fun _ => rfl) fun _ => rfl⟩

/-- Settles O17: a missing addressing byte truncates; one whose sub-opcode ALU_SUBOP does not list fails the run. -/
theorem unsupportedSubopFailsTheRun : Obligations.UnsupportedSubopFailsTheRun := by
  refine ⟨by decide, fun s op hp hop hlo hhi => ?_⟩
  have hc := classify_aluImmRm s.tables op (and_0xFC_eq_0x80 op hlo hhi)
  refine ⟨fun hnone => ?noModrm, fun m hm hsub => ?unsupported⟩
  case noModrm => exact aluImm_truncates_of_noModrm hp hop hc hnone
  case unsupported =>
    exact aluImm_failsWith_of_unsupported hp hop hc hm ((aluOp?_eq_none_iff_not_mem_supportedSubops _ _).mpr hsub)

/-- Settles O24: the three forms are one run of `runAluImm`, of the operation each. -/
theorem aluImmFormsComplete : Obligations.AluImmFormsComplete := by
  intro sx w rm imm s hp hl p hmem
  simp only [List.mem_cons, List.not_mem_nil, or_false] at hmem
  obtain rfl | rfl | rfl := hmem
  all_goals exact runAluImm_next hp hl

end Sys2Proof.AddSubCmp
end

section
/-! PROOFS. A step on the bytes of a jump or loop instruction (42_jumps_loops R120, R121 to R140): the form's
instruction with its raw signed offset, or a truncation; and its line. -/

namespace Sys2Proof.Machine

/-! ## The phases of the form -/

/-- R175, R187: ReadImmediate of a jump or loop without its offset byte. -/
theorem phaseStep_offset_truncated {s : State} (hp : s.phase = .readImmediate) (hf : s.cur.form ∈ [Form.jcc, .loop])
    (hend : s.len ≤ s.pos) : phaseStep s = raiseTruncated s := by
  simp only [List.mem_cons, List.not_mem_nil, or_false] at hf
  obtain hf | hf := hf <;> simp only [phaseStep, hp, readImmediate, hf, need_of_end hend, Except.map, settle]

/-! ## The line (R150, R151, R162) -/

/-- The line of a jump or loop: its name in the tables, a space, and the offset. -/
theorem format_offset (t : Tables) (mn : Mnemonic) (v : Int) :
    format t ⟨mn, [.immediate v .byte]⟩ = mnemonicText t mn ++ ' ' :: sdec v := by
  simp [format, operandsText, operandText]

/-! ## The jump and loop forms (R57, R120) -/

/-- The form that a class of jumps or loops stands for, with its instruction by offset and its mnemonic (R57). -/
inductive JumpForm : OpClass → (Byte → Instr) → Mnemonic → Prop
  | jcc (code : BitVec 4) : JumpForm (.jcc code) (jccInstr code) (.conditionalJump code)
  | loop (code : BitVec 2) : JumpForm (.loop code) (loopInstr code) (.loopVariant code)

theorem decodedOf_jccInstr (code : BitVec 4) (off : Byte) :
    decodedOf (jccInstr code off) = ⟨.conditionalJump code, jumpOperands (signed8 off)⟩ := by
  obtain ⟨n, hn⟩ := code
  interval_cases n <;> rfl

theorem decodedOf_loopInstr (code : BitVec 2) (off : Byte) :
    decodedOf (loopInstr code off) = ⟨.loopVariant code, jumpOperands (signed8 off)⟩ := by
  obtain ⟨n, hn⟩ := code
  interval_cases n <;> rfl

theorem latchOf_jccInstr (t : Tables) (code : BitVec 4) (off : Byte) (l : Latches) :
    latchOf t (jccInstr code off) l = latchImm (signed8 off) (latchHead t (.jcc code) l) := by
  obtain ⟨n, hn⟩ := code
  interval_cases n <;> rfl

theorem latchOf_loopInstr (t : Tables) (code : BitVec 2) (off : Byte) (l : Latches) :
    latchOf t (loopInstr code off) l = latchImm (signed8 off) (latchHead t (.loop code) l) := by
  obtain ⟨n, hn⟩ := code
  interval_cases n <;> rfl

section
variable {c : OpClass} {mk : Byte → Instr} {mn : Mnemonic}

theorem JumpForm.takeForm_cons (h : JumpForm c mk mn) (t : Tables) (off : Byte) (r : List Byte) :
    takeForm t c (off :: r) = .ok (mk off, r) := by
  cases h <;> rfl

theorem JumpForm.formLength_eq (h : JumpForm c mk mn) (m : Byte) : formLength c m = 2 := by
  cases h <;> rfl

theorem JumpForm.length_eq (h : JumpForm c mk mn) (off : Byte) : (mk off).length = 2 := by
  cases h with
  | jcc code => exact length_jccInstr code off
  | loop code => exact length_loopInstr code off

theorem JumpForm.decodedOf_eq (h : JumpForm c mk mn) (off : Byte) :
    decodedOf (mk off) = ⟨mn, [.immediate off.toInt .byte]⟩ := by
  rw [← signed8_eq_toInt]
  cases h with
  | jcc code => exact decodedOf_jccInstr code off
  | loop code => exact decodedOf_loopInstr code off

theorem JumpForm.latchOf_eq (h : JumpForm c mk mn) (t : Tables) (off : Byte) (l : Latches) :
    latchOf t (mk off) l = latchImm off.toInt (latchHead t c l) := by
  rw [← signed8_eq_toInt]
  cases h with
  | jcc code => exact latchOf_jccInstr t code off l
  | loop code => exact latchOf_loopInstr t code off l

theorem JumpForm.form_latchHead (h : JumpForm c mk mn) (t : Tables) (l : Latches) :
    (latchHead t c l).form ∈ [Form.jcc, .loop] := by
  cases h <;> simp [latchHead, latchClass]

variable {s : State}

/-- R120, R180: a jump or loop with both its bytes in the stream: two bytes on, whatever the offset. -/
theorem JumpForm.exec_next (h : JumpForm c mk mn) {off : Byte} (hp : s.phase = .readOpcode)
    (hl : s.pos + 2 ≤ s.len) :
    exec (mk off) s = .next { s with
      pos := s.pos + 2
      start := s.pos
      cur := latchImm off.toInt (latchHead s.tables c s.cur)
      out := s.out ++ [
        let i : Instruction := ⟨mn, [.immediate off.toInt .byte]⟩
        (i, format s.tables i)] } := by
  have hlen := h.length_eq off
  rw [Machine.exec_next hp (by omega) (by rwa [hlen]), hlen, h.decodedOf_eq, h.latchOf_eq, emit, ← hp]

variable {op : Byte}

/-- R120, R187: a step of a jump or loop without its offset byte. -/
theorem JumpForm.truncates (h : JumpForm c mk mn) (hp : s.phase = .readOpcode) (hop : s.byteAt? s.pos = some op)
    (hc : classify s.tables op = some c) (hend : s.len = s.pos + 1) : Truncates s := by
  obtain ⟨e, hf⟩ := fetch_error_of_short hop hc fun m _ => by rw [h.formLength_eq]; omega
  have hresolve := phaseStep_noModrm (s := s.classified c) rfl
    (List.mem_append_right [Form.aluImmAcc, .movImmReg] (h.form_latchHead _ _))
  have hread := phaseStep_offset_truncated (s := { s.classified c with phase := .readImmediate }) rfl
    (h.form_latchHead _ _) hend.le
  exact truncates_of_finish hp hf (by
    rw [finish_eq_finishWithin_classified hp hop hc, finishWithin_busy (by rw [hresolve]; rfl), hresolve,
      finishWithin_rest (by rw [hread]; rfl), hread, State.classified, ← hend])

/-- R120: a step of a jump or loop with its offset byte: the raw signed offset, and no jump taken. -/
theorem JumpForm.decodesTo (h : JumpForm c mk mn) {off : Byte} (hp : s.phase = .readOpcode)
    (hop : s.byteAt? s.pos = some op) (hc : classify s.tables op = some c) (hoff : s.byteAt? (s.pos + 1) = some off) :
    DecodesTo s 2 ⟨mn, [.immediate off.toInt .byte]⟩ := by
  have hstep := decodesTo_of_takeForm (bs := [off]) hp hc ⟨hop, hoff, trivial⟩ (h.takeForm_cons s.tables off)
  rwa [h.length_eq, h.decodedOf_eq] at hstep

/-- A jump or loop does what R120 says with the bytes, whatever its opcode byte; `hname` is its default name. -/
theorem JumpForm.jumpRow {name : Text} (h : JumpForm c mk mn) (hname : mnemonicText defaultTables mn = name)
    (hp : s.phase = .readOpcode) (hop : s.byteAt? s.pos = some op) (hc : classify s.tables op = some c) :
    JumpRow s mn name := by
  refine ⟨h.truncates hp hop hc, fun off hoff => ⟨h.decodesTo hp hop hc hoff, ?line, fun ht => ?defaultLine⟩⟩
  case line => exact format_offset s.tables mn off.toInt
  case defaultLine => rw [format_offset, ht, hname]

end

/-- The opcode byte of format J, as a number. -/
theorem opByte_jcc (t : Tables) (code : BitVec 4) : opByte t (.jcc code) = BitVec.ofNat 8 (0x70 + code.toNat) := by
  simp only [opByte]
  revert code; decide

/-- R121 to R136, by the code. -/
theorem jccFromBytes (code : BitVec 4) :
    JumpFromBytes (BitVec.ofNat 8 (0x70 + code.toNat)) (.conditionalJump code) (ccText defaultTables code) := by
  intro s hp hop
  refine (JumpForm.jcc code).jumpRow rfl hp hop ?_
  rw [← opByte_jcc s.tables, classify_of_isFixed _ rfl]

/-- R137 to R140, by the code. -/
theorem loopFromBytes (code : BitVec 2) :
    LoopFromBytes (loopOpcode defaultTables code) code (loopText defaultTables code) :=
  ⟨fun _ hp hop ht => (JumpForm.loop code).jumpRow rfl hp hop (classify_opByte ht (.loop code)), rfl⟩

end Sys2Proof.Machine
end

section
/-! PROOFS. The statements of 42_jumps_loops, settled. -/

namespace Sys2Proof.JumpsLoops

open Sys2Proof.Machine

/-- Settles O13: the codes 0 to 7 of `jccFromBytes`. -/
theorem jumpsLowFromBytes : Obligations.JumpsLowFromBytes :=
  ⟨jccFromBytes 0, jccFromBytes 1, jccFromBytes 2, jccFromBytes 3, jccFromBytes 4, jccFromBytes 5, jccFromBytes 6,
    jccFromBytes 7⟩

/-- Settles O14: the codes 8 to 15 of `jccFromBytes`. -/
theorem jumpsHighFromBytes : Obligations.JumpsHighFromBytes :=
  ⟨jccFromBytes 8, jccFromBytes 9, jccFromBytes 10, jccFromBytes 11, jccFromBytes 12, jccFromBytes 13, jccFromBytes 14,
    jccFromBytes 15⟩

/-- Settles O15: the four codes of `loopFromBytes`. -/
theorem loopsFromBytes : Obligations.LoopsFromBytes :=
  ⟨loopFromBytes 0, loopFromBytes 1, loopFromBytes 2, loopFromBytes 3⟩

/-- Settles O26: each row of the list is the jump of its code, and one completion covers every code. -/
theorem conditionalJumpsComplete : Obligations.ConditionalJumpsComplete := by
  intro off s hp hl p hmem
  have hcode : p.1 = jccInstr p.2 off := by
    revert p
    simp only [List.forall_mem_cons, List.not_mem_nil, false_imp_iff, implies_true, and_true]
    exact ⟨rfl, rfl, rfl, rfl, rfl, rfl, rfl, rfl, rfl, rfl, rfl, rfl, rfl, rfl, rfl, rfl⟩
  rw [hcode, (JumpForm.jcc p.2).exec_next hp hl, latchHead, opByte_jcc]
  rfl

/-- Settles O27: each row of the list is the loop of its code, and one completion covers every code. -/
theorem loopFamilyCompletes : Obligations.LoopFamilyCompletes := by
  intro off s hp hl p hmem
  have hcode : p.1 = loopInstr p.2 off := by
    revert p
    simp only [List.forall_mem_cons, List.not_mem_nil, false_imp_iff, implies_true, and_true]
    exact ⟨rfl, rfl, rfl, rfl⟩
  rw [hcode, (JumpForm.loop p.2).exec_next hp hl]
  rfl

end Sys2Proof.JumpsLoops
end

section
/-! PROOFS. The text of numbers (48_text_format R155, R162): decimal digits by the recursion on the number of digits,
the sign of an immediate, and the sign of a displacement. -/

namespace Sys2Proof.Machine

/-! ## Decimal digits (R162) -/

/-- With fuel enough for the number, neither the fuel nor what stands behind the digits matters. -/
theorem decDigits_eq_dec_append {fuel n : Nat} (h : n < fuel) (acc : Text) :
    decDigits fuel n acc = dec n ++ acc := by
  induction n using Nat.strong_induction_on generalizing fuel acc with
  | _ n ih =>
    obtain ⟨fuel, rfl⟩ := Nat.exists_eq_add_one_of_ne_zero (by omega : fuel ≠ 0)
    by_cases hn : n < 10
    case pos => simp [dec, decDigits, hn]
    case neg =>
      simp only [dec, decDigits, hn, if_false]
      rw [ih (n / 10) (by omega) (by omega), ih (n / 10) (by omega) (fuel := n) (by omega)]
      simp

theorem dec_of_lt {d : Nat} (h : d < 10) : dec d = [digitChar d] := by
  simp [dec, decDigits, h]

/-- The last digit stands behind the digits of the number without it. -/
theorem dec_ten_mul_add {n d : Nat} (hn : 0 < n) (hd : d < 10) : dec (10 * n + d) = dec n ++ [digitChar d] := by
  have hdiv : (10 * n + d) / 10 = n := by omega
  have hmod : (10 * n + d) % 10 = d := by omega
  rw [dec, decDigits, if_neg (by omega), hdiv, hmod, decDigits_eq_dec_append (by omega)]

/-- Induction on the number of digits: one digit, and one digit more behind a positive number. -/
theorem digit_induction {motive : Nat → Prop} (digit : ∀ d < 10, motive d)
    (snoc : ∀ n d, 0 < n → d < 10 → motive n → motive (10 * n + d)) (n : Nat) : motive n := by
  induction n using Nat.strong_induction_on with
  | _ n ih =>
    by_cases hn : n < 10
    case pos => exact digit n hn
    case neg =>
      have h := snoc (n / 10) (n % 10) (by omega) (by omega) (ih (n / 10) (by omega))
      rwa [Nat.div_add_mod] at h

theorem digitChar_toNat {d : Nat} (h : d < 10) : (digitChar d).toNat = 48 + d := by
  revert d; decide

theorem isDigit_digitChar {d : Nat} (h : d < 10) : (digitChar d).isDigit = true := by
  revert d; decide

theorem digitChar_ne_zero {d : Nat} (hpos : 0 < d) (h : d < 10) : digitChar d ≠ '0' := by
  have : ∀ d < 10, 0 < d → digitChar d ≠ '0' := by decide
  exact this d h hpos

/-- Reading is a fold over the digits, the most significant one first. -/
theorem readDec_eq_foldl (acc : Nat) (cs : Text) :
    readDec acc cs = cs.foldl (fun acc c => 10 * acc + (c.toNat - 48)) acc := by
  induction cs generalizing acc with
  | nil => rfl
  | cons c cs ih => exact ih _

theorem readDec_snoc (acc : Nat) (cs : Text) (c : Char) :
    readDec acc (cs ++ [c]) = 10 * readDec acc cs + (c.toNat - 48) := by
  simp only [readDec_eq_foldl, List.foldl_append, List.foldl_cons, List.foldl_nil]

theorem readDec_dec (n : Nat) : readDec 0 (dec n) = n := by
  induction n using digit_induction with
  | digit d hd =>
    rw [dec_of_lt hd, readDec_eq_foldl, List.foldl_cons, List.foldl_nil, digitChar_toNat hd]; omega
  | snoc n d hn hd ih => rw [dec_ten_mul_add hn hd, readDec_snoc, ih, digitChar_toNat hd]; omega

theorem dec_ne_nil (n : Nat) : dec n ≠ [] := by
  induction n using digit_induction with
  | digit d hd => simp [dec_of_lt hd]
  | snoc n d hn hd ih => simp [dec_ten_mul_add hn hd]

theorem all_isDigit_dec (n : Nat) : (dec n).all Char.isDigit = true := by
  induction n using digit_induction with
  | digit d hd => simp [dec_of_lt hd, isDigit_digitChar hd]
  | snoc n d hn hd ih => rw [dec_ten_mul_add hn hd, List.all_append, ih]; simp [isDigit_digitChar hd]

/-- A digit behind others leaves the first one where it is, so the first digit is the one of a number below ten. -/
theorem head?_dec_ne_zero {n : Nat} (hpos : 0 < n) : (dec n).head? ≠ some '0' := by
  induction n using digit_induction with
  | digit d hd => simpa [dec_of_lt hd] using digitChar_ne_zero hpos hd
  | snoc n d hn hd ih =>
    rw [dec_ten_mul_add hn hd, List.head?_append_of_ne_nil _ (dec_ne_nil n)]
    exact ih hn

/-! ## Signed numbers (R162) -/

theorem sdec_of_nonneg {v : Int} (h : 0 ≤ v) : sdec v = dec v.natAbs := if_pos h

theorem sdec_of_neg {v : Int} (h : v < 0) : sdec v = '-' :: dec v.natAbs := if_neg (by omega)

/-- A digit is no sign. -/
theorem readSDec_dec (n : Nat) : readSDec (dec n) = n := by
  have hread := readDec_dec n
  have hdigits := all_isDigit_dec n
  match hd : dec n with
  | [] => exact absurd hd (dec_ne_nil n)
  | c :: cs =>
    have hc : c ≠ '-' := by rintro rfl; simp [hd] at hdigits
    rw [hd] at hread
    rw [readSDec, hread]
    rintro cs' hcons
    exact hc (List.cons.inj hcons).1

theorem readSDec_sdec (v : Int) : readSDec (sdec v) = v := by
  by_cases hv : 0 ≤ v
  case pos => rw [sdec_of_nonneg hv, readSDec_dec]; omega
  case neg => rw [sdec_of_neg (by omega), readSDec, readDec_dec]; omega

/-! ## Displacements (R155) -/

theorem displacementText_of_nonneg {d : Int} (h : 0 ≤ d) : displacementText (some d) = " + ".toList ++ dec d.natAbs :=
  if_pos h

theorem displacementText_of_neg {d : Int} (h : d < 0) : displacementText (some d) = " - ".toList ++ dec d.natAbs :=
  if_neg (by omega)

/-- A two's complement reading with the modulus `2 * half`: the sign is the upper half, and the magnitude of a negative
value is what the code lacks of the modulus. -/
theorem displacementText_twosComplement {half k : Nat} (hk : k < 2 * half) :
    displacementText (some (if k < half then (k : Int) else k - (2 * half : Nat))) =
      if k < half then " + ".toList ++ dec k else " - ".toList ++ dec (2 * half - k) := by
  by_cases h : k < half
  case pos => rw [if_pos h, if_pos h, displacementText_of_nonneg (by omega), Int.natAbs_natCast]
  case neg =>
    have habs : ((k : Int) - (2 * half : Nat)).natAbs = 2 * half - k := by omega
    rw [if_neg h, if_neg h, displacementText_of_neg (by omega), habs]

end Sys2Proof.Machine
end

section
/-! PROOFS. The characters of a line (48_text_format R163): under the default tables every piece of text that a line is
made of is in the character set. -/

namespace Sys2Proof.Machine

/-! ## The pieces of a line -/

theorem lineChar_of_isDigit {c : Char} (h : c.isDigit = true) : lineChar c = true := by
  have h09 : '0' ≤ c ∧ c ≤ '9' := by simpa [Char.isDigit, Char.le_def] using h
  simp [lineChar, h09]

theorem all_lineChar_dec (n : Nat) : (dec n).all lineChar = true :=
  List.all_eq_true.mpr fun c hc => lineChar_of_isDigit (List.all_eq_true.mp (all_isDigit_dec n) c hc)

theorem all_lineChar_sdec (v : Int) : (sdec v).all lineChar = true := by
  by_cases hv : 0 ≤ v
  case pos => rw [sdec_of_nonneg hv, all_lineChar_dec]
  case neg => rw [sdec_of_neg (by omega), List.all_cons, all_lineChar_dec]; decide

theorem all_lineChar_displacementText (d : Option Int) : (displacementText d).all lineChar = true := by
  obtain _ | d := d
  · rfl
  by_cases hd : 0 ≤ d
  case pos => rw [displacementText_of_nonneg hd, List.all_append, all_lineChar_dec]; decide
  case neg => rw [displacementText_of_neg (by omega), List.all_append, all_lineChar_dec]; decide

theorem all_lineChar_eaText : ∀ base, (eaText defaultTables base).all lineChar = true := by decide

theorem all_lineChar_registerText (width : Width) (k : BitVec 3) :
    (registerText defaultTables width k).all lineChar = true := by
  cases width <;> revert k <;> decide

theorem all_lineChar_mnemonicText (mn : Mnemonic) : (mnemonicText defaultTables mn).all lineChar = true := by
  cases mn with
  | conditionalJump code | loopVariant code => revert code; decide
  | _ => decide

theorem all_lineChar_directText (a : Word) : (directText a).all lineChar = true := by
  rw [directText, List.all_cons, List.all_append, all_lineChar_dec]; decide

theorem all_lineChar_indexedText (base : BitVec 3) (d : Option Int) :
    (indexedText defaultTables base d).all lineChar = true := by
  rw [indexedText, List.all_cons, List.all_append, List.all_append, all_lineChar_eaText,
    all_lineChar_displacementText]
  decide

theorem all_lineChar_sizeKeyword (i : Instruction) : (sizeKeyword i).all lineChar = true := by
  have hwidth : ∀ width, (widthText width ++ [' ']).all lineChar = true := by
    intro width; cases width <;> decide
  unfold sizeKeyword
  split
  · exact hwidth _
  · exact hwidth _
  · rfl

/-! ## The line -/

theorem all_lineChar_operandText (i : Instruction) (o : Operand) :
    (operandText defaultTables i o).all lineChar = true := by
  cases o with
  | register width k => exact all_lineChar_registerText width k
  | memoryDirect a => rw [operandText, List.all_append, all_lineChar_sizeKeyword, all_lineChar_directText]; rfl
  | memoryIndexed base d => rw [operandText, List.all_append, all_lineChar_sizeKeyword, all_lineChar_indexedText]; rfl
  | immediate v width => exact all_lineChar_sdec v

theorem all_lineChar_operandsText (i : Instruction) (os : List Operand) :
    (operandsText defaultTables i os).all lineChar = true := by
  induction os using operandsText.induct with
  | case1 => rfl
  | case2 o => exact all_lineChar_operandText i o
  | case3 o os hos ih =>
    rw [operandsText, List.all_append, List.all_append, all_lineChar_operandText, ih]
    · decide
    · exact hos

/-- R163, of every instruction whatever its shape. -/
theorem all_lineChar_format (i : Instruction) : (format defaultTables i).all lineChar = true := by
  unfold format
  split
  · exact all_lineChar_mnemonicText _
  · rw [List.all_append, List.all_append, all_lineChar_mnemonicText, all_lineChar_operandsText]; decide

end Sys2Proof.Machine
end

section
/-! PROOFS. The line of each shape in full (48_text_format R150, R152 to R160), and the text output (R161). -/

namespace Sys2Proof.Machine

/-! ## The plain text of an operand, by the formatter's own functions -/

theorem plainText_register (t : Tables) (width : Width) (k : BitVec 3) :
    plainText t (.register width k) = registerText t width k := by
  cases width <;> rfl

theorem plainText_memoryIndexed (t : Tables) (base : BitVec 3) (d : Option Int) :
    plainText t (.memoryIndexed base d) = "[".toList ++ eaText t base ++ displacementText d ++ "]".toList := by
  rw [← operandText_of_sizeKeyword_nil t (i := ⟨.mov, []⟩) rfl]
  simp [operandText, sizeKeyword, indexedText]

/-! ## The lines with a register operand, and with an immediate to memory -/

theorem format_register_left (t : Tables) (mn : Mnemonic) (width : Width) (k : BitVec 3) (o : Operand) :
    format t ⟨mn, [.register width k, o]⟩ =
      mnemonicText t mn ++ " ".toList ++ registerText t width k ++ ", ".toList ++ plainText t o := by
  rw [format_of_sizeKeyword_nil t (sizeKeyword_register_left mn width k o), plainText_register]

theorem format_register_right (t : Tables) (mn : Mnemonic) (o : Operand) (width : Width) (k : BitVec 3) :
    format t ⟨mn, [o, .register width k]⟩ =
      mnemonicText t mn ++ " ".toList ++ plainText t o ++ ", ".toList ++ registerText t width k := by
  rw [format_of_sizeKeyword_nil t (sizeKeyword_register_right mn o width k), plainText_register]

/-- R158: the size keyword, with its space, before a memory operand whose source is an immediate. -/
theorem format_memory_immediate (t : Tables) (mn : Mnemonic) {dst : Operand} {v : Int} {width : Width}
    (h : sizeKeyword ⟨mn, [dst, .immediate v width]⟩ = widthText width ++ [' ']) :
    format t ⟨mn, [dst, .immediate v width]⟩ = mnemonicText t mn ++ " ".toList ++ widthText width ++ " ".toList ++
      plainText t dst ++ ", ".toList ++ sdec v := by
  rw [format_immediate, h]
  simp [plainText]

/-! ## The text output (R161) -/

theorem outputBytes_append (t : Tables) (out out' : List (Instruction × Text)) :
    outputBytes t (out ++ out') = outputBytes t out ++ outputBytes t out' :=
  List.flatMap_append

theorem outputBytes_singleton (t : Tables) (i : Instruction) (line : Text) :
    outputBytes t [(i, line)] = line.map charByte ++ [t.newline] :=
  List.flatMap_singleton _ _

end Sys2Proof.Machine
end

section
/-! PROOFS. The statements of 48_text_format, settled. -/

namespace Sys2Proof.TextFormat

open Sys2Proof.Machine

/-- Settles O48, by induction on the number of digits. -/
theorem decimalRenderingReadsBack : Obligations.DecimalRenderingReadsBack :=
  ⟨rfl, fun n => ⟨readDec_dec n, dec_ne_nil n, all_isDigit_dec n, head?_dec_ne_zero⟩,
    fun v => ⟨readSDec_sdec v, sdec_of_nonneg, sdec_of_neg⟩⟩

/-- Settles O49: both widths are one two's complement reading. -/
theorem displacementsPrintTheirSign : Obligations.DisplacementsPrintTheirSign :=
  ⟨fun b => displacementText_twosComplement (half := 0x80) b.isLt,
    fun v => displacementText_twosComplement (half := 0x8000) v.isLt⟩

/-- Settles O51: the shape of the instruction does not matter. -/
theorem linesUseTheCharacterSet : Obligations.LinesUseTheCharacterSet := fun i _ => all_lineChar_format i

/-- Settles O50: a register operand or an immediate to memory decides where a size keyword stands; the rest is the plain
text of each operand. -/
theorem lineOfEachShape : Obligations.LineOfEachShape := by
  intro t mn w w' r r' base a d v
  refine ⟨?regReg, ?regImm, ?regDirect, ?directReg, ?regIndexed, ?indexedReg, ?directImm, ?indexedImm, ?offset⟩
  case regReg => rw [format_register_left, plainText_register]
  case regImm => rw [format_register_left, plainText]
  case regDirect => rw [format_register_left, plainText]; simp
  case directReg => rw [format_register_right, plainText]; simp
  case regIndexed => rw [format_register_left, plainText_memoryIndexed]; simp
  case indexedReg => rw [format_register_right, plainText_memoryIndexed]; simp
  case directImm => rw [format_memory_immediate t mn rfl, plainText]; simp
  case indexedImm => rw [format_memory_immediate t mn rfl, plainText_memoryIndexed]; simp
  case offset => rw [format_offset]; simp

/-- Settles O52: the text output is a concatenation over the entries. -/
theorem everyLineEndsInANewline : Obligations.EveryLineEndsInANewline :=
  ⟨rfl, fun t out i line => ⟨rfl, by rw [outputBytes_append, outputBytes_singleton, List.append_assoc]⟩⟩

end Sys2Proof.TextFormat
end

section
/-! PROOFS. The two grains of 49_decode_loop (R171, R179, R181): on the bytes of an instruction the transitions end
where the whole instruction does, so a step is the transitions carried to rest, whatever stands at the cursor. -/

namespace Sys2Proof.Machine

/-! ## The transitions on the bytes of an instruction -/

/-- Emit is the last transition of an instruction (R176). -/
theorem finishWithin_emit (n : Nat) {s : State} (hp : s.phase = .emit) :
    finishWithin (n + 1) s = emit (latchedInstruction s.cur) s := by
  rw [finishWithin_rest (by rw [phaseStep_emit hp]; rfl), phaseStep_emit hp]

/-- R174, R176: a register/memory form goes from ResolveOperands to Emit. -/
theorem finishWithin_rm {s : State} {reg : BitVec 3} {rm : Rm} (hp : s.phase = .resolveOperands)
    (hf : s.cur.form ∈ [Form.addRm, .subRm, .cmpRm, .movRm]) (hrm : rm.wellFormed = true)
    (h : Holds s s.pos (modrmByte rm.modBits reg rm.rmBits :: rm.bytes)) :
    let l := latchRmop (rmOperand s.cur.w rm) (latchModrm (modrmByte rm.modBits reg rm.rmBits) s.cur)
    finishWithin 3 s = emit (latchedInstruction l) { s with pos := s.pos + 1 + rm.bytes.length, cur := l } := by
  have hresolve := phaseStep_rm hp hf hrm h
  rw [finishWithin_busy (by rw [hresolve]; rfl), hresolve, finishWithin_emit 1 rfl]
  rfl

/-- R174, R175, R176: a form with an addressing byte and an immediate goes from ResolveOperands by ReadImmediate to
Emit. -/
theorem finishWithin_aluImm {s : State} {op : AluOp} {rm : Rm} {imm : Imm} (hp : s.phase = .resolveOperands)
    (hf : s.cur.form = .aluImmRm) (hop : aluOp? s.tables (aluSubop s.tables op) = some op)
    (hrm : rm.wellFormed = true) (himm : imm.wellFormed s.cur.s s.cur.w = true)
    (h : Holds s s.pos (modrmByte rm.modBits (aluSubop s.tables op) rm.rmBits :: (rm.bytes ++ imm.bytes))) :
    let l := latchImm (immValue imm) (latchRmop (rmOperand s.cur.w rm) (latchMn (aluMnemonic op)
      (latchModrm (modrmByte rm.modBits (aluSubop s.tables op) rm.rmBits) s.cur)))
    finishWithin 3 s = emit (latchedInstruction l)
      { s with pos := s.pos + 1 + rm.bytes.length + imm.bytes.length, cur := l } := by
  obtain ⟨hm, hrest⟩ := h
  obtain ⟨hheldRm, hheldImm⟩ := (holds_append _ _ _ _).mp hrest
  have hresolve := phaseStep_aluImm hp hf hrm hop ⟨hm, hheldRm⟩
  have hread := phaseStep_imm (s := phaseStep s) (imm := imm) s.cur.s (by rw [hresolve])
    (.inl (by rw [hresolve]; exact ⟨hf, rfl⟩)) (by rw [hresolve]; exact himm)
    (by rw [hresolve]; exact hheldImm.of_eq rfl rfl)
  rw [finishWithin_busy (by rw [hresolve]; rfl), finishWithin_busy (by rw [hread]; rfl), hread, hresolve,
    finishWithin_emit 0 rfl]
  rfl

/-- R174, R175, R176: a form with an immediate only goes from ResolveOperands by ReadImmediate to Emit. -/
theorem finishWithin_imm {s : State} {imm : Imm} (hp : s.phase = .resolveOperands)
    (hf : s.cur.form ∈ [Form.aluImmAcc, .movImmReg]) (himm : imm.wellFormed false s.cur.w = true)
    (h : Holds s s.pos imm.bytes) :
    finishWithin 3 s = emit (latchedInstruction (latchImm (immValue imm) s.cur))
      { s with pos := s.pos + imm.bytes.length, cur := latchImm (immValue imm) s.cur } := by
  have hresolve := phaseStep_noModrm hp (List.mem_append_left [Form.jcc, .loop] hf)
  have hread := phaseStep_imm (s := { s with phase := .readImmediate }) false rfl (.inr ⟨rfl, hf⟩) himm
    (h.of_eq rfl rfl)
  rw [finishWithin_busy (by rw [hresolve]; rfl), hresolve, finishWithin_busy (by rw [hread]; rfl), hread,
    finishWithin_emit 0 rfl]
  rfl

/-- R174, R175, R176: a jump or loop goes from ResolveOperands by ReadImmediate to Emit. -/
theorem finishWithin_offset {s : State} {off : Byte} (hp : s.phase = .resolveOperands)
    (hf : s.cur.form ∈ [Form.jcc, .loop]) (h : s.byteAt? s.pos = some off) :
    finishWithin 3 s = emit (latchedInstruction (latchImm (signed8 off) s.cur))
      { s with pos := s.pos + 1, cur := latchImm (signed8 off) s.cur } := by
  have hresolve := phaseStep_noModrm hp (List.mem_append_right [Form.aluImmAcc, .movImmReg] hf)
  have hread := phaseStep_offset (s := { s with phase := .readImmediate }) (b := off) rfl hf h
  rw [finishWithin_busy (by rw [hresolve]; rfl), hresolve, finishWithin_busy (by rw [hread]; rfl), hread,
    finishWithin_emit 0 rfl]
  rfl

/-- R176, R180: what the latches hold after an instruction describes that instruction. -/
theorem latchedInstruction_latchOf (t : Tables) (i : Instr) (l : Latches) :
    latchedInstruction (latchOf t i l) = decodedOf i := by
  cases i with
  | movRm d w reg rm | addRm d w reg rm | subRm d w reg rm | cmpRm d w reg rm =>
    simp only [latchOf, latchRm, latchRmop, latchModrm, regField_modrmByte]
    rfl
  | _ => rfl

/-- The state after the decode of a whole instruction (R180). -/
def State.completed (i : Instr) (s : State) : State :=
  emit (decodedOf i) { s with pos := s.pos + i.length, start := s.pos, cur := latchOf s.tables i s.cur }

/-- After ReadOpcode and Classify, on bytes that the form's reader takes, the transitions complete its instruction. -/
theorem finishWithin_classified {s : State} {c : OpClass} {bs r : List Byte} {i : Instr}
    (h : takeForm s.tables c bs = .ok (i, r)) (hheld : Holds s (s.pos + 1) bs) :
    finishWithin 3 (s.classified c) = s.completed i := by
  replace hheld : Holds (s.classified c) (s.classified c).pos bs := hheld.of_eq rfl rfl
  rw [State.completed, ← latchedInstruction_latchOf s.tables i s.cur]
  cases c with
  | movRm d w | addRm d w | subRm d w | cmpRm d w =>
    obtain ⟨reg, rm, hrm, rfl, rfl⟩ := takeRmForm_ok h
    rw [← List.cons_append, holds_append] at hheld
    rw [finishWithin_rm rfl (by simp [State.classified, latchHead, latchClass]) hrm hheld.1]
    simp only [Instr.length, ← Nat.add_assoc]
    rfl
  | aluImmRm sx w =>
    obtain ⟨op, rm, imm, hop, hrm, himm, rfl, rfl⟩ := takeAluImm_ok h
    rw [← List.append_assoc, ← List.cons_append, holds_append] at hheld
    rw [finishWithin_aluImm (s := s.classified (.aluImmRm sx w)) rfl rfl hop hrm himm hheld.1]
    simp only [length_aluImmInstr, ← Nat.add_assoc]
    cases op <;> rfl
  | aluImmAcc op w =>
    obtain ⟨⟨imm, r'⟩, hp, he⟩ := map_ok h
    cases he
    obtain ⟨himm, rfl⟩ := takeImm_ok hp
    rw [holds_append] at hheld
    rw [finishWithin_imm rfl (by simp [State.classified, latchHead, latchClass]) himm hheld.1]
    simp only [length_aluAccInstr, ← Nat.add_assoc]
    cases op <;> rfl
  | movImmReg w oreg =>
    obtain ⟨⟨imm, r'⟩, hp, he⟩ := map_ok h
    cases he
    obtain ⟨himm, rfl⟩ := takeImm_ok hp
    rw [holds_append] at hheld
    rw [finishWithin_imm rfl (by simp [State.classified, latchHead, latchClass]) himm hheld.1]
    simp only [Instr.length, ← Nat.add_assoc]
    rfl
  | jcc code | loop code =>
    obtain ⟨⟨off, r'⟩, hp, he⟩ := map_ok h
    cases he
    cases takeByte_ok hp
    rw [finishWithin_offset rfl (by simp [State.classified, latchHead, latchClass]) hheld.1]
    simp only [length_jccInstr, latchOf_jccInstr, length_loopInstr, latchOf_loopInstr]
    rfl

/-! ## A step is the transitions carried to rest -/

theorem Phase.atRest_eq (p : Phase) : p.atRest = (p == .readOpcode || p.terminal) := by
  cases p <;> rfl

/-- All that a step at an instruction boundary does when an instruction is fetched (R179, R180). -/
theorem exec_of_fetch_ok {s : State} {i : Instr} {r : List Byte} (hp : s.phase = .readOpcode)
    (hf : fetch s = .ok (i, r)) : s.pos + i.length ≤ s.len ∧ exec i s = .next (s.completed i) := by
  obtain ⟨hlen, hmin, -⟩ := Laws.EncodedLength.all i (wellFormed_of_decode hf)
  have hheld := holds_bytesFrom s s.pos maxLength
  rw [eq_encode_append_of_decode hf, holds_append] at hheld
  have hin := holds_length_of_pos hheld.1 (by rw [hlen]; omega)
  rw [hlen] at hin
  exact ⟨hin, exec_next hp (by omega) hin⟩

/-- On the bytes of an instruction the transitions complete it (R181). -/
theorem finish_of_fetch_ok {s : State} {i : Instr} {r : List Byte} (hp : s.phase = .readOpcode)
    (hf : fetch s = .ok (i, r)) : finish s = s.completed i := by
  obtain ⟨op, bs, c, hbs, hc, htake⟩ := decode_ok hf
  have hheld := holds_bytesFrom s s.pos maxLength
  rw [hbs] at hheld
  obtain ⟨hop, hheld⟩ := hheld
  rw [finish_eq_finishWithin_classified hp hop hc, finishWithin_classified htake hheld]

/-- R181: from every state that is not terminal a step is the transitions carried to rest. -/
theorem step_eq_finish {s : State} (h : s.phase.terminal = false) : step s = .next (finish s) := by
  by_cases hp : s.phase = .readOpcode
  · cases hf : fetch s with
    | ok p => rw [step_of_fetch_ok hp hf, (exec_of_fetch_ok hp hf).2, finish_of_fetch_ok hp hf]
    | error e => exact step_of_fetch_error hp hf
  · exact step_of_midInstruction (by simp [Phase.atRest_eq, h, hp])

/-- R170: from Done and Failed there is no step. -/
theorem step_of_terminal {s : State} (h : s.phase.terminal = true) : step s = .fault .runOver := by
  cases hp : s.phase with
  | done | failed => simp only [step, hp]
  | _ => rw [hp] at h; cases h

/-- R170: and no instruction begins there. -/
theorem exec_of_terminal {s : State} (h : s.phase.terminal = true) (i : Instr) : exec i s = .fault .runOver := by
  rw [exec_eq, complete]
  cases hp : s.phase with
  | done | failed => rfl
  | _ => rw [hp] at h; cases h

/-! ## Runs at the two grains -/

theorem phaseRun_add (m n : Nat) (s : State) : phaseRun (m + n) s = phaseRun n (phaseRun m s) := by
  induction m generalizing s with
  | zero => rw [Nat.zero_add]; rfl
  | succ m ih => rw [Nat.succ_add]; exact ih (phaseStep s)

theorem phaseRun_of_terminal (n : Nat) {s : State} (h : s.phase.terminal = true) : phaseRun n s = s := by
  induction n with
  | zero => rfl
  | succ n ih => rw [phaseRun, phaseStep_terminal h, ih]

/-- `finish` is one to five transitions, the first of them at rest. -/
theorem finish_eq_phaseRun (s : State) :
    ∃ n, 1 ≤ n ∧ n ≤ 5 ∧ finish s = phaseRun n s ∧ (phaseRun n s).phase.atRest = true ∧
      ∀ m, 1 ≤ m → m < n → (phaseRun m s).phase.atRest = false := by
  obtain ⟨n, hn, heq, hbefore, hlast⟩ := finishWithin_eq_phaseRun 5 s
  exact ⟨n, by omega, hn, heq, heq ▸ finish_atRest s, hbefore⟩

theorem run_succ {s t : State} (h : step s = .next t) (k : Nat) :
    Host.Core.run core (k + 1) s = Host.Core.run core k t := by
  simp only [Host.Core.run, Host.Check.core_step, h]

/-- Every run of steps is a run of transitions. -/
theorem exists_phaseRun_of_run {k : Nat} {s t : State} (h : Host.Core.run core k s = .next t) :
    ∃ n, phaseRun n s = t := by
  induction k generalizing s with
  | zero => cases h; exact ⟨0, rfl⟩
  | succ k ih =>
    cases ht : s.phase.terminal with
    | true => simp only [Host.Core.run, Host.Check.core_step, step_of_terminal ht, reduceCtorEq] at h
    | false =>
      rw [run_succ (step_eq_finish ht)] at h
      obtain ⟨m, -, -, hm, -⟩ := finish_eq_phaseRun s
      obtain ⟨n, hn⟩ := ih h
      exact ⟨m + n, by rw [phaseRun_add, ← hm, hn]⟩

/-- Every run of transitions that ends in Done or Failed is a run of steps: it cannot end before the first state at
rest, from which a shorter one is left. -/
theorem exists_run_of_phaseRun {n : Nat} {s t : State} (h : phaseRun n s = t) (ht : t.phase.terminal = true) :
    ∃ k, Host.Core.run core k s = .next t := by
  induction n using Nat.strong_induction_on generalizing s with
  | _ n ih =>
    cases hs : s.phase.terminal with
    | true => exact ⟨0, by rw [← h, phaseRun_of_terminal n hs]; rfl⟩
    | false =>
      obtain ⟨m, hpos, -, hm, -, hbefore⟩ := finish_eq_phaseRun s
      have hmn : m ≤ n := by
        by_contra hlt
        have hn : n ≠ 0 := by rintro rfl; cases h; cases hs.symm.trans ht
        have hbusy := hbefore n (by omega) (by omega)
        rw [h, Phase.atRest_eq, ht, Bool.or_true] at hbusy
        cases hbusy
      have hrest : phaseRun (n - m) (finish s) = t := by rw [hm, ← phaseRun_add, Nat.add_sub_cancel' hmn, h]
      obtain ⟨k, hk⟩ := ih (n - m) (by omega) hrest
      exact ⟨k + 1, by rw [run_succ (step_eq_finish hs), hk]⟩

end Sys2Proof.Machine
end

section
/-! PROOFS. All that a step at an instruction boundary can do (49_decode_loop R179, R182): a whole instruction, the
normal end, or a failure, by what the decoder answers on the bytes at the cursor. -/

namespace Sys2Proof.Machine

/-- One step ends in Failed with some record, 1 to 5 bytes on (60_exceptions R195). -/
def StepFails (s : State) : Prop :=
  ∃ p kind cause byte offset, s.pos < p ∧ p ≤ s.pos + 5 ∧ FailsWith s p kind cause byte offset

/-- The bytes after the opcode byte that the decoder looks at: as many as the longest instruction has. -/
def State.tailBytes (s : State) : List Byte := s.bytesFrom (s.pos + 1) 5

section
variable {s : State} {op m : Byte}

theorem length_tailBytes (s : State) : s.tailBytes.length = min 5 (s.len - (s.pos + 1)) := bytesFrom_length s _ _

theorem bytesFrom_pos_eq_cons (hop : s.byteAt? s.pos = some op) : s.bytesFrom s.pos maxLength = op :: s.tailBytes := by
  rw [maxLength, State.bytesFrom, hop, State.tailBytes]

theorem tailBytes_eq_cons (hm : s.byteAt? (s.pos + 1) = some m) : s.tailBytes = m :: s.bytesFrom (s.pos + 2) 4 := by
  rw [State.tailBytes, State.bytesFrom, hm]

/-- Fewer than five bytes after the opcode byte: a truncation is 1 to 5 bytes on. -/
theorem stepFails_of_truncates (hop : s.byteAt? s.pos = some op) (hfew : s.tailBytes.length < 5) (h : Truncates s) :
    StepFails s := by
  have hlt := ((byteAt?_eq_some s _ _).mp hop).1
  rw [length_tailBytes] at hfew
  exact ⟨s.len, _, _, _, _, hlt, by omega, h⟩

/-- R74, R187: what the reader of a register/memory form rejects, truncates. -/
theorem RmForm.stepFails {d w : Bool} {c : OpClass} {mk : BitVec 3 → Rm → Instr} {mn : Mnemonic} {e : DecodeError}
    (hform : RmForm d w c mk mn) (hp : s.phase = .readOpcode) (hop : s.byteAt? s.pos = some op)
    (hc : classify s.tables op = some c) (h : takeForm s.tables c s.tailBytes = .error e) : StepFails s := by
  rw [hform.takeForm_eq] at h
  cases hm : s.byteAt? (s.pos + 1) with
  | none =>
    have hend := (byteAt?_eq_none s _).mp hm
    exact stepFails_of_truncates hop (by rw [length_tailBytes]; omega)
      (hform.truncates hp hop hc fun m h => by rw [hm] at h; cases h)
  | some m =>
    have hcons := tailBytes_eq_cons hm
    obtain ⟨-, hnil | ⟨m', r, hbs, hr⟩⟩ := takeRmForm_error h
    · cases hnil.symm.trans hcons
    · obtain ⟨rfl, rfl⟩ := List.cons.inj (hbs.symm.trans hcons)
      have hdisp := dispLen_le (modField m') (rmField m')
      have hlt := ((byteAt?_eq_some s _ _).mp hm).1
      rw [bytesFrom_length] at hr
      refine stepFails_of_truncates hop (by rw [length_tailBytes]; omega) (hform.truncates hp hop hc fun m h => ?_)
      obtain rfl : m' = m := Option.some.inj (hm.symm.trans h)
      omega

/-- R109, R110, R187: what the reader of an immediate-to-register/memory form rejects, truncates, or its sub-opcode is
unsupported. -/
theorem stepFails_aluImm {sx w : Bool} {e : DecodeError} (hp : s.phase = .readOpcode)
    (hop : s.byteAt? s.pos = some op) (hc : classify s.tables op = some (.aluImmRm sx w))
    (h : takeAluImm s.tables sx w s.tailBytes = .error e) : StepFails s := by
  cases hm : s.byteAt? (s.pos + 1) with
  | none =>
    have hend := (byteAt?_eq_none s _).mp hm
    exact stepFails_of_truncates hop (by rw [length_tailBytes]; omega) (aluImm_truncates_of_noModrm hp hop hc hm)
  | some m =>
    have hcons := tailBytes_eq_cons hm
    cases hsub : aluOp? s.tables (regField m) with
    | none =>
      exact ⟨s.pos + 2, _, _, _, _, by omega, by omega, aluImm_failsWith_of_unsupported hp hop hc hm hsub⟩
    | some aop =>
      have hdisp := dispLen_le (modField m) (rmField m)
      have himm := immLen_le w sx
      have hlt := ((byteAt?_eq_some s _ _).mp hm).1
      obtain ⟨-, hnil | ⟨m', r, hbs, -, hr⟩⟩ | ⟨m', r, hbs, hnone, -⟩ := takeAluImm_error h
      · cases hnil.symm.trans hcons
      · obtain ⟨rfl, rfl⟩ := List.cons.inj (hbs.symm.trans hcons)
        rw [bytesFrom_length] at hr
        exact stepFails_of_truncates hop (by rw [length_tailBytes]; omega)
          (aluImm_truncates_of_modrm hp hop hc hm hsub (by omega))
      · obtain ⟨rfl, -⟩ := List.cons.inj (hbs.symm.trans hcons)
        cases hsub.symm.trans hnone

/-- R91, R111, R187: what the reader of a form with an immediate only rejects, truncates. -/
theorem ImmForm.stepFails {w : Bool} {c : OpClass} {mk : Imm → Instr} {mn : Mnemonic} {dst : BitVec 3}
    {e : DecodeError} (hform : ImmForm w c mk mn dst) (hp : s.phase = .readOpcode) (hop : s.byteAt? s.pos = some op)
    (hc : classify s.tables op = some c) (h : takeImm false w s.tailBytes = .error e) : StepFails s := by
  have hlt := ((byteAt?_eq_some s _ _).mp hop).1
  have himm := immLen_le w false
  obtain ⟨hshort, -⟩ := takeImm_error h
  have hlen := length_tailBytes s
  exact stepFails_of_truncates hop (by omega) (hform.truncates hp hop hc (by omega))

/-- R120, R187: what the reader of a jump or loop form rejects, truncates. -/
theorem JumpForm.stepFails {c : OpClass} {mk : Byte → Instr} {mn : Mnemonic} {e : DecodeError}
    (hform : JumpForm c mk mn) (hp : s.phase = .readOpcode) (hop : s.byteAt? s.pos = some op)
    (hc : classify s.tables op = some c) (h : takeByte s.tailBytes = .error e) : StepFails s := by
  have hlt := ((byteAt?_eq_some s _ _).mp hop).1
  obtain ⟨hnil, -⟩ := takeByte_error h
  have hlen := length_tailBytes s
  rw [hnil, List.length_nil] at hlen
  exact stepFails_of_truncates hop (by rw [hnil]; exact Nat.zero_lt_succ 4) (hform.truncates hp hop hc (by omega))

/-- What a form's reader rejects fails the step. -/
theorem stepFails_of_takeForm_error {c : OpClass} {e : DecodeError} (hp : s.phase = .readOpcode)
    (hop : s.byteAt? s.pos = some op) (hc : classify s.tables op = some c)
    (h : takeForm s.tables c s.tailBytes = .error e) : StepFails s := by
  cases c with
  | movRm d w => exact RmForm.mov.stepFails hp hop hc h
  | addRm d w => exact RmForm.add.stepFails hp hop hc h
  | subRm d w => exact RmForm.sub.stepFails hp hop hc h
  | cmpRm d w => exact RmForm.cmp.stepFails hp hop hc h
  | aluImmRm sx w => exact stepFails_aluImm hp hop hc h
  | aluImmAcc aop w =>
    cases aop with
    | add => exact ImmForm.add.stepFails hp hop hc (map_error h)
    | sub => exact ImmForm.sub.stepFails hp hop hc (map_error h)
    | cmp => exact ImmForm.cmp.stepFails hp hop hc (map_error h)
  | movImmReg w oreg => exact (ImmForm.mov oreg).stepFails hp hop hc (map_error h)
  | jcc code => exact (JumpForm.jcc code).stepFails hp hop hc (map_error h)
  | loop code => exact (JumpForm.loop code).stepFails hp hop hc (map_error h)

/-- All that a step at an instruction boundary can do. -/
theorem step_readOpcode_cases (hp : s.phase = .readOpcode) :
    (∃ i : Instr, i.wellFormed = true ∧ s.pos + i.length ≤ s.len ∧ step s = .next (s.completed i)) ∨
    (s.len ≤ s.pos ∧ step s = .next (endRun s)) ∨ StepFails s := by
  cases hop : s.byteAt? s.pos with
  | none =>
    have hend := (byteAt?_eq_none s _).mp hop
    have hfinish : finish s = endRun s := by
      have hread := phaseStep_readOpcode_end hp hend
      rw [finish, finishWithin_rest (by rw [hread]; rfl), hread]
    exact .inr (.inl ⟨hend, by rw [step_eq_finish (by rw [hp]; rfl), hfinish]⟩)
  | some op =>
    have hbytes := bytesFrom_pos_eq_cons hop
    cases hc : classify s.tables op with
    | none =>
      have hfail := Encoding.unsupportedOpcodeFailsTheRun s op hp hop ((classify_eq_none _ _).mp hc)
      exact .inr (.inr ⟨s.pos + 1, _, _, _, _, by omega, by omega, hfail⟩)
    | some c =>
      cases hf : fetch s with
      | ok p =>
        obtain ⟨hin, hexec⟩ := exec_of_fetch_ok hp hf
        exact .inl ⟨p.1, wellFormed_of_decode hf, hin, by rw [step_of_fetch_ok hp hf, hexec]⟩
      | error e =>
        rw [fetch, hbytes, decode] at hf
        exact .inr (.inr (stepFails_of_takeForm_error hp hop hc (by simpa only [hc] using hf)))

end

end Sys2Proof.Machine
end

section
/-! PROOFS. The transition table of the seven-state machine (49_decode_loop R171 to R176), row by row: Classify by the
opcode patterns (R51, R173), the operand and the immediate of the spec's tables, and the rows for a missing byte. -/

namespace Sys2Proof

open Sys2Proof.Machine

/-! ## Classify on the opcode patterns of R51 -/

theorem classify_of_classifyFixed {op : Byte} {c : OpClass} (t : Tables) (h : classifyFixed op = some c) :
    classify t op = some c := by
  simp only [classify, h]

/-- The opcode pairs of the immediate-to-accumulator forms. -/
theorem classifyFixed_aluImmAcc : ∀ op : Byte, op &&& 0xFE = 0x04 ∨ op &&& 0xFE = 0x2C ∨ op &&& 0xFE = 0x3C →
    ∃ aop, classifyFixed op = some (.aluImmAcc aop (op.getLsbD 0)) := by
  have key : ∀ op : Byte, (op &&& 0xFE = 0x04 → classifyFixed op = some (.aluImmAcc .add (op.getLsbD 0))) ∧
      (op &&& 0xFE = 0x2C → classifyFixed op = some (.aluImmAcc .sub (op.getLsbD 0))) ∧
      (op &&& 0xFE = 0x3C → classifyFixed op = some (.aluImmAcc .cmp (op.getLsbD 0))) := by decide
  intro op h
  obtain ⟨hadd, hsub, hcmp⟩ := key op
  obtain h | h | h := h
  exacts [⟨_, hadd h⟩, ⟨_, hsub h⟩, ⟨_, hcmp h⟩]

/-- The opcode bytes of MOV immediate to register: `1011`, `w`, `oreg`. -/
theorem classifyFixed_movImmReg : ∀ op : Byte, op &&& 0xF0 = 0xB0 →
    classifyFixed op = some (.movImmReg (op.getLsbD 3) (op.extractLsb' 0 3)) := by
  decide

/-- The opcode bytes of the conditional jumps: `0111` and the code. -/
theorem classifyFixed_jcc : ∀ op : Byte, op &&& 0xF0 = 0x70 →
    classifyFixed op = some (.jcc (op.extractLsb' 0 4)) := by
  decide

/-- R61: an opcode byte of the map has a form. -/
theorem exists_classify_of_mem {t : Tables} {op : Byte} (h : op.toNat ∈ supportedOpcodes t) :
    ∃ c, classify t op = some c :=
  Option.ne_none_iff_exists'.mp fun hnone => (classify_eq_none t op).mp hnone h

/-- R109, R110: a sub-opcode that ALU_SUBOP lists has an operation. -/
theorem exists_aluOp?_of_mem {t : Tables} {sub : BitVec 3} (h : sub ∈ supportedSubops t) :
    ∃ aop, aluOp? t sub = some aop :=
  Option.ne_none_iff_exists'.mp fun hnone => (aluOp?_eq_none_iff_not_mem_supportedSubops t sub).mp hnone h

end Sys2Proof

namespace Sys2Proof.Machine

/-- Classify reads the opcode latch and leaves it. -/
@[simp] theorem latchClass_op (c : OpClass) (l : Latches) : (latchClass c l).op = l.op := by
  cases c <;> rfl

section
variable {s : State}

/-! ## The rows for a missing byte (R187) -/

/-- `t` is `s` failed with TruncatedInstruction, every byte consumed if the cursor was inside the stream, whatever the
latches hold. -/
def TruncatedFrom (s t : State) : Prop :=
  ∃ p l, (s.pos ≤ s.len → p = s.len) ∧ t = raiseTruncated { s with pos := p, cur := l }

theorem TruncatedFrom.row {t : State} (h : TruncatedFrom s t) :
    t.phase = .failed ∧ t.out = s.out ∧ (s.pos ≤ s.len → t.pos = s.len) ∧
      t.err = some ⟨.truncatedInstruction, .none, none, s.len, s.start⟩ := by
  obtain ⟨p, l, hp, rfl⟩ := h
  exact ⟨rfl, rfl, hp, rfl⟩

/-- The truncation at the end of the stream, where no byte is left to consume. -/
theorem truncatedFrom_of_end (hend : s.len ≤ s.pos) : TruncatedFrom s (raiseTruncated s) :=
  ⟨s.pos, s.cur, fun hin => le_antisymm hin hend, rfl⟩

/-! ## ResolveOperands (R174) -/

/-- With an addressing byte and the bytes it calls for, its r/m operand stands there, and it is the operand of R83. -/
theorem exists_rm_of_modrm {m : Byte} (w : Bool) (hm : s.byteAt? s.pos = some m)
    (hlen : s.pos + 1 + dispLen (modField m) (rmField m) ≤ s.len) :
    ∃ rm : Rm, rm.wellFormed = true ∧ rm.bytes.length = dispLen (modField m) (rmField m) ∧
      Holds s s.pos (modrmByte rm.modBits (regField m) rm.rmBits :: rm.bytes) ∧
      rmOperand w rm = operandTable m w (memRead s.stream (s.pos + 1)) (memRead s.stream (s.pos + 2)) := by
  obtain ⟨rm, hrm, hmod, hrmb, hheld, htable⟩ := exists_rm s m w (s.pos + 1) (by omega) hlen
  exact ⟨rm, hrm, by rw [Rm.bytes_length rm hrm, hmod, hrmb],
    ⟨by rw [hmod, hrmb, modrmByte_fields, hm], hheld⟩, htable⟩

/-- What the rows with an addressing byte and all its bytes say: the loop goes to `next` with the cursor past them and
the operand of R83. -/
def ResolvesTo (next : Phase) (m : Byte) (s : State) : Prop :=
  (phaseStep s).phase = next ∧ (phaseStep s).pos = s.pos + 1 + dispLen (modField m) (rmField m) ∧
    (phaseStep s).cur.rmop = operandTable m s.cur.w (memRead s.stream (s.pos + 1)) (memRead s.stream (s.pos + 2))

theorem resolvesTo_emit {m : Byte} (hp : s.phase = .resolveOperands)
    (hf : s.cur.form ∈ [Form.addRm, .subRm, .cmpRm, .movRm]) (hm : s.byteAt? s.pos = some m)
    (hlen : s.pos + 1 + dispLen (modField m) (rmField m) ≤ s.len) : ResolvesTo .emit m s := by
  obtain ⟨rm, hrm, hcount, hheld, htable⟩ := exists_rm_of_modrm s.cur.w hm hlen
  have hstep := phaseStep_rm hp hf hrm hheld
  exact ⟨by rw [hstep], by rw [hstep, ← hcount], by rw [hstep, ← htable]; rfl⟩

theorem resolvesTo_readImmediate {m : Byte} (hp : s.phase = .resolveOperands) (hf : s.cur.form = .aluImmRm)
    (hm : s.byteAt? s.pos = some m) (hsub : regField m ∈ supportedSubops s.tables)
    (hlen : s.pos + 1 + dispLen (modField m) (rmField m) ≤ s.len) : ResolvesTo .readImmediate m s := by
  obtain ⟨aop, haop⟩ := exists_aluOp?_of_mem hsub
  have hreg := aluSubop_of_aluOp? haop
  obtain ⟨rm, hrm, hcount, hheld, htable⟩ := exists_rm_of_modrm s.cur.w hm hlen
  rw [hreg] at hheld haop
  have hstep := phaseStep_aluImm hp hf hrm haop hheld
  exact ⟨by rw [hstep], by rw [hstep, ← hcount], by rw [hstep, ← htable]; rfl⟩

/-- No form with an addressing byte finds one at the end of the stream. -/
theorem phaseStep_noModrm_truncated (hp : s.phase = .resolveOperands)
    (hf : s.cur.form ∈ [Form.addRm, .subRm, .cmpRm, .movRm, .aluImmRm]) (hend : s.len ≤ s.pos) :
    phaseStep s = raiseTruncated s := by
  simp only [List.mem_cons, List.not_mem_nil, or_false] at hf
  obtain hf | hf | hf | hf | hf := hf <;>
    simp only [phaseStep, hp, resolveOperands, hf, readModrm, need_of_end hend, Except.map, settle]

/-- The row for a missing byte: the addressing byte, or one that it calls for once its sub-opcode, if it has one, is
found supported. -/
theorem resolve_truncatedFrom (hp : s.phase = .resolveOperands)
    (hf : s.cur.form ∈ [Form.addRm, .subRm, .cmpRm, .movRm, .aluImmRm])
    (hmissing : s.byteAt? s.pos = none ∨ ∃ m, s.byteAt? s.pos = some m ∧
      (s.cur.form = .aluImmRm → regField m ∈ supportedSubops s.tables) ∧
      s.len < s.pos + 1 + dispLen (modField m) (rmField m)) : TruncatedFrom s (phaseStep s) := by
  obtain hnone | ⟨m, hm, hsub, hshort⟩ := hmissing
  · have hend := (byteAt?_eq_none s _).mp hnone
    rw [phaseStep_noModrm_truncated hp hf hend]
    exact truncatedFrom_of_end hend
  · have hpos := ((byteAt?_eq_some s _ _).mp hm).1.le
    suffices h : ∃ l, phaseStep s = raiseTruncated { s with pos := s.len, cur := l } by
      obtain ⟨l, hl⟩ := h
      exact ⟨s.len, l, fun _ => rfl, hl⟩
    by_cases halu : s.cur.form = .aluImmRm
    case pos =>
      obtain ⟨aop, haop⟩ := exists_aluOp?_of_mem (hsub halu)
      obtain ⟨hlen, -⟩ | hfail := phaseStep_aluImm_supported hp halu hm haop
      · omega
      · exact hfail
    case neg =>
      refine phaseStep_rm_truncated hp (by simpa [halu] using hf) hpos fun m' hm' => ?_
      obtain rfl : m = m' := Option.some.inj (hm.symm.trans hm')
      exact hshort

/-! ## ReadImmediate (R175) -/

/-- The value of the immediate bytes that stand at an offset (R75 to R77). -/
theorem immValue_of_holds {imm : Imm} {a : Nat} (h : Holds s a imm.bytes) :
    (imm.bytes.length = 1 → immValue imm = (memRead s.stream a).toInt) ∧
    (imm.bytes.length = 2 → immValue imm = (memRead s.stream (a + 1) ++ memRead s.stream a : Word).toInt) := by
  cases imm with
  | imm8 b =>
    obtain ⟨-, hb⟩ := (byteAt?_eq_some s _ _).mp h.1
    exact ⟨fun _ => by rw [hb]; exact signed8_eq_toInt b, nofun⟩
  | imm16 v =>
    obtain ⟨hlo, hhi, -⟩ := h
    obtain ⟨-, hlo⟩ := (byteAt?_eq_some s _ _).mp hlo
    obtain ⟨-, hhi⟩ := (byteAt?_eq_some s _ _).mp hhi
    refine ⟨nofun, fun _ => ?_⟩
    rw [hlo, hhi, ← word16, word16_bytes]
    exact signed16_eq_toInt v

/-- All that ReadImm does when a byte is missing, from any cursor. -/
theorem readImm_of_short {w sx : Bool} (hshort : s.len < s.pos + immLen w sx) :
    ∃ p, (s.pos ≤ s.len → p = s.len) ∧ readImm w sx s = .error (raiseTruncated { s with pos := p }) := by
  by_cases hpos : s.pos ≤ s.len
  case pos =>
    obtain ⟨imm, himm, hheld, -⟩ | ⟨-, hfail⟩ := readImm_cases w sx s hpos
    · have hin := holds_length hheld hpos
      rw [Imm.bytes_length _ _ imm himm] at hin
      omega
    · exact ⟨s.len, fun _ => rfl, hfail⟩
  case neg =>
    have hneed := need_of_end (s := s) (by omega)
    refine ⟨s.pos, fun h => absurd h hpos, ?_⟩
    unfold readImm need16
    rw [hneed]
    split_ifs <;> rfl

/-- What the row of ReadImmediate says for a form with `n` immediate bytes. -/
def ReadsImmediate (n : Nat) (s : State) : Prop :=
  (s.pos + n ≤ s.len → (phaseStep s).phase = .emit ∧ (phaseStep s).pos = s.pos + n ∧
    (n = 1 → (phaseStep s).cur.imm = (memRead s.stream s.pos).toInt) ∧
    (n = 2 → (phaseStep s).cur.imm = (memRead s.stream (s.pos + 1) ++ memRead s.stream s.pos : Word).toInt)) ∧
  (s.len < s.pos + n → TruncatedFrom s (phaseStep s))

/-- R78: the forms whose immediate ReadImm reads, with the sign-extension bit `sx`. -/
theorem readsImmediate_imm (sx : Bool) (hp : s.phase = .readImmediate)
    (hf : (s.cur.form = .aluImmRm ∧ sx = s.cur.s) ∨ (sx = false ∧ s.cur.form ∈ [Form.aluImmAcc, .movImmReg])) :
    ReadsImmediate (immLen s.cur.w sx) s := by
  refine ⟨fun hlen => ?enough, fun hshort => ?short⟩
  case enough =>
    obtain ⟨imm, himm, hheld, -⟩ := exists_imm s s.cur.w sx s.pos (by omega) hlen
    obtain ⟨hone, htwo⟩ := immValue_of_holds hheld
    have hstep := phaseStep_imm sx hp hf himm hheld
    rw [Imm.bytes_length _ _ imm himm] at hstep hone htwo
    rw [hstep]
    exact ⟨rfl, rfl, hone, htwo⟩
  case short =>
    obtain ⟨p, hpos, hfail⟩ := readImm_of_short hshort
    refine ⟨p, s.cur, hpos, ?_⟩
    simp only [List.mem_cons, List.not_mem_nil, or_false] at hf
    obtain ⟨hf, rfl⟩ | ⟨rfl, hf | hf⟩ := hf <;>
      simp only [phaseStep, hp, readImmediate, hf, hfail, Except.map, settle]

/-- R81, R120: the jump and loop forms, whose immediate is the offset byte. -/
theorem readsImmediate_offset (hp : s.phase = .readImmediate) (hf : s.cur.form ∈ [Form.jcc, .loop]) :
    ReadsImmediate 1 s := by
  refine ⟨fun hlen => ?enough, fun hshort => ?short⟩
  case enough =>
    have hbyte := (byteAt?_eq_some s s.pos _).mpr ⟨hlen, rfl⟩
    rw [phaseStep_offset hp hf hbyte]
    exact ⟨rfl, rfl, fun _ => signed8_eq_toInt _, nofun⟩
  case short =>
    have hend : s.len ≤ s.pos := by omega
    rw [phaseStep_offset_truncated hp hf hend]
    exact truncatedFrom_of_end hend

/-- R60: the number of immediate bytes by form. -/
theorem readsImmediate_of_form (hp : s.phase = .readImmediate)
    (hf : s.cur.form ∈ [Form.aluImmRm, .aluImmAcc, .movImmReg, .jcc, .loop]) :
    ReadsImmediate (if s.cur.form ∈ [.jcc, .loop] then 1 else
      immLen s.cur.w (s.cur.form == .aluImmRm && s.cur.s)) s := by
  cases hform : s.cur.form with
  | aluImmRm => exact readsImmediate_imm s.cur.s hp (.inl ⟨hform, rfl⟩)
  | aluImmAcc | movImmReg => exact readsImmediate_imm false hp (.inr ⟨rfl, by simp [hform]⟩)
  | jcc | loop => exact readsImmediate_offset hp (by simp [hform])
  | addRm | subRm | cmpRm | movRm => simp [hform] at hf

end

end Sys2Proof.Machine
end

section
/-! PROOFS. The statements of 49_decode_loop, settled. -/

namespace Sys2Proof.DecodeLoop

open Sys2Proof.Machine

/-- Settles O32: a step is the transitions carried to rest (`step_eq_finish`), and they are at most five. -/
theorem stepAgreesWithThePhases : Obligations.StepAgreesWithThePhases := by
  intro s h
  obtain ⟨n, hpos, hmax, heq, hrest⟩ := finish_eq_phaseRun s
  exact ⟨n, hpos, hmax, by rw [step_eq_finish h, heq], hrest⟩

/-- Settles O33: a run of steps is a run of transitions, and a run of transitions to the end is cut into steps where it
is at rest. -/
theorem theTwoGrainsAgree : Obligations.TheTwoGrainsAgree :=
  fun _ _ ht => ⟨fun ⟨_, h⟩ => exists_phaseRun_of_run h, fun ⟨_, h⟩ => exists_run_of_phaseRun h ht⟩

/-- Settles O21: of the three things that a step at a boundary can do, the first goes on by the instruction's length. -/
theorem stepAdvancesOrEnds : Obligations.StepAdvancesOrEnds := by
  intro s t hp hstep
  obtain ⟨i, hi, hin, h⟩ | ⟨-, h⟩ | ⟨p, k, c, b, o, hlt, -, l, h⟩ := step_readOpcode_cases hp
  all_goals
    rw [h] at hstep
    cases hstep
  · obtain ⟨-, hmin, hmax⟩ := Laws.EncodedLength.all i hi
    exact .inl ⟨rfl, Nat.add_le_add_left hmin _, Nat.add_le_add_left hmax _, hin, by simp [State.completed], rfl⟩
  · exact .inr ⟨rfl, rfl, le_rfl⟩
  · exact .inr ⟨rfl, rfl, hlt.le⟩

/-- Settles O22, by induction on the bytes left: a step that does not end the run consumes two of them at least. -/
theorem everyRunEnds : Obligations.EveryRunEnds := by
  intro s hp hin
  induction hleft : s.len - s.pos using Nat.strong_induction_on generalizing s with
  | _ left ih =>
    have hstep := step_eq_finish (s := s) (by rw [hp]; rfl)
    have hlen : (finish s).len = s.len := (finish_sameInput s).len
    obtain ⟨hp', hmin, -, hin', hout, -⟩ | ⟨hend, hout, -⟩ := stepAdvancesOrEnds s (finish s) hp hstep
    case inl =>
      obtain ⟨k, t, hk, hrun, ht, hemit⟩ :=
        ih ((finish s).len - (finish s).pos) (by omega) (finish s) hp' (by omega) rfl
      exact ⟨k + 1, t, by omega, by rw [run_succ hstep, hrun], ht, by omega⟩
    case inr =>
      exact ⟨1, finish s, by omega, by rw [run_succ hstep]; rfl, hend, by rw [hout]; omega⟩

/-- Settles O20: Done and Failed are answered by the fault, every other state by the transitions carried to rest. -/
theorem onlyTheEndOfARunStopsIt : Obligations.OnlyTheEndOfARunStopsIt :=
  ⟨fun _ h => ⟨step_of_terminal h, exec_of_terminal h⟩, fun s h => ⟨finish s, step_eq_finish h⟩⟩

/-- Settles O1: what the decoder reads at the cursor is what a step fetches. -/
theorem stepRunsTheDecodedInstruction : Obligations.StepRunsTheDecodedInstruction :=
  fun _ _ _ hp h => step_of_fetch_ok hp h

/-- Settles O30: each row is a lemma about its phase. -/
theorem transitionTable : Obligations.TransitionTable := by
  intro s
  refine ⟨?atEnd, ?opcode, ?supported, ?unsupported, ?rm, ?aluImm, ?noModrm, ?missing, ?subop, ?imm, ?emit, ?terminal⟩
  case atEnd => exact fun hp hnone => phaseStep_readOpcode_end hp ((byteAt?_eq_none s _).mp hnone)
  case opcode => exact fun hp _ hb => phaseStep_readOpcode hp hb
  case supported =>
    intro hp hmem
    obtain ⟨c, hc⟩ := exists_classify_of_mem hmem
    rw [phaseStep_classify hp hc]
    exact ⟨rfl, rfl, latchClass_op c s.cur⟩
  case unsupported =>
    exact fun hp hmem => phaseStep_classify_unsupported hp ((classify_eq_none _ _).mpr hmem)
  case rm => exact fun hp hf _ hm hlen => resolvesTo_emit hp hf hm hlen
  case aluImm => exact fun hp hf _ hm hsub hlen => resolvesTo_readImmediate hp hf hm hsub hlen
  case noModrm => exact phaseStep_noModrm
  case missing => exact fun hp hf hmissing => (resolve_truncatedFrom hp hf hmissing).row
  case subop =>
    intro hp hf m hm hsub
    rw [phaseStep_aluImm_unsupported hp hf hm ((aluOp?_eq_none_iff_not_mem_supportedSubops _ _).mpr hsub)]
    exact ⟨rfl, rfl, rfl, rfl⟩
  case imm =>
    intro hp hf
    obtain ⟨henough, hshort⟩ := readsImmediate_of_form hp hf
    exact ⟨_, rfl, henough, fun h => (hshort h).row⟩
  case emit => exact phaseStep_emit
  case terminal => exact phaseStep_terminal

/-- Settles O31: the pattern decides what Classify answers, and that is what the transition latches. -/
theorem classifyLatchesTheFields : Obligations.ClassifyLatchesTheFields := by
  intro s hp op goesOn
  refine ⟨fun h => ?add, fun h => ?sub, fun h => ?cmp, fun h => ?mov, fun h => ?aluImm, fun h => ?acc, fun h => ?movImm,
    fun h => ?jcc, fun code h ht => ?loop, fun h => ?unsupported⟩
  case add => exact ⟨_, phaseStep_classify hp (classify_addRm _ _ h)⟩
  case sub => exact ⟨_, phaseStep_classify hp (classify_subRm _ _ h)⟩
  case cmp => exact ⟨_, phaseStep_classify hp (classify_cmpRm _ _ h)⟩
  case mov => exact ⟨_, phaseStep_classify hp (Mov.classify_movRm _ _ h)⟩
  case aluImm => exact ⟨_, phaseStep_classify hp (classify_aluImmRm _ _ h)⟩
  case acc =>
    obtain ⟨aop, hc⟩ := classifyFixed_aluImmAcc _ h
    exact ⟨_, phaseStep_classify hp (classify_of_classifyFixed _ hc)⟩
  case movImm => exact ⟨_, phaseStep_classify hp (classify_of_classifyFixed _ (classifyFixed_movImmReg _ h))⟩
  case jcc => exact ⟨_, phaseStep_classify hp (classify_of_classifyFixed _ (classifyFixed_jcc _ h))⟩
  case loop => exact ⟨_, phaseStep_classify hp ((congrArg (classify s.tables) h).trans (classify_loopOpcode ht code))⟩
  case unsupported => exact phaseStep_classify_unsupported hp ((classify_eq_none _ _).mpr h)

end Sys2Proof.DecodeLoop
end

section
/-! PROOFS. The ends of a run (60_exceptions R185 to R195): the normal end is entered at an instruction boundary only,
and a state that is not terminal has no end code. -/

namespace Sys2Proof.Machine

/-- R171: no row of the table leads from the middle of an instruction to Done. -/
theorem Phase.ne_done_of_mem_successors {p q : Phase} (hp : p.atRest = false) (hq : q ∈ p.successors) :
    q ≠ .done := by
  rintro rfl
  cases p with
  | readOpcode | done | failed => cases hp
  | classify | resolveOperands | readImmediate | emit => simp [Phase.successors] at hq

/-- R186: the instruction in progress, carried on however far, is not ended by the normal end: the loop stops at the
next boundary. -/
theorem finishWithin_phase_ne_done (n : Nat) {s : State} (h : s.phase.atRest = false) :
    (finishWithin n s).phase ≠ .done := by
  induction n generalizing s with
  | zero =>
    intro hdone
    rw [show s.phase = .done from hdone] at h
    cases h
  | succ n ih =>
    cases hr : (phaseStep s).phase.atRest with
    | true =>
      rw [finishWithin_rest hr]
      exact Phase.ne_done_of_mem_successors h (phaseStep_successors s)
    | false =>
      rw [finishWithin_busy hr]
      exact ih hr

/-- A step into Done begins at an instruction boundary. -/
theorem phase_eq_readOpcode_of_step_done {s t : State} (h : step s = .next t) (ht : t.phase = .done) :
    s.phase = .readOpcode := by
  cases hr : s.phase.atRest with
  | false =>
    rw [step_of_midInstruction hr] at h
    cases h
    exact absurd ht (finishWithin_phase_ne_done 5 hr)
  | true =>
    rw [Phase.atRest_eq, Bool.or_eq_true, beq_iff_eq] at hr
    refine hr.resolve_right fun hterm => ?_
    rw [step_of_terminal hterm] at h
    cases h

/-- R186: with no byte left at a boundary, a step is the normal end. -/
theorem step_of_end {s : State} (hp : s.phase = .readOpcode) (hend : s.len ≤ s.pos) : step s = .next (endRun s) := by
  have hread := phaseStep_readOpcode_end hp hend
  rw [step_eq_finish (by rw [hp]; rfl), finish, finishWithin_rest (by rw [hread]; rfl), hread]

/-- R187: a whole instruction of which only a part is in the stream truncates. -/
theorem exec_truncated {i : Instr} {s : State} (hp : s.phase = .readOpcode) (hop : s.pos < s.len)
    (hshort : s.len < s.pos + i.length) :
    exec i s = .next (raiseTruncated { s with pos := s.len, start := s.pos }) := by
  rw [exec_eq, complete_truncated _ _ hp hop hshort]

theorem endCode_of_not_terminal {s : State} (h : s.phase.terminal = false) : endCode s = none := by
  cases hp : s.phase with
  | done | failed => rw [hp] at h; cases h
  | readOpcode | classify | resolveOperands | readImmediate | emit => simp only [endCode, hp]

end Sys2Proof.Machine
end

section
/-! PROOFS. The statements of 60_exceptions, settled. -/

namespace Sys2Proof.Exceptions

open Sys2Proof.Machine

/-- Settles O18: a step into Done begins at a boundary (`phase_eq_readOpcode_of_step_done`), and of the three things that
a step there can do, the normal end alone leads to Done. -/
theorem endOfStreamAtBoundaryEndsTheRun : Obligations.EndOfStreamAtBoundaryEndsTheRun := by
  refine ⟨fun s hp hnone => step_of_end hp ((byteAt?_eq_none s _).mp hnone), fun s t hstep hdone => ?_⟩
  have hp := phase_eq_readOpcode_of_step_done hstep hdone
  obtain ⟨i, -, -, h⟩ | ⟨hend, h⟩ | ⟨p, k, c, b, o, -, -, l, h⟩ := step_readOpcode_cases hp
  all_goals
    rw [h] at hstep
    cases hstep
  · cases hdone
  · exact ⟨hp, (byteAt?_eq_none s _).mpr hend, rfl, rfl⟩
  · cases hdone

/-- Settles O19: of the three things that a step at a boundary can do, the failure alone leads to Failed, with the record
of `FailsWith`. -/
theorem failureIsPrecise : Obligations.FailureIsPrecise := by
  intro s t hp hstep hfailed
  obtain ⟨i, -, -, h⟩ | ⟨-, h⟩ | ⟨p, k, c, b, o, hlt, hle, l, h⟩ := step_readOpcode_cases hp
  all_goals
    rw [h] at hstep
    cases hstep
  · cases hfailed
  · cases hfailed
  · exact ⟨rfl, hlt, hle, _, rfl, rfl⟩

/-- Settles O28: every instruction is one completion, whose truncation keeps the latches. -/
theorem everyInstructionCanTruncate : Obligations.EveryInstructionCanTruncate :=
  fun _ s hp hop hshort => ⟨s.cur, exec_truncated hp hop hshort⟩

/-- Settles O53: each end writes the phase and the record that its code is read from. -/
theorem endCodes : Obligations.EndCodes :=
  fun _ => ⟨rfl, rfl, fun _ => rfl, fun _ _ => rfl, endCode_of_not_terminal⟩

end Sys2Proof.Exceptions
end

section
/-! PROOFS. The start of a run (70_reset_and_hazards R210 to R212), and what the host sees after a step at an
instruction boundary: it is decided by what the decoder answers on the bytes at the cursor (60_exceptions R185 to
R188), so not by `start` and the latches. -/

namespace Sys2Proof.Machine

/-! ## The start of a run (R210 to R212) -/

/-- R38, R212: the bytes of a new run are the given ones, and there is none past them. -/
@[simp] theorem startRun_byteAt? (bytes : List Byte) (s : State) (a : Nat) :
    (State.startRun bytes s).byteAt? a = bytes[a]? := by
  rw [State.byteAt?, startRun_len, startRun_stream]
  split
  case isTrue h =>
    rw [memRead_memWriteBytes rfl, if_neg (Nat.not_lt_zero a), Nat.sub_zero, List.getElem?_eq_getElem h,
      Option.getD_some]
  case isFalse h => exact (List.getElem?_eq_none (Nat.le_of_not_lt h)).symm

theorem startRun_streamOk (bytes : List Byte) (s : State) : StreamOk (State.startRun bytes s) := by
  refine ⟨Memory.wf_memWriteBytes rfl 0 bytes, fun c hc => ?_⟩
  obtain hc | ⟨-, hc⟩ := mem_memWriteBytes hc
  · cases hc
  · rwa [Nat.zero_add] at hc

theorem startRun_cursorInv (bytes : List Byte) (s : State) : CursorInv (State.startRun bytes s) :=
  ⟨startRun_streamOk bytes s, Nat.zero_le _, startRun_err bytes s⟩

theorem startRun_outputInv (bytes : List Byte) (s : State) : OutputInv (State.startRun bytes s) := by
  refine ⟨fun e he => ?_, trivial⟩
  rw [startRun_out] at he
  cases he

/-- Log entry 2: the reset is the start of a run on the empty stream. -/
theorem startRun_nil_reset : State.startRun [] State.reset = State.reset := rfl

/-! ## What stands at the cursor depends on the input only -/

theorem SameInput.bytesFrom {s t : State} (h : SameInput s t) (a n : Nat) : t.bytesFrom a n = s.bytesFrom a n := by
  induction n generalizing a with
  | zero => rfl
  | succ n ih => simp only [State.bytesFrom, h.byteAt?, ih]

theorem SameInput.fetch {s t : State} (h : SameInput s t) (hpos : t.pos = s.pos) :
    Machine.fetch t = Machine.fetch s := by
  simp only [Machine.fetch, h.tables, h.bytesFrom, hpos]

/-! ## The result of a step at an instruction boundary -/

/-- What the host sees after a step at an instruction boundary where the decoder gives this answer: the instruction
emitted, the normal end, or the record of the failure (R180, R185 to R188, R109). -/
def State.resultOf (s : State) : Parsed Instr → List (Instruction × Text) × Phase × Option Diagnostic × Nat
  | .ok (i, _) =>
    (s.out ++ [(decodedOf i, format s.tables (decodedOf i))], .readOpcode, s.err, s.pos + i.length)
  | .error .endOfStream => (s.out, .done, s.err, s.pos)
  | .error .truncated => (s.out, .failed, some ⟨.truncatedInstruction, .none, none, s.len, s.pos⟩, s.len)
  | .error (.unsupportedOpcode op) =>
    (s.out, .failed, some ⟨.unsupportedOpcode, .opcode, some op, s.pos, s.pos⟩, s.pos + 1)
  | .error (.unsupportedSubop m) =>
    (s.out, .failed, some ⟨.unsupportedOpcode, .aluSubop, some m, s.pos + 1, s.pos⟩, s.pos + 2)

/-- A step answers a state with the result of the decoder's answer `x`. -/
def StepsAs (s : State) (x : Parsed Instr) : Prop := ∃ t, step s = .next t ∧ t.result = s.resultOf x

section
variable {s : State} {op m : Byte} {c : OpClass} {e : DecodeError} {r : List Byte}

theorem stepsAs_of_truncates (h : Truncates s) : StepsAs s (.error .truncated) := by
  obtain ⟨l, h⟩ := h
  exact ⟨_, h, rfl⟩

theorem byteAt?_of_tailBytes_nil (h : s.tailBytes = []) : s.byteAt? (s.pos + 1) = none := by
  cases hm : s.byteAt? (s.pos + 1) with
  | none => rfl
  | some m => cases h.symm.trans (tailBytes_eq_cons hm)

theorem byteAt?_of_tailBytes_cons (h : s.tailBytes = m :: r) :
    s.byteAt? (s.pos + 1) = some m ∧ r.length = min 4 (s.len - (s.pos + 2)) := by
  cases hm : s.byteAt? (s.pos + 1) with
  | none =>
    have hlen := length_tailBytes s
    rw [h, List.length_cons, Nat.sub_eq_zero_of_le ((byteAt?_eq_none s _).mp hm)] at hlen
    cases hlen
  | some m' =>
    obtain ⟨rfl, rfl⟩ := List.cons.inj (h.symm.trans (tailBytes_eq_cons hm))
    exact ⟨rfl, bytesFrom_length s _ _⟩

theorem RmForm.stepsAs_error {d w : Bool} {mk : BitVec 3 → Rm → Instr} {mn : Mnemonic}
    (hform : RmForm d w c mk mn) (hp : s.phase = .readOpcode) (hop : s.byteAt? s.pos = some op)
    (hc : classify s.tables op = some c) (h : takeForm s.tables c s.tailBytes = .error e) : StepsAs s (.error e) := by
  rw [hform.takeForm_eq] at h
  obtain ⟨rfl, htail⟩ := takeRmForm_error h
  refine stepsAs_of_truncates (hform.truncates hp hop hc fun m hm => ?_)
  obtain hnil | ⟨m', r, hcons, hshort⟩ := htail
  · cases hm.symm.trans (byteAt?_of_tailBytes_nil hnil)
  · obtain ⟨hm', hlen⟩ := byteAt?_of_tailBytes_cons hcons
    obtain rfl : m = m' := Option.some.inj (hm.symm.trans hm')
    have hdisp := dispLen_le (modField m) (rmField m)
    have hlt := ((byteAt?_eq_some s _ _).mp hm).1
    omega

theorem stepsAs_aluImm_error {sx w : Bool} (hp : s.phase = .readOpcode) (hop : s.byteAt? s.pos = some op)
    (hc : classify s.tables op = some (.aluImmRm sx w)) (h : takeAluImm s.tables sx w s.tailBytes = .error e) :
    StepsAs s (.error e) := by
  obtain ⟨rfl, hnil | ⟨m, r, hcons, hsub, hshort⟩⟩ | ⟨m, r, hcons, hsub, rfl⟩ := takeAluImm_error h
  · exact stepsAs_of_truncates (aluImm_truncates_of_noModrm hp hop hc (byteAt?_of_tailBytes_nil hnil))
  · obtain ⟨hm, hlen⟩ := byteAt?_of_tailBytes_cons hcons
    obtain ⟨aop, hsub⟩ := Option.ne_none_iff_exists'.mp hsub
    have hdisp := dispLen_le (modField m) (rmField m)
    have himm := immLen_le w sx
    have hlt := ((byteAt?_eq_some s _ _).mp hm).1
    exact stepsAs_of_truncates (aluImm_truncates_of_modrm hp hop hc hm hsub (by omega))
  · obtain ⟨hm, -⟩ := byteAt?_of_tailBytes_cons hcons
    obtain ⟨l, hfail⟩ := aluImm_failsWith_of_unsupported hp hop hc hm hsub
    exact ⟨_, hfail, rfl⟩

theorem ImmForm.stepsAs_error {w : Bool} {mk : Imm → Instr} {mn : Mnemonic} {dst : BitVec 3}
    (hform : ImmForm w c mk mn dst) (hp : s.phase = .readOpcode) (hop : s.byteAt? s.pos = some op)
    (hc : classify s.tables op = some c) (h : takeImm false w s.tailBytes = .error e) : StepsAs s (.error e) := by
  obtain ⟨hshort, rfl⟩ := takeImm_error h
  have hlt := ((byteAt?_eq_some s _ _).mp hop).1
  have himm := immLen_le w false
  have hlen := length_tailBytes s
  exact stepsAs_of_truncates (hform.truncates hp hop hc (by omega))

theorem JumpForm.stepsAs_error {mk : Byte → Instr} {mn : Mnemonic} (hform : JumpForm c mk mn)
    (hp : s.phase = .readOpcode) (hop : s.byteAt? s.pos = some op) (hc : classify s.tables op = some c)
    (h : takeByte s.tailBytes = .error e) : StepsAs s (.error e) := by
  obtain ⟨hnil, rfl⟩ := takeByte_error h
  have hend := (byteAt?_eq_none s _).mp (byteAt?_of_tailBytes_nil hnil)
  have hlt := ((byteAt?_eq_some s _ _).mp hop).1
  exact stepsAs_of_truncates (hform.truncates hp hop hc (le_antisymm hend hlt))

/-- What a form's reader rejects, the step fails with. -/
theorem stepsAs_takeForm_error (hp : s.phase = .readOpcode) (hop : s.byteAt? s.pos = some op)
    (hc : classify s.tables op = some c) (h : takeForm s.tables c s.tailBytes = .error e) : StepsAs s (.error e) := by
  cases c with
  | movRm d w => exact RmForm.mov.stepsAs_error hp hop hc h
  | addRm d w => exact RmForm.add.stepsAs_error hp hop hc h
  | subRm d w => exact RmForm.sub.stepsAs_error hp hop hc h
  | cmpRm d w => exact RmForm.cmp.stepsAs_error hp hop hc h
  | aluImmRm sx w => exact stepsAs_aluImm_error hp hop hc h
  | aluImmAcc aop w =>
    cases aop with
    | add => exact ImmForm.add.stepsAs_error hp hop hc (map_error h)
    | sub => exact ImmForm.sub.stepsAs_error hp hop hc (map_error h)
    | cmp => exact ImmForm.cmp.stepsAs_error hp hop hc (map_error h)
  | movImmReg w oreg => exact (ImmForm.mov oreg).stepsAs_error hp hop hc (map_error h)
  | jcc code => exact (JumpForm.jcc code).stepsAs_error hp hop hc (map_error h)
  | loop code => exact (JumpForm.loop code).stepsAs_error hp hop hc (map_error h)

/-- R180, R185: a step at an instruction boundary has the result of what the decoder answers at the cursor. -/
theorem stepsAs_fetch (hp : s.phase = .readOpcode) : StepsAs s (fetch s) := by
  cases hf : fetch s with
  | ok p =>
    obtain ⟨-, hexec⟩ := exec_of_fetch_ok hp hf
    exact ⟨s.completed p.1, (step_of_fetch_ok hp hf).trans hexec, rfl⟩
  | error e =>
    rw [fetch] at hf
    cases hop : s.byteAt? s.pos with
    | none =>
      rw [maxLength, State.bytesFrom, hop] at hf
      cases hf
      exact ⟨_, step_of_end hp ((byteAt?_eq_none s _).mp hop), rfl⟩
    | some op =>
      rw [bytesFrom_pos_eq_cons hop] at hf
      cases hc : classify s.tables op with
      | none =>
        cases hf.symm.trans ((decode_unsupportedOpcode _ _ _).mpr hc)
        obtain ⟨l, hfail⟩ := Encoding.unsupportedOpcodeFailsTheRun s op hp hop ((classify_eq_none _ _).mp hc)
        exact ⟨_, hfail, rfl⟩
      | some c => exact stepsAs_takeForm_error hp hop hc (by simpa only [decode, hc] using hf)

end

end Sys2Proof.Machine
end

section
/-! PROOFS. The statements of 70_reset_and_hazards, settled. -/

namespace Sys2Proof.ResetAndHazards

open Sys2Proof.Machine

/-- Settles O40: the fields of the new run are read off, and its bytes are `startRun_byteAt?`. -/
theorem resetStartsANewRun : Obligations.ResetStartsANewRun := by
  refine fun bytes s => ⟨rfl, startRun_len bytes s, startRun_byteAt? bytes s, startRun_tables bytes s, fun s' h => ?_⟩
  rw [State.startRun, State.startRun, h]

/-- Settles O46: the result is decided by the decoder's answer (`stepsAs_fetch`), which reads the input only. -/
theorem latchesDoNotMatterAtABoundary : Obligations.LatchesDoNotMatterAtABoundary := by
  intro s t start cur hp hs
  have hfetch : fetch { s with start := start, cur := cur } = fetch s := SameInput.fetch ⟨rfl, rfl, rfl⟩ rfl
  obtain ⟨u, hu, hresult⟩ := stepsAs_fetch hp
  obtain ⟨t', ht', hresult'⟩ := stepsAs_fetch (s := { s with start := start, cur := cur }) hp
  cases hu.symm.trans hs
  refine ⟨t', ht', hresult'.trans ?_⟩
  rw [hresult, hfetch]
  rfl

/-- Settles O39, field by field. -/
theorem resetValues : Obligations.ResetValues := ⟨rfl, rfl, rfl, rfl, rfl, rfl, rfl⟩

/-- Settles O43: reset is the start of a run on the empty stream. -/
theorem invariantsHoldAtTheStart : Obligations.InvariantsHoldAtTheStart := by
  have hstart (bytes : List Byte) (s : State) :
      CursorInv (State.startRun bytes s) ∧ OutputInv (State.startRun bytes s) :=
    ⟨startRun_cursorInv bytes s, startRun_outputInv bytes s⟩
  refine ⟨?_, hstart⟩
  rw [← startRun_nil_reset]
  exact hstart [] State.reset

end Sys2Proof.ResetAndHazards
end
